-- ==== Sys2Proof/Word.lean ====
section
/-! DEFINITION. The word types of the block and the bus transactions it answers or performs, as
30_encoding.md R65 and R74 list them: a transaction is named by the bus operation that carries it,
never by bits of its own (R76). -/

namespace Sys2Proof

/-- A data byte, a port number, a row select, a refresh-register value (R12: `u8`). -/
abbrev Byte := BitVec 8

/-- A memory or port address (R8 `ADDR_BITS`, R9 `PORT_ADDR_BITS`: 16 bits). -/
abbrev Addr := BitVec 16

/-- A colour index `0..7` (R21, R24). -/
abbrev Colour := BitVec 3

/-- A raw key identifier. The spec keeps the type abstract (R10). DESIGN CHOICE, log 8. -/
abbrev RawKey := Nat

/-- The bus phase of a memory read (R48). -/
inductive Phase where
  | m1
  | data
deriving DecidableEq, Repr

/-- The region operand of SNAPSHOT_WRITE (R74). -/
inductive LoadRegion where
  | rom
  | ram
deriving DecidableEq, Repr

/-- The transactions the CPU engine issues, formats `PR`, `PW`, `MR`, `MW`, `ID` and `IP` of R65. -/
inductive CpuTxn where
  | pr (a : Addr)
  | pw (a : Addr) (d : Byte)
  | mr (a : Addr) (phase : Phase)
  | mw (a : Addr) (d : Byte)
  | id (r : Byte)
  | ip
deriving DecidableEq, Repr

/-- The host operations, format `H`, with the operands of R74. -/
inductive HostOp where
  | frame
  | powerRaise
  | powerLower
  | keyDown (k : RawKey)
  | keyUp (k : RawKey)
  | setEar (b : Bool)
  | snapshotWrite (region : LoadRegion) (off : Nat) (v : Byte)
deriving DecidableEq, Repr

/-- The sequencer's own steps, format `S`, with the operands of R74. -/
inductive SeqStep where
  | renderLine (y : Nat)
  | pixel (x : Nat) (c : Colour)
  | lineTail
  | nmiPulse
  | tick (n : Nat)
  | proceed (n : Nat)
  | publish
deriving DecidableEq, Repr

/-- A transaction of the block: a CPU transaction, a host operation or a sequencer step (R65). -/
inductive Transaction where
  | cpu (t : CpuTxn)
  | host (o : HostOp)
  | seq (p : SeqStep)
deriving DecidableEq, Repr

/-- The format column of R65. -/
inductive Format where
  | PR | PW | MR | MW | ID | IP | H | S
deriving DecidableEq, Repr

/-- The format of a transaction (R65). -/
def Transaction.format : Transaction → Format
  | .cpu (.pr _) => .PR
  | .cpu (.pw _ _) => .PW
  | .cpu (.mr _ _) => .MR
  | .cpu (.mw _ _) => .MW
  | .cpu (.id _) => .ID
  | .cpu .ip => .IP
  | .host _ => .H
  | .seq _ => .S

/-- One whole instruction of the external CPU engine as the block sees it (R99, R100): the
transactions it issues, in order, and the cycles it takes. -/
structure CpuInstr where
  txns : List CpuTxn
  cycles : Nat
deriving DecidableEq, Repr, Inhabited

end Sys2Proof
end

