-- ==== Sys2Proof/Config.lean ====
section
/-! DEFINITION. The parameters of 00_scope.md R6 to R11: those the spec leaves open or checks at
construction are fields of Config, those it decides are constants. The free draws of the CPU engine
(R99, D15) are here too. -/

namespace Sys2Proof

/-- The clauses of R11, named so that `CONFIG_INVALID` can record the one that is broken (R140). -/
inductive ConfigClause where
  | ticksPerCycle
  | bandSum
  | totalHeightPositive
  | regionOrder
  | fixedLayout
  | nmiPortsDiffer
  | keyRowLength
  | romImageLength
  | colourRange
  | totalHeightBound
  | maxOverrunPositive
deriving DecidableEq, Repr

/-- The names of R129's keys as RawKey values. Digits stand for themselves, so that row 0xF7 is the
source's `[1,2,3,4,5]`; the other values are ASCII codes, and SHIFT is 16. DESIGN CHOICE, log 8. -/
def Config.keyRowsStandard : List (Byte × List RawKey) :=
  [ (0xFE, [16, 90, 88, 67, 86]),     -- SHIFT Z X C V
    (0xFD, [65, 83, 68, 70, 71]),     -- A S D F G
    (0xFB, [81, 87, 69, 82, 84]),     -- Q W E R T
    (0xF7, [1, 2, 3, 4, 5]),          -- 1 2 3 4 5
    (0xEF, [0, 9, 8, 7, 6]),          -- 0 9 8 7 6
    (0xDF, [80, 79, 73, 85, 89]),     -- P O I U Y
    (0xBF, [13, 76, 75, 74, 72]),     -- NEWLINE L K J H
    (0x7F, [32, 46, 77, 78, 66]) ]    -- SPACE . M N B

/-- The configuration of one block (R6 to R10). It is fixed at construction and no operation writes
it (R20). The colour parameters are naturals so that R11's clause about them can fail. -/
structure Config where
  totalHeight : Nat
  vretraceLines : Nat
  upperBorderLines : Nat
  activeLines : Nat
  lowerBorderLines : Nat
  leftBorderPx : Nat
  activePx : Nat
  rightBorderPx : Nat
  hretraceTicks : Nat
  maxOverrun : Nat
  romImage : List Byte
  ticksPerCycle : Nat := 2
  romEnd : Nat := 0x2000
  ramEnd : Nat := 0x6000
  nmiOnPort : Byte := 0xFE
  nmiOffPort : Byte := 0xFD
  borderDefault : Nat := 0
  activeFill : Nat := 0
  keyRows : List (Byte × List RawKey) := Config.keyRowsStandard
deriving DecidableEq, Repr

/-- R11's clauses in the order the rule lists them: each with whether it holds. -/
def Config.clauses (c : Config) : List (ConfigClause × Bool) :=
  [ (.ticksPerCycle, decide (c.ticksPerCycle = 2)),
    (.bandSum, decide (c.vretraceLines + c.upperBorderLines + c.activeLines
      + c.lowerBorderLines ≤ c.totalHeight)),
    (.totalHeightPositive, decide (1 ≤ c.totalHeight)),
    (.regionOrder, decide (0 < c.romEnd ∧ c.romEnd ≤ c.ramEnd ∧ c.ramEnd ≤ 0x10000)),
    (.fixedLayout, decide (c.romEnd = 0x2000 ∧ c.ramEnd = 0x6000)),
    (.nmiPortsDiffer, decide (c.nmiOnPort ≠ c.nmiOffPort)),
    (.keyRowLength, c.keyRows.all fun r => r.2.length == 5),
    (.romImageLength, decide (c.romImage.length = c.romEnd)),
    (.colourRange, decide (c.borderDefault < 8 ∧ c.activeFill < 8)),
    (.totalHeightBound, decide (c.totalHeight < 65536)),
    (.maxOverrunPositive, decide (1 ≤ c.maxOverrun)) ]

/-- The first clause of R11 that the configuration breaks, if any. -/
def Config.firstBroken (c : Config) : Option ConfigClause :=
  (c.clauses.find? fun p => !p.2).map (·.1)

/-- The configuration is admitted: every clause of R11 holds. -/
def Config.admitted (c : Config) : Bool := c.clauses.all (·.2)

/-- The reference configuration REF of R6. Its ROM image and MAX_OVERRUN, which the spec does not
give, are DESIGN CHOICE and PRESUMED, log 1 and log 10. -/
def Config.ref : Config where
  totalHeight := 312
  vretraceLines := 16
  upperBorderLines := 48
  activeLines := 192
  lowerBorderLines := 56
  leftBorderPx := 48
  activePx := 256
  rightBorderPx := 48
  hretraceTicks := 96
  maxOverrun := 23
  romImage := List.replicate 0x2000 0

/-- The small configuration TINY of R6, with MAX_OVERRUN 13 as in 95_test_vectors.md. -/
def Config.tiny : Config where
  totalHeight := 6
  vretraceLines := 1
  upperBorderLines := 1
  activeLines := 1
  lowerBorderLines := 1
  leftBorderPx := 2
  activePx := 4
  rightBorderPx := 2
  hretraceTicks := 4
  maxOverrun := 13
  romImage := List.replicate 0x2000 0

/-- `UNUSED_FILL` (R8). -/
def Config.unusedFill : Byte := 0xFF

/-- `RAM_RESET_FILL` (R8). -/
def Config.ramResetFill : Byte := 0x00

/-- `READ_BIT5` (R9). -/
def Config.readBit5 : Bool := true

/-- `READ_BIT6` (R9). -/
def Config.readBit6 : Bool := true

/-- `ODD_PORT_VALUE` (R9). -/
def Config.oddPortValue : Byte := 0xFF

/-- `INT_R_MASK` (R9). -/
def Config.intRMask : Byte := 0x40

/-- `M1_MASK` (R8). -/
def Config.m1Mask : Addr := 0x3FFF

/-- `FRAMES_PER_SECOND` (R7); no rule depends on it (R132). -/
def Config.framesPerSecond : Nat := 50

/-- FREE VALUE. The instructions the CPU engine executes once the instructions listed in `State.cpu`
are used up, by draw number: nothing constrains them (R99, D15, I17). Log 2. -/
opaque Config.freeCpuInstr : Nat → CpuInstr

end Sys2Proof
end

