-- ==== Sys2Proof/Machine/Geometry.lean ====
section
/-! DEFINITION. The raster geometry derived from a configuration: R6's derived sizes, the band of a
line (R72), the segment of a column (R73), the framebuffer cell of a line and column (R21) and the
tick counts of a line and a frame (R92). -/

namespace Sys2Proof.Machine

/-- `RASTER_WIDTH` (R6). -/
def rasterWidth (c : Config) : Nat := c.leftBorderPx + c.activePx + c.rightBorderPx

/-- `RASTER_HEIGHT` (R6). -/
def rasterHeight (c : Config) : Nat := c.upperBorderLines + c.activeLines + c.lowerBorderLines

/-- The five bands of R72. -/
inductive Band where
  | retrace
  | upper
  | active
  | lower
  | trailing
deriving DecidableEq, Repr

/-- `Band(y)` (R72). -/
def bandOf (c : Config) (y : Nat) : Band :=
  if y < c.vretraceLines then .retrace
  else if y < c.vretraceLines + c.upperBorderLines then .upper
  else if y < c.vretraceLines + c.upperBorderLines + c.activeLines then .active
  else if y < c.vretraceLines + c.upperBorderLines + c.activeLines + c.lowerBorderLines then .lower
  else .trailing

/-- The three segments of an active line (R73). -/
inductive Segment where
  | left
  | video
  | right
deriving DecidableEq, Repr

/-- `Segment(x)` (R73). -/
def segmentOf (c : Config) (x : Nat) : Segment :=
  if x < c.leftBorderPx then .left
  else if x < c.leftBorderPx + c.activePx then .video
  else .right

/-- The framebuffer index of column `x` of raster line `y`: `FB[(y - VRETRACE_LINES) * RASTER_WIDTH
+ x]` (R21, R82). -/
def cellIndex (c : Config) (y x : Nat) : Nat := (y - c.vretraceLines) * rasterWidth c + x

/-- How many cells the framebuffer has (R20, R21). -/
def fbSize (c : Config) : Nat := rasterWidth c * rasterHeight c

/-- The ticks of the band part of line `y` (R92, R170). -/
def bandTicks (c : Config) (y : Nat) : Nat :=
  match bandOf c y with
  | .trailing => 0
  | _ => rasterWidth c

/-- The ticks line `y` adds to the accumulator (R92). -/
def lineTicks (c : Config) (y : Nat) : Nat := bandTicks c y + c.hretraceTicks

/-- The ticks of a frame, `F` of R92 and R102. -/
def frameTicks (c : Config) : Nat :=
  (c.vretraceLines + c.upperBorderLines + c.activeLines + c.lowerBorderLines) * rasterWidth c
    + c.totalHeight * c.hretraceTicks

end Sys2Proof.Machine
end

