-- ==== Sys2Proof/Syntax.lean ====
section
/-! DEFINITION. The operations of the block, one constructor per row of spec/opcode_table.json, with
the fields its encoding column names. Bits the block ignores are kept as fields, so that an
operation stands for exactly one transaction (R65 to R74). -/

namespace Sys2Proof

/-- An operation of the block (R2, R79). -/
inductive Instr where
  /-- `A = row ++ low ++ 0`; `low` is `A[7:1]`, ignored (R120). -/
  | portReadEven (row : Byte) (low : BitVec 7)
  /-- `A = high ++ 1`; `high` is ignored (R121). -/
  | portReadOdd (high : BitVec 15)
  /-- `A = high ++ NMI_OFF_PORT` (R125). -/
  | portWriteNmiOff (high : Byte) (d : Byte)
  /-- `A = high ++ NMI_ON_PORT` (R125). -/
  | portWriteNmiOn (high : Byte) (d : Byte)
  /-- `A = high ++ port`, any other port number (R125). -/
  | portWriteOther (high : Byte) (port : Byte) (d : Byte)
  /-- An opcode fetch at `0 ++ a` (R116). -/
  | memFetchDirect (a : BitVec 15)
  /-- An opcode fetch at `1 ++ bit14 ++ a` (R116). -/
  | memFetchMirror (bit14 : BitVec 1) (a : BitVec 14)
  /-- A data read (R115). -/
  | memRead (a : Addr)
  /-- A write (R117). -/
  | memWrite (a : Addr) (d : Byte)
  /-- `R = bit7 ++ 0 ++ low` (R107). -/
  | instrDoneInt (bit7 : BitVec 1) (low : BitVec 6)
  /-- `R = bit7 ++ 1 ++ low` (R107). -/
  | instrDoneNoint (bit7 : BitVec 1) (low : BitVec 6)
  /-- The CPU's "instruction about to execute" notification (R108). -/
  | instrPre
  /-- One frame (R80). -/
  | frame
  /-- RENDER_LINE(y) with Band(y) = RETRACE (R81, R84). -/
  | renderLineRetrace (y : Nat)
  /-- RENDER_LINE(y) with Band(y) = UPPER (R81, R85). -/
  | renderLineUpper (y : Nat)
  /-- RENDER_LINE(y) with Band(y) = ACTIVE (R81, R86). -/
  | renderLineActive (y : Nat)
  /-- RENDER_LINE(y) with Band(y) = LOWER (R81, R87). -/
  | renderLineLower (y : Nat)
  /-- RENDER_LINE(y) with Band(y) = TRAILING (R81, R88). -/
  | renderLineTrailing (y : Nat)
  /-- The pixel write (R82). -/
  | pixel (x : Nat) (c : Colour)
  /-- The tail of every line (R89). -/
  | lineTail
  /-- The NMI pulse (R106). -/
  | nmiPulse
  /-- The Clock Accumulator's step (R95). -/
  | tick (n : Nat)
  /-- The Bus Host's budget loop (R97). -/
  | proceed (n : Nat)
  /-- The end of a frame (R90). -/
  | publish
  /-- Reset (R130). -/
  | powerRaise
  /-- Power off (R131). -/
  | powerLower
  /-- A key is pressed (R127). -/
  | keyDown (k : RawKey)
  /-- A key is released (R128). -/
  | keyUp (k : RawKey)
  /-- The cassette input (R126). -/
  | setEar (b : Bool)
  /-- The loader's write (R119). -/
  | snapshotWrite (region : LoadRegion) (off : Nat) (v : Byte)
deriving DecidableEq, Repr

end Sys2Proof
end

