-- ==== Sys2Proof/WellFormed.lean ====
section
/-! DEFINITION. Which operations stand for a transaction of the block under a configuration: the
operand conditions of R68, R72, R74, R82 and R97. -/

namespace Sys2Proof

open Sys2Proof.Machine

/-- The operands are ones the table's row admits under the configuration. A SNAPSHOT_WRITE offset
outside its region is admitted, because R119 gives it an effect of its own (a fault). -/
def Instr.wellFormed (c : Config) : Instr → Bool
  | .portWriteNmiOn _ _ => decide (c.nmiOnPort ≠ c.nmiOffPort)
  | .portWriteOther _ port _ => decide (port ≠ c.nmiOffPort ∧ port ≠ c.nmiOnPort)
  | .renderLineRetrace y => decide (bandOf c y = .retrace)
  | .renderLineUpper y => decide (bandOf c y = .upper)
  | .renderLineActive y => decide (bandOf c y = .active)
  | .renderLineLower y => decide (bandOf c y = .lower)
  | .renderLineTrailing y => decide (bandOf c y = .trailing)
  | .pixel x _ => decide (x < rasterWidth c)
  | .proceed n => decide (1 ≤ n)
  | .portReadEven _ _ | .portReadOdd _ | .portWriteNmiOff _ _ | .memFetchDirect _
  | .memFetchMirror _ _ | .memRead _ | .memWrite _ _ | .instrDoneInt _ _ | .instrDoneNoint _ _
  | .instrPre | .frame | .lineTail | .nmiPulse | .tick _ | .publish | .powerRaise | .powerLower
  | .keyDown _ | .keyUp _ | .setEar _ | .snapshotWrite _ _ _ => true

end Sys2Proof
end

