-- ==== Sys2Proof/Decode.lean ====
section
/-! DEFINITION. The decoder of R79, from a transaction to the row of spec/opcode_table.json it
belongs to, total on every transaction and rejecting by name; after it the encoder, from the same
field layouts (R66 to R74). The block has no instruction words (30_encoding.md), so what is decoded
is a transaction, whose format the bus operation gives (R76). -/

namespace Sys2Proof

open Sys2Proof.Machine

/-- Why a transaction belongs to no row. -/
inductive DecodeError where
  /-- PROCEED(0): R74 and R97 ask for `n >= 1`. -/
  | proceedZero
  /-- PIXEL with a column that is not below `RASTER_WIDTH` (R82). -/
  | pixelColumn
deriving DecidableEq, Repr

/-- The port number `A[7:0]` (R66). -/
def portOf (a : Addr) : Byte := a.extractLsb' 0 8

/-- The high byte `A[15:8]`, the keyboard row select of an even-port read (R66). -/
def rowOf (a : Addr) : Byte := a.extractLsb' 8 8

/-- `PR` by `A[0]` (R79). -/
def decodePortRead (a : Addr) : Instr :=
  if a.getLsbD 0 then .portReadOdd (a.extractLsb' 1 15)
  else .portReadEven (rowOf a) (a.extractLsb' 1 7)

/-- `PW` by `A[7:0]`, NMI off first, then NMI on (R68, R79). -/
def decodePortWrite (c : Config) (a : Addr) (d : Byte) : Instr :=
  if portOf a = c.nmiOffPort then .portWriteNmiOff (rowOf a) d
  else if portOf a = c.nmiOnPort then .portWriteNmiOn (rowOf a) d
  else .portWriteOther (rowOf a) (portOf a) d

/-- `MR` by phase and then `A[15]` (R69, R79). -/
def decodeMemRead (a : Addr) (phase : Phase) : Instr :=
  match phase with
  | .data => .memRead a
  | .m1 =>
    if a.getLsbD 15 then .memFetchMirror (a.extractLsb' 14 1) (a.extractLsb' 0 14)
    else .memFetchDirect (a.extractLsb' 0 15)

/-- `ID` by `R[6]` (R70, R79). -/
def decodeInstrDone (r : Byte) : Instr :=
  if r.getLsbD 6 then .instrDoneNoint (r.extractLsb' 7 1) (r.extractLsb' 0 6)
  else .instrDoneInt (r.extractLsb' 7 1) (r.extractLsb' 0 6)

/-- RENDER_LINE by `Band(y)` (R72, R79). -/
def decodeRenderLine (c : Config) (y : Nat) : Instr :=
  match bandOf c y with
  | .retrace => .renderLineRetrace y
  | .upper => .renderLineUpper y
  | .active => .renderLineActive y
  | .lower => .renderLineLower y
  | .trailing => .renderLineTrailing y

/-- The CPU engine's transactions: none is rejected (R75). -/
def decodeCpu (c : Config) : CpuTxn → Instr
  | .pr a => decodePortRead a
  | .pw a d => decodePortWrite c a d
  | .mr a phase => decodeMemRead a phase
  | .mw a d => .memWrite a d
  | .id r => decodeInstrDone r
  | .ip => .instrPre

/-- The host's operations: one row each (R79). -/
def decodeHost : HostOp → Instr
  | .frame => .frame
  | .powerRaise => .powerRaise
  | .powerLower => .powerLower
  | .keyDown k => .keyDown k
  | .keyUp k => .keyUp k
  | .setEar b => .setEar b
  | .snapshotWrite region off v => .snapshotWrite region off v

/-- The sequencer's steps (R79), with the operand conditions of R82 and R97. -/
def decodeSeq (c : Config) : SeqStep → Except DecodeError Instr
  | .renderLine y => .ok (decodeRenderLine c y)
  | .pixel x col => if x < rasterWidth c then .ok (.pixel x col) else .error .pixelColumn
  | .lineTail => .ok .lineTail
  | .nmiPulse => .ok .nmiPulse
  | .tick n => .ok (.tick n)
  | .proceed n => if 1 ≤ n then .ok (.proceed n) else .error .proceedZero
  | .publish => .ok .publish

/-- The row of a transaction under a configuration, by format first (R79). -/
def decode (c : Config) : Transaction → Except DecodeError Instr
  | .cpu t => .ok (decodeCpu c t)
  | .host o => .ok (decodeHost o)
  | .seq p => decodeSeq c p

/-- The port address of an even-port read (opcode table, `rrrrrrrrxxxxxxx0`). -/
def evenPort (row : Byte) (low : BitVec 7) : Addr := (row ++ low) ++ 0#1

/-- The port address of an odd-port read (`xxxxxxxxxxxxxxx1`). -/
def oddPort (high : BitVec 15) : Addr := high ++ 1#1

/-- The port address of a port write (`xxxxxxxxpppppppp`). -/
def writePort (high port : Byte) : Addr := high ++ port

/-- The address of a direct opcode fetch (`0aaaaaaaaaaaaaaa`). -/
def directAddr (a : BitVec 15) : Addr := 0#1 ++ a

/-- The address of a mirrored opcode fetch (`1xaaaaaaaaaaaaaa`). -/
def mirrorAddr (bit14 : BitVec 1) (a : BitVec 14) : Addr := (1#1 ++ bit14) ++ a

/-- The refresh-register value with bit 6 given (`x0xxxxxx` and `x1xxxxxx`). -/
def refreshValue (bit7 bit6 : BitVec 1) (low : BitVec 6) : Byte := (bit7 ++ bit6) ++ low

/-- The transaction of an operation (R66 to R74 and the opcode table's encoding column). -/
def encode (c : Config) : Instr → Transaction
  | .portReadEven row low => .cpu (.pr (evenPort row low))
  | .portReadOdd high => .cpu (.pr (oddPort high))
  | .portWriteNmiOff high d => .cpu (.pw (writePort high c.nmiOffPort) d)
  | .portWriteNmiOn high d => .cpu (.pw (writePort high c.nmiOnPort) d)
  | .portWriteOther high port d => .cpu (.pw (writePort high port) d)
  | .memFetchDirect a => .cpu (.mr (directAddr a) .m1)
  | .memFetchMirror bit14 a => .cpu (.mr (mirrorAddr bit14 a) .m1)
  | .memRead a => .cpu (.mr a .data)
  | .memWrite a d => .cpu (.mw a d)
  | .instrDoneInt bit7 low => .cpu (.id (refreshValue bit7 0#1 low))
  | .instrDoneNoint bit7 low => .cpu (.id (refreshValue bit7 1#1 low))
  | .instrPre => .cpu .ip
  | .frame => .host .frame
  | .renderLineRetrace y => .seq (.renderLine y)
  | .renderLineUpper y => .seq (.renderLine y)
  | .renderLineActive y => .seq (.renderLine y)
  | .renderLineLower y => .seq (.renderLine y)
  | .renderLineTrailing y => .seq (.renderLine y)
  | .pixel x col => .seq (.pixel x col)
  | .lineTail => .seq .lineTail
  | .nmiPulse => .seq .nmiPulse
  | .tick n => .seq (.tick n)
  | .proceed n => .seq (.proceed n)
  | .publish => .seq .publish
  | .powerRaise => .host .powerRaise
  | .powerLower => .host .powerLower
  | .keyDown k => .host (.keyDown k)
  | .keyUp k => .host (.keyUp k)
  | .setEar b => .host (.setEar b)
  | .snapshotWrite region off v => .host (.snapshotWrite region off v)

/-- The transaction a bare bit pattern of the opcode table is read as. The table's patterns leave the
format out, and rows of different formats share patterns (R79 decodes by format first), so a bare
pattern is read under the format of the first of these that fits it: a port write whose port number
is one of the two fixed ones; for a pattern of one byte a notification, unless only bit 0 singles it
out as an odd port; for a longer one an opcode fetch, unless only bit 0 singles it out as an odd
port. Operands above the pattern are 0. DESIGN CHOICE, log 13. -/
def tableTransaction (nbits w : Nat) : CpuTxn :=
  if w % 256 = 0xFD ∨ w % 256 = 0xFE then .pw (BitVec.ofNat 16 w) 0
  else if nbits ≤ 8 then
    if w % 2 = 1 ∧ w / 64 % 2 = 0 then .pr (BitVec.ofNat 16 w) else .id (BitVec.ofNat 8 w)
  else if w % 2 = 1 ∧ w / 32768 % 2 = 0 then .pr (BitVec.ofNat 16 w)
  else .mr (BitVec.ofNat 16 w) .m1

/-- The operation the decoder reads from a bare bit pattern of the opcode table, under the reference
configuration (log 13). -/
def decodeTableWord (nbits w : Nat) : Option Instr :=
  match decode Config.ref (.cpu (tableTransaction nbits w)) with
  | .ok i => some i
  | .error _ => none

end Sys2Proof
end

