-- ==== Sys2Proof/Machine/State.lean ====
section
/-! DEFINITION. The state of the block (10_state.md R20), the events of its trace (R36), the fault
codes it can record (60_exceptions.md R140), the ways a step can stop, and the state after reset
(R130, R160). -/

namespace Sys2Proof.Machine

/-- An output event (R36). -/
inductive Event where
  | nmiLower
  | intLower
  | proceed (n : Nat)
  | run (b e : Nat)
  | publish
deriving DecidableEq, Repr

/-- A fault code with what R140 records with it. -/
inductive FaultCode where
  /-- `CONFIG_INVALID`: recorded by `construct` (R11). -/
  | configInvalid (clause : ConfigClause)
  /-- `UNMAPPED_ADDRESS`: no operation raises it, since every address is mapped (R53). -/
  | unmappedAddress (a : Addr) (phase : Phase)
  /-- `FRAME_IN_FLIGHT`: raised by FRAME, POWER_RAISE and POWER_LOWER during a frame. -/
  | frameInFlight (op : HostOp)
  /-- `RENDER_ORDER`: raised by RENDER_LINE out of order (R81). -/
  | renderOrder (y nextLine : Nat)
  /-- `NOT_POWERED`: raised by FRAME while `Powered` is false (R80). -/
  | notPowered (op : HostOp)
  /-- `HOST_IN_FRAME`: raised by the other host operations during a frame. -/
  | hostInFrame (op : HostOp)
  /-- `SNAPSHOT_RANGE`: raised by SNAPSHOT_WRITE outside its region (R119). -/
  | snapshotRange (region : LoadRegion) (off : Nat)
deriving DecidableEq, Repr

/-- The state. The fields down to `trace` are the elements of R20 under the spec's names (`ROM` and
`RAM` are the two address ranges of `mem`); `published` is R134's snapshot and `cfg` the
configuration of R6 to R11; the last four are the model's own (log 2, log 3, log 5). -/
structure State where
  /-- `FB`: the cells whose colour index is not 0, by index, rising. -/
  fb : List (Nat × Colour)
  lineCounter : BitVec 16
  nmiEnabled : Bool
  borderColor : Colour
  mic : Bool
  ear : Bool
  flash : Bool
  /-- The tick remainder. -/
  t : Nat
  budget : Int
  frameCycles : Nat
  nextLine : Nat
  inFrame : Bool
  powered : Bool
  faulted : Option FaultCode
  /-- The raw keys held down, rising. -/
  pressed : List RawKey
  /-- `ROM` and `RAM` by data address, rising, without the bytes that hold their reset value. -/
  mem : List Host.Cell
  /-- Oldest first. -/
  trace : List Event
  /-- What the video output sees: `FB` as it stood at the last PUBLISH (R134). -/
  published : Option (List (Nat × Colour))
  /-- Fixed at construction, never written. -/
  cfg : Config
  /-- The bytes returned to reads, oldest first. Log 5. -/
  replies : List Byte
  /-- The CPU engine's coming instructions. Log 2. -/
  cpu : List CpuInstr
  /-- How many free CPU instructions have been drawn. Log 2. -/
  cpuDraws : Nat
  /-- The transactions the outside has issued and the block has not taken. Log 3. -/
  inbox : List Transaction
deriving DecidableEq, Repr

/-- Why the machine stops with a fault. -/
inductive Fault where
  /-- Raised by every operation, and by an empty step, in a state whose `Faulted` is some code: "the
  faulted state has no further step" (R141). Safe: the spec gives the faulted state no step. -/
  | stuck (code : FaultCode)
deriving DecidableEq, Repr

/-- Why an operation has no meaning. -/
inductive Refusal where
  /-- An operation of the table without a meaning. No arm of `exec` answers it. Safe. -/
  | notModelled (mnemonic : String)
  /-- Raised by `step` for a transaction that belongs to no row (log 12). Safe. -/
  | noRow (e : DecodeError)
  /-- Raised by the RENDER_LINE rows when the row's band is not `Band(y)`: no transaction stands for
  such an operation (R79, log 12). Safe. -/
  | bandMismatch (y : Nat)
  /-- Raised by PIXEL where the cell it names is not a cell of the framebuffer, which the callers of
  R82 exclude (log 12). Safe. -/
  | pixelOutsideRaster (x : Nat)
deriving DecidableEq, Repr

/-- The state POWER_RAISE leaves right after construction with configuration `c` (R130, R160; the
fields `Pressed`, `Trace` and `Faulted` as R20's construction column gives them; the model's own
fields empty, log 2, log 3, log 5, log 6). -/
def State.resetOf (c : Config) : State where
  fb := []
  lineCounter := 0
  nmiEnabled := false
  borderColor := BitVec.ofNat 3 c.borderDefault
  mic := false
  ear := false
  flash := false
  t := 0
  budget := 0
  frameCycles := 0
  nextLine := 0
  inFrame := false
  powered := true
  faulted := none
  pressed := []
  mem := []
  trace := []
  published := none
  cfg := c
  replies := []
  cpu := []
  cpuDraws := 0
  inbox := []

/-- The machine right after reset, in the reference configuration (R160, log 1). -/
def State.reset : State := State.resetOf Config.ref

end Sys2Proof.Machine
end

