-- ==== Sys2Proof/Machine/Ops.lean ====
section
/-! DEFINITION. The named operations over the state: sparse stores (memory and framebuffer), the
press set, emitting an event, returning a byte, raising a fault and being stuck in one, the regions'
bytes, and taking the CPU engine's next instruction and the outside's next transaction. -/

namespace Sys2Proof.Machine

/-! ### Sparse stores -/

/-- The value at key `a`: the first listed one, else the unlisted value `d a`. -/
def sparseGet {α : Type} (d : Nat → α) : List (Nat × α) → Nat → α
  | [], a => d a
  | (k, v) :: m, a => if k = a then v else sparseGet d m a

/-- `p` put before the first entry whose key is not below its own. -/
def sparseInsert {α : Type} (p : Nat × α) : List (Nat × α) → List (Nat × α)
  | [] => [p]
  | q :: m => if p.1 ≤ q.1 then p :: q :: m else q :: sparseInsert p m

/-- The store with `v` at key `a`: the old entries of `a` go, and `v` is listed unless it is what an
unlisted `a` reads as. -/
def sparsePut {α : Type} [DecidableEq α] (d : Nat → α) (m : List (Nat × α)) (a : Nat) (v : α) :
    List (Nat × α) :=
  let rest := m.filter fun p => p.1 != a
  if v = d a then rest else sparseInsert (a, v) rest

/-- The keys rise strictly. -/
def keysRise {α : Type} : List (Nat × α) → Bool
  | [] => true
  | [_] => true
  | p :: q :: m => decide (p.1 < q.1) && keysRise (q :: m)

/-- The canonical form of a sparse store with keys below `bound`: strictly rising keys, and no entry
equal to what its key reads as unlisted. -/
def sparseWf {α : Type} [DecidableEq α] (d : Nat → α) (bound : Nat) (m : List (Nat × α)) : Bool :=
  keysRise m && m.all fun p => decide (p.1 < bound ∧ p.2 ≠ d p.1)

/-! ### Memory and framebuffer -/

/-- What an unlisted data address reads as: `ROM_IMAGE` in ROM, `RAM_RESET_FILL` in RAM, the values
POWER_RAISE gives them (R130), `UNUSED_FILL` beyond (R39). Log 7. -/
def unlisted (c : Config) (a : Nat) : Byte :=
  if a < c.romEnd then c.romImage.getD a 0
  else if a < c.ramEnd then Config.ramResetFill
  else Config.unusedFill

/-- The canonical form of memory: rising addresses of ROM and RAM, none holding its reset value. -/
def Memory.wf (c : Config) (m : List Host.Cell) : Bool := sparseWf (unlisted c) c.ramEnd m

/-- The data address of `RAM[0]`, `DESC_RAM`'s base (R51). -/
def ramBase : Nat := 0x2000

/-- `ROM[off]` (R38). -/
def romByte (s : State) (off : Nat) : Byte := sparseGet (unlisted s.cfg) s.mem off

/-- `RAM[off]` (R37). -/
def ramByte (s : State) (off : Nat) : Byte := sparseGet (unlisted s.cfg) s.mem (ramBase + off)

/-- `ROM[off] <- v`, which only SNAPSHOT_WRITE does (R119). -/
def romPut (off : Nat) (v : Byte) (s : State) : State :=
  { s with mem := sparsePut (unlisted s.cfg) s.mem off v }

/-- `RAM[off] <- v` (R56). -/
def ramPut (off : Nat) (v : Byte) (s : State) : State :=
  { s with mem := sparsePut (unlisted s.cfg) s.mem (ramBase + off) v }

/-- The colour of a framebuffer cell that is not listed, POWER_RAISE's 0 (R130). -/
def fbUnlisted : Nat → Colour := fun _ => 0

/-- `FB[i]` (R21). -/
def fbCell (s : State) (i : Nat) : Colour := sparseGet fbUnlisted s.fb i

/-- `FB[i] <- v` (R13). -/
def fbPut (i : Nat) (v : Colour) (s : State) : State :=
  { s with fb := sparsePut fbUnlisted s.fb i v }

/-- The canonical form of the framebuffer: only cells of the raster are listed. -/
def fbWf (c : Config) (m : List (Nat × Colour)) : Bool := sparseWf fbUnlisted (fbSize c) m

/-- The first `n` cells of a framebuffer from cell `i`, as the snapshot's reader sees them (R134). -/
def fbCells (m : List (Nat × Colour)) (i : Nat) : Nat → List Colour
  | 0 => []
  | n + 1 => sparseGet fbUnlisted m i :: fbCells m (i + 1) n

/-! ### The press set -/

/-- The set with `k` (R127). -/
def keyInsert (k : RawKey) : List RawKey → List RawKey
  | [] => [k]
  | j :: ks => if k < j then k :: j :: ks else if k = j then j :: ks else j :: keyInsert k ks

/-- The set without `k` (R128). -/
def keyRemove (k : RawKey) (ks : List RawKey) : List RawKey := ks.filter fun j => j != k

/-- The canonical form of a set: strictly rising. -/
def keysWf : List RawKey → Bool
  | [] => true
  | [_] => true
  | i :: j :: ks => decide (i < j) && keysWf (j :: ks)

/-! ### Events, replies, faults -/

/-- `Emit(e)` (R13). -/
def emit (e : Event) (s : State) : State := { s with trace := s.trace ++ [e] }

/-- A read returns `v` to the CPU engine (the result column of R65). Log 5. -/
def reply (v : Byte) (s : State) : State := { s with replies := s.replies ++ [v] }

/-- `raise Fault(code)`: `Faulted` is set and nothing is rolled back (R13, R141). Log 4. -/
def raise (code : FaultCode) (s : State) : State := { s with faulted := some code }

/-- An operation that goes on as `k` unless the block is stuck in a fault (R141, R144). -/
def live (s : State) (k : Host.Outcome State Fault Refusal) : Host.Outcome State Fault Refusal :=
  match s.faulted with
  | some code => .fault (.stuck code)
  | none => k

/-- A host operation that a frame in flight turns into the fault `code` (R136, R144). -/
def betweenFrames (s : State) (code : FaultCode) (k : State) : Host.Outcome State Fault Refusal :=
  live s (.next (if s.inFrame then raise code s else k))

/-! ### What the outside supplies -/

/-- The CPU engine's next instruction, and the state without it: the listed one, else a free draw
(R99, log 2). -/
def takeCpuInstr (s : State) : CpuInstr × State :=
  match s.cpu with
  | i :: rest => (i, { s with cpu := rest })
  | [] => (Config.freeCpuInstr s.cpuDraws, { s with cpuDraws := s.cpuDraws + 1 })

/-- The cycles of a CPU instruction: at least 1 and at most `MAX_OVERRUN`, "the CPU engine's largest
instruction cycle count" (R99, log 2). -/
def cyclesOf (c : Config) (i : CpuInstr) : Nat := max 1 (min i.cycles c.maxOverrun)

/-- What the next step has before it. -/
inductive Fetched where
  /-- A fault is recorded: there is no step (R141). -/
  | stuck (code : FaultCode)
  /-- No transaction is waiting. -/
  | idle
  /-- The waiting transaction belongs to no row. -/
  | noRow (e : DecodeError)
  /-- The operation of the waiting transaction, and the state without that transaction. -/
  | ready (i : Instr) (s : State)
deriving DecidableEq, Repr

/-- The next transaction the outside has issued, decoded (R79). Log 3. -/
def fetch (s : State) : Fetched :=
  match s.faulted with
  | some code => .stuck code
  | none =>
    match s.inbox with
    | [] => .idle
    | x :: rest =>
      match decode s.cfg x with
      | .error e => .noRow e
      | .ok i => .ready i { s with inbox := rest }

/-- The state with a transaction placed where `fetch` takes it next. -/
def withTransaction (x : Transaction) (s : State) : State := { s with inbox := x :: s.inbox }

end Sys2Proof.Machine
end

