-- ==== Sys2Proof/Machine/Lifecycle.lean ====
section
/-! DEFINITION. Construction (R11, R20, R161), the power operations (45_host.md R130, R131) and the
host's inputs to the decoder (44_ports_keyboard.md R126 to R128). -/

namespace Sys2Proof.Machine

/-- The block as constructed with configuration `c`, before the first POWER_RAISE (R20, R161). The
elements the spec leaves unspecified are taken from `u`, which is any state (log 9); a configuration
that R11 refuses is recorded as CONFIG_INVALID. -/
def construct (c : Config) (u : State) : State :=
  { u with
    cfg := c
    inFrame := false
    powered := false
    faulted := c.firstBroken.map FaultCode.configInvalid
    pressed := []
    mem := u.mem.filter fun p => decide (c.romEnd ≤ p.1)
    trace := []
    published := none
    replies := []
    cpu := []
    cpuDraws := 0
    inbox := [] }

/-- The writes of POWER_RAISE (R130). Memory with nothing listed is `ROM` = `ROM_IMAGE` and `RAM` all
`RAM_RESET_FILL`, and a framebuffer with nothing listed is all 0 (log 7). -/
def powerRaise (s : State) : State :=
  { s with
    lineCounter := 0
    nmiEnabled := false
    borderColor := BitVec.ofNat 3 s.cfg.borderDefault
    flash := false
    mic := false
    ear := false
    t := 0
    budget := 0
    frameCycles := 0
    nextLine := 0
    fb := []
    mem := []
    powered := true }

/-- POWER_RAISE (R130). -/
def execPowerRaise (s : State) : Host.Outcome State Fault Refusal :=
  betweenFrames s (.frameInFlight .powerRaise) (powerRaise s)

/-- POWER_LOWER (R131). -/
def execPowerLower (s : State) : Host.Outcome State Fault Refusal :=
  betweenFrames s (.frameInFlight .powerLower) { s with powered := false }

/-- KEY_DOWN (R127). -/
def execKeyDown (k : RawKey) (s : State) : Host.Outcome State Fault Refusal :=
  betweenFrames s (.hostInFrame (.keyDown k)) { s with pressed := keyInsert k s.pressed }

/-- KEY_UP (R128). -/
def execKeyUp (k : RawKey) (s : State) : Host.Outcome State Fault Refusal :=
  betweenFrames s (.hostInFrame (.keyUp k)) { s with pressed := keyRemove k s.pressed }

/-- SET_EAR (R126). -/
def execSetEar (b : Bool) (s : State) : Host.Outcome State Fault Refusal :=
  betweenFrames s (.hostInFrame (.setEar b)) { s with ear := b }

end Sys2Proof.Machine
end

