-- ==== Sys2Proof/Machine/Operands.lean ====
section
/-! DEFINITION. The operand forms: the memory mapper (20_memory.md R49 to R56), the keyboard columns
and the byte of an even-port read (R122, R123), and the colour of a segment's pixel (R83). -/

namespace Sys2Proof.Machine

/-! ### The memory mapper -/

/-- `Normalise(a, phase)` (R49). -/
def normalise (a : Addr) (phase : Phase) : Addr :=
  if a.getLsbD 15 = true ∧ phase = .m1 then a &&& Config.m1Mask else a

/-- The regions of R47. -/
inductive Region where
  | rom
  | ram
  | unused
deriving DecidableEq, Repr

/-- The access levels of R47. -/
inductive Access where
  | readOnly
  | readWrite
deriving DecidableEq, Repr

/-- "(region, base offset, size mask, access level)" (R51). -/
structure Descriptor where
  region : Region
  base : Addr
  mask : Addr
  access : Access
deriving DecidableEq, Repr

/-- `DESC_ROM` (R51). -/
def descRom : Descriptor := ⟨.rom, 0x0000, 0x1FFF, .readOnly⟩

/-- `DESC_RAM` (R51). -/
def descRam : Descriptor := ⟨.ram, 0x2000, 0x3FFF, .readWrite⟩

/-- `DESC_UNUSED` (R51). -/
def descUnused : Descriptor := ⟨.unused, 0x6000, 0xFFFF, .readOnly⟩

/-- `Map(a, phase)` (R50). -/
def mapAddr (c : Config) (a : Addr) (phase : Phase) : Descriptor :=
  let a' := normalise a phase
  if a'.toNat < c.romEnd then descRom
  else if a'.toNat < c.ramEnd then descRam
  else descUnused

/-- `(a' - d.base) & d.mask` (R52). -/
def regionOffset (d : Descriptor) (a' : Addr) : Nat := ((a' - d.base) &&& d.mask).toNat

/-- `RegionRead(d, off)` (R56). -/
def regionRead (d : Descriptor) (off : Nat) (s : State) : Byte :=
  match d.region with
  | .rom => romByte s off
  | .ram => ramByte s off
  | .unused => Config.unusedFill

/-- `RegionWrite(d, off, v)` (R56): a region that is not ReadWrite discards the write (R54). -/
def regionWrite (d : Descriptor) (off : Nat) (v : Byte) (s : State) : State :=
  match d.access with
  | .readWrite => ramPut off v s
  | .readOnly => s

/-- `MemRead(a, 1, phase)` (R115). -/
def memByte (a : Addr) (phase : Phase) (s : State) : Byte :=
  let d := mapAddr s.cfg a phase
  regionRead d (regionOffset d (normalise a phase)) s

/-- `MemWrite(a, 1, v)` (R117). -/
def memStore (a : Addr) (v : Byte) (s : State) : State :=
  let d := mapAddr s.cfg a .data
  regionWrite d (regionOffset d a) v s

/-! ### The even-port read -/

/-- `KEY_ROWS[row]`, looked up by the exact byte (R71). -/
def keyRow (c : Config) (row : Byte) : Option (List RawKey) := c.keyRows.lookup row

/-- Column `i` of a row: bit `i` set unless its key is pressed (R122). -/
def columnBit (keys pressed : List RawKey) (i : Nat) : BitVec 5 :=
  match keys[i]? with
  | some k => if k ∈ pressed then 0 else 1#5 <<< i
  | none => 1#5 <<< i

/-- `KeyColumns(row)` (R122). -/
def keyColumns (row : Byte) (s : State) : BitVec 5 :=
  match keyRow s.cfg row with
  | none => 0b11111
  | some keys =>
    columnBit keys s.pressed 0 ||| columnBit keys s.pressed 1 ||| columnBit keys s.pressed 2
      ||| columnBit keys s.pressed 3 ||| columnBit keys s.pressed 4

/-- A flag as bit `i` of a byte. -/
def flagBit (b : Bool) (i : Nat) : Byte := (if b then 1#8 else 0#8) <<< i

/-- `ReadValue(row)` (R67, R123). -/
def readValue (row : Byte) (s : State) : Byte :=
  (keyColumns row s).setWidth 8 ||| flagBit Config.readBit5 5 ||| flagBit Config.readBit6 6
    ||| flagBit s.ear 7

/-! ### Colours -/

/-- The border field `D[2:0]` of a port write (R68). -/
def borderField (d : Byte) : Colour := d.extractLsb' 0 3

/-- The colour source of a segment (R83). -/
inductive Source where
  | border
  | fill
deriving DecidableEq, Repr

/-- The colour a segment's next pixel takes, read from the state as it is then (R83). -/
def sourceColour (src : Source) (s : State) : Colour :=
  match src with
  | .border => s.borderColor
  | .fill => BitVec.ofNat 3 s.cfg.activeFill

end Sys2Proof.Machine
end

