-- ==== Sys2Proof/Machine/Interrupts.lean ====
section
/-! DEFINITION. The interrupt outputs (42_interrupts.md R106 to R108). -/

namespace Sys2Proof.Machine

/-- NMI_PULSE (R106). -/
def nmiPulse (s : State) : State := emit .nmiLower s

/-- INSTR_DONE(R) (R107). -/
def instrDone (r : Byte) (s : State) : State :=
  if r &&& Config.intRMask = 0 then emit .intLower s else s

/-- INSTR_PRE (R108). -/
def instrPre (s : State) : State := s

/-- NMI_PULSE (R106). -/
def execNmiPulse (s : State) : Host.Outcome State Fault Refusal := live s (.next (nmiPulse s))

/-- INSTR_DONE_INT (R107). -/
def execInstrDoneInt (bit7 : BitVec 1) (low : BitVec 6) (s : State) :
    Host.Outcome State Fault Refusal :=
  live s (.next (instrDone (refreshValue bit7 0#1 low) s))

/-- INSTR_DONE_NOINT (R107). -/
def execInstrDoneNoint (bit7 : BitVec 1) (low : BitVec 6) (s : State) :
    Host.Outcome State Fault Refusal :=
  live s (.next (instrDone (refreshValue bit7 1#1 low) s))

/-- INSTR_PRE (R108). -/
def execInstrPre (s : State) : Host.Outcome State Fault Refusal := live s (.next (instrPre s))

end Sys2Proof.Machine
end

