-- ==== Sys2Proof/Machine/MemoryBus.lean ====
section
/-! DEFINITION. The memory transactions the CPU engine issues (43_memory_bus.md R115 to R117) and
the loader's write (R119). -/

namespace Sys2Proof.Machine

/-- A memory read of either phase: the byte goes back to the CPU engine, nothing else changes (R115,
R116, R59). -/
def memRead (a : Addr) (phase : Phase) (s : State) : State := reply (memByte a phase s) s

/-- The effect of SNAPSHOT_WRITE once no frame is in flight (R119). -/
def loadByte (region : LoadRegion) (off : Nat) (v : Byte) (s : State) : State :=
  match region with
  | .rom => if s.cfg.romEnd ≤ off then raise (.snapshotRange .rom off) s else romPut off v s
  | .ram =>
    if s.cfg.ramEnd - s.cfg.romEnd ≤ off then raise (.snapshotRange .ram off) s else ramPut off v s

/-- MEM_FETCH_DIRECT (R116). -/
def execMemFetchDirect (a : BitVec 15) (s : State) : Host.Outcome State Fault Refusal :=
  live s (.next (memRead (directAddr a) .m1 s))

/-- MEM_FETCH_MIRROR (R116). -/
def execMemFetchMirror (bit14 : BitVec 1) (a : BitVec 14) (s : State) :
    Host.Outcome State Fault Refusal :=
  live s (.next (memRead (mirrorAddr bit14 a) .m1 s))

/-- MEM_READ (R115). -/
def execMemRead (a : Addr) (s : State) : Host.Outcome State Fault Refusal :=
  live s (.next (memRead a .data s))

/-- MEM_WRITE (R117). -/
def execMemWrite (a : Addr) (d : Byte) (s : State) : Host.Outcome State Fault Refusal :=
  live s (.next (memStore a d s))

/-- SNAPSHOT_WRITE (R119). -/
def execSnapshotWrite (region : LoadRegion) (off : Nat) (v : Byte) (s : State) :
    Host.Outcome State Fault Refusal :=
  betweenFrames s (.hostInFrame (.snapshotWrite region off v)) (loadByte region off v s)

end Sys2Proof.Machine
end

