-- ==== Sys2Proof/Machine/Flags.lean ====
section
/-! DEFINITION. The flag computations: what a port access does to `NmiEnabled`, `Mic` and `Ear` and
to the line counter that goes with them (R124, R125, R105). -/

namespace Sys2Proof.Machine

/-- `NmiEnabled` after a port write to port number `port` (R68, R105). -/
def nmiAfterWrite (c : Config) (port : Byte) (nmi : Bool) : Bool :=
  if port = c.nmiOffPort then false
  else if port = c.nmiOnPort then true
  else nmi

/-- `ReadSideEffect` (R124). -/
def readSideEffect (s : State) : State :=
  if s.nmiEnabled then s else { s with ear := false, lineCounter := 0 }

/-- The effects of PORT_WRITE (R125). -/
def portWriteEffect (port d : Byte) (s : State) : State :=
  { s with
    nmiEnabled := nmiAfterWrite s.cfg port s.nmiEnabled
    mic := true
    lineCounter := 0
    borderColor := borderField d }

end Sys2Proof.Machine
end

