-- ==== Sys2Proof/Machine/Ports.lean ====
section
/-! DEFINITION. The port transactions (44_ports_keyboard.md R120, R121, R125). -/

namespace Sys2Proof.Machine

/-- PORT_READ with `A[0]` = 0: the value is composed from the state before the read, then the side
effect happens (R120). -/
def portReadEven (row : Byte) (s : State) : State :=
  readSideEffect (reply (readValue row s) s)

/-- PORT_READ with `A[0]` = 1 (R121). -/
def portReadOdd (s : State) : State := reply Config.oddPortValue s

/-- PORT_WRITE (R125). -/
def portWrite (port d : Byte) (s : State) : State := portWriteEffect port d s

/-- PORT_READ_EVEN (R120). -/
def execPortReadEven (row : Byte) (s : State) : Host.Outcome State Fault Refusal :=
  live s (.next (portReadEven row s))

/-- PORT_READ_ODD (R121). -/
def execPortReadOdd (s : State) : Host.Outcome State Fault Refusal :=
  live s (.next (portReadOdd s))

/-- PORT_WRITE_NMI_OFF (R125). -/
def execPortWriteNmiOff (d : Byte) (s : State) : Host.Outcome State Fault Refusal :=
  live s (.next (portWrite s.cfg.nmiOffPort d s))

/-- PORT_WRITE_NMI_ON (R125). -/
def execPortWriteNmiOn (d : Byte) (s : State) : Host.Outcome State Fault Refusal :=
  live s (.next (portWrite s.cfg.nmiOnPort d s))

/-- PORT_WRITE_OTHER (R125). -/
def execPortWriteOther (port d : Byte) (s : State) : Host.Outcome State Fault Refusal :=
  live s (.next (portWrite port d s))

end Sys2Proof.Machine
end

