-- ==== Sys2Proof/Machine/Clock.lean ====
section
/-! DEFINITION. The block's answers inside a CPU run (41_clock.md R100), the CPU engine's run by its
contract (R99), the budget loop PROCEED (R97) and the Clock Accumulator's TICK (R95). -/

namespace Sys2Proof.Machine

/-- The block's answer to one transaction of the CPU engine (R100), its row picked as in R79. -/
def answer (s : State) : CpuTxn → State
  | .pr a => if a.getLsbD 0 then portReadOdd s else portReadEven (rowOf a) s
  | .pw a d => portWrite (portOf a) d s
  | .mr a phase => memRead a phase s
  | .mw a d => memStore a d s
  | .id r => instrDone r s
  | .ip => instrPre s

/-- The answers to an instruction's transactions, in order (R99, R100). -/
def answerAll (txns : List CpuTxn) (s : State) : State := txns.foldl answer s

/-- The loop of `CPU.run(b)`: whole instructions until `b` cycles are done, with `done` the cycles so
far. Every instruction takes a cycle, so `b` units of fuel are never used up before that (R99). -/
def cpuLoop (b : Nat) : (fuel done : Nat) → State → Nat × State
  | 0, done, s => (done, s)
  | fuel + 1, done, s =>
    let p := takeCpuInstr s
    let s' := answerAll p.1.txns p.2
    let done' := done + cyclesOf s.cfg p.1
    if b ≤ done' then (done', s') else cpuLoop b fuel done' s'

/-- `CPU.run(b)`: the cycles executed and the state after (R99). -/
def cpuRun (b : Nat) (s : State) : Nat × State := cpuLoop b b 0 s

/-- The first half of PROCEED(n): the event, the frame's count and the budget (R97). -/
def requestCycles (n : Nat) (s : State) : State :=
  { emit (.proceed n) s with
    frameCycles := s.frameCycles + n
    budget := s.budget + (n : Int) }

/-- The end of a CPU run that executed `e` cycles on the budget `b`: the event, and the excess
carried as a negative budget (R97). -/
def endRun (b e : Nat) (s : State) : State :=
  { emit (.run b e) s with budget := (b : Int) - (e : Int) }

/-- The second half of PROCEED: the CPU runs only on a positive budget (R97). -/
def spendBudget (s : State) : State :=
  if 0 < s.budget then
    let b := s.budget.toNat
    let p := cpuRun b s
    endRun b p.1 p.2
  else s

/-- PROCEED(n) (R97). -/
def proceed (n : Nat) (s : State) : State := spendBudget (requestCycles n s)

/-- `T <- T + n`, the first line of TICK (R95). -/
def addTicks (n : Nat) (s : State) : State := { s with t := s.t + n }

/-- TICK(n), at the fixed ratio of two ticks to a cycle (R7, R95). -/
def tick (n : Nat) (s : State) : State :=
  let s1 := addTicks n s
  let c := s1.t / 2
  if 1 ≤ c then
    let s2 := proceed c s1
    { s2 with t := s2.t - 2 * c }
  else s1

/-- TICK (R95). -/
def execTick (n : Nat) (s : State) : Host.Outcome State Fault Refusal := live s (.next (tick n s))

/-- PROCEED (R97). -/
def execProceed (n : Nat) (s : State) : Host.Outcome State Fault Refusal :=
  live s (.next (proceed n s))

end Sys2Proof.Machine
end

