-- ==== Sys2Proof/Machine/Raster.lean ====
section
/-! DEFINITION. The raster generator and the frame sequencer (40_raster.md R80 to R90). -/

namespace Sys2Proof.Machine

/-- PIXEL(x, c): the cell is written, then one tick is added (R82). -/
def pixel (x : Nat) (col : Colour) (s : State) : State :=
  tick 1 (fbPut (cellIndex s.cfg s.nextLine x) col s)

/-- SEGMENT(x0, n, src): the colour is read again for every pixel (R83). -/
def drawSegment (src : Source) : (x0 n : Nat) → State → State
  | _, 0, s => s
  | x0, n + 1, s => drawSegment src (x0 + 1) n (pixel x0 (sourceColour src s) s)

/-- RETRACE_LINE (R84). -/
def retraceLine (s : State) : State := tick (rasterWidth s.cfg) s

/-- BORDER_LINE (R85, R87). -/
def borderLine (s : State) : State := drawSegment .border 0 (rasterWidth s.cfg) s

/-- ACTIVE_LINE (R86). -/
def activeLine (s : State) : State :=
  let c := s.cfg
  drawSegment .border (c.leftBorderPx + c.activePx) c.rightBorderPx
    (drawSegment .fill c.leftBorderPx c.activePx
      (drawSegment .border 0 c.leftBorderPx s))

/-- The band part of a line (R81, R84 to R88). -/
def bandPart (b : Band) (s : State) : State :=
  match b with
  | .retrace => retraceLine s
  | .upper => borderLine s
  | .active => activeLine s
  | .lower => borderLine s
  | .trailing => s

/-- The NMI pulse of a line, if it is enabled at the line's tail (R89, R106). -/
def pulseIfEnabled (s : State) : State := if s.nmiEnabled then nmiPulse s else s

/-- `LineCounter <- (LineCounter + 1) mod 2^16` (R22, R89). -/
def countLine (s : State) : State := { s with lineCounter := s.lineCounter + 1 }

/-- LINE_TAIL: the pulse, then the count, then the ticks (R89). -/
def lineTail (s : State) : State := tick s.cfg.hretraceTicks (countLine (pulseIfEnabled s))

/-- `NextLine <- y` (R13). -/
def setNextLine (y : Nat) (s : State) : State := { s with nextLine := y }

/-- RENDER_LINE(y) (R81): out of order it raises RENDER_ORDER, else the band part, the tail and the
advance of NextLine. -/
def renderLine (y : Nat) (s : State) : State :=
  if s.inFrame = false ∨ y ≠ s.nextLine ∨ s.cfg.totalHeight ≤ y then
    raise (.renderOrder y s.nextLine) s
  else
    setNextLine (y + 1) (lineTail (bandPart (bandOf s.cfg y) s))

/-- RENDER_LINE(y), ..., RENDER_LINE(y + n - 1); a fault ends the loop (R80, R141). -/
def renderLines : (n y : Nat) → State → State
  | 0, _, s => s
  | n + 1, y, s =>
    let s' := renderLine y s
    if s'.faulted.isSome then s' else renderLines n (y + 1) s'

/-- PUBLISH (R90, R134). -/
def publish (s : State) : State := { emit .publish s with published := some s.fb }

/-- FRAME's set-up (R80). -/
def beginFrame (s : State) : State := { s with inFrame := true, frameCycles := 0, nextLine := 0 }

/-- FRAME's last line, `InFrame <- false` (R80). -/
def endFrame (s : State) : State := { s with inFrame := false }

/-- The body of FRAME once it is admitted (R80); a fault inside it would end it there (R141). -/
def frameBody (s : State) : State :=
  let s1 := renderLines s.cfg.totalHeight 0 (beginFrame s)
  if s1.faulted.isSome then s1 else endFrame (publish s1)

/-- FRAME (R80, R144: NOT_POWERED is checked first). -/
def execFrame (s : State) : Host.Outcome State Fault Refusal :=
  live s (.next
    (if s.powered = false then raise (.notPowered .frame) s
     else if s.inFrame then raise (.frameInFlight .frame) s
     else frameBody s))

/-- A RENDER_LINE row of the table: RENDER_LINE(y) where the row's band is `Band(y)` (R79, R81). -/
def renderLineAs (b : Band) (y : Nat) (s : State) : Host.Outcome State Fault Refusal :=
  live s (if bandOf s.cfg y = b then .next (renderLine y s) else .refused (.bandMismatch y))

/-- RENDER_LINE_RETRACE (R81, R84). -/
def execRenderLineRetrace (y : Nat) (s : State) : Host.Outcome State Fault Refusal :=
  renderLineAs .retrace y s

/-- RENDER_LINE_UPPER (R81, R85). -/
def execRenderLineUpper (y : Nat) (s : State) : Host.Outcome State Fault Refusal :=
  renderLineAs .upper y s

/-- RENDER_LINE_ACTIVE (R81, R86). -/
def execRenderLineActive (y : Nat) (s : State) : Host.Outcome State Fault Refusal :=
  renderLineAs .active y s

/-- RENDER_LINE_LOWER (R81, R87). -/
def execRenderLineLower (y : Nat) (s : State) : Host.Outcome State Fault Refusal :=
  renderLineAs .lower y s

/-- RENDER_LINE_TRAILING (R81, R88). -/
def execRenderLineTrailing (y : Nat) (s : State) : Host.Outcome State Fault Refusal :=
  renderLineAs .trailing y s

/-- Column `x` of line `y` is a cell of the framebuffer (R82: `0 <= r < RASTER_HEIGHT`, `x <
RASTER_WIDTH`). -/
def inRaster (c : Config) (y x : Nat) : Bool :=
  decide (c.vretraceLines ≤ y ∧ y - c.vretraceLines < rasterHeight c ∧ x < rasterWidth c)

/-- PIXEL (R82). -/
def execPixel (x : Nat) (col : Colour) (s : State) : Host.Outcome State Fault Refusal :=
  live s (if inRaster s.cfg s.nextLine x then .next (pixel x col s)
    else .refused (.pixelOutsideRaster x))

/-- LINE_TAIL (R89). -/
def execLineTail (s : State) : Host.Outcome State Fault Refusal := live s (.next (lineTail s))

/-- PUBLISH (R90). -/
def execPublish (s : State) : Host.Outcome State Fault Refusal := live s (.next (publish s))

end Sys2Proof.Machine
end

