-- ==== Sys2Proof/Machine/Dispatch.lean ====
section
/-! DEFINITION. The meaning of every operation, one arm per row of spec/opcode_table.json. -/

namespace Sys2Proof.Machine

open Sys2Proof

def exec (i : Instr) (s : State) : Host.Outcome State Fault Refusal :=
  match i with
  | .portReadEven row _ => Sys2Proof.Machine.execPortReadEven row s
  | .portReadOdd _ => Sys2Proof.Machine.execPortReadOdd s
  | .portWriteNmiOff _ d => Sys2Proof.Machine.execPortWriteNmiOff d s
  | .portWriteNmiOn _ d => Sys2Proof.Machine.execPortWriteNmiOn d s
  | .portWriteOther _ port d => Sys2Proof.Machine.execPortWriteOther port d s
  | .memFetchDirect a => Sys2Proof.Machine.execMemFetchDirect a s
  | .memFetchMirror bit14 a => Sys2Proof.Machine.execMemFetchMirror bit14 a s
  | .memRead a => Sys2Proof.Machine.execMemRead a s
  | .memWrite a d => Sys2Proof.Machine.execMemWrite a d s
  | .instrDoneInt bit7 low => Sys2Proof.Machine.execInstrDoneInt bit7 low s
  | .instrDoneNoint bit7 low => Sys2Proof.Machine.execInstrDoneNoint bit7 low s
  | .instrPre => Sys2Proof.Machine.execInstrPre s
  | .frame => Sys2Proof.Machine.execFrame s
  | .renderLineRetrace y => Sys2Proof.Machine.execRenderLineRetrace y s
  | .renderLineUpper y => Sys2Proof.Machine.execRenderLineUpper y s
  | .renderLineActive y => Sys2Proof.Machine.execRenderLineActive y s
  | .renderLineLower y => Sys2Proof.Machine.execRenderLineLower y s
  | .renderLineTrailing y => Sys2Proof.Machine.execRenderLineTrailing y s
  | .pixel x c => Sys2Proof.Machine.execPixel x c s
  | .lineTail => Sys2Proof.Machine.execLineTail s
  | .nmiPulse => Sys2Proof.Machine.execNmiPulse s
  | .tick n => Sys2Proof.Machine.execTick n s
  | .proceed n => Sys2Proof.Machine.execProceed n s
  | .publish => Sys2Proof.Machine.execPublish s
  | .powerRaise => Sys2Proof.Machine.execPowerRaise s
  | .powerLower => Sys2Proof.Machine.execPowerLower s
  | .keyDown k => Sys2Proof.Machine.execKeyDown k s
  | .keyUp k => Sys2Proof.Machine.execKeyUp k s
  | .setEar b => Sys2Proof.Machine.execSetEar b s
  | .snapshotWrite region off v => Sys2Proof.Machine.execSnapshotWrite region off v s

end Sys2Proof.Machine
end

