-- ==== Sys2Proof/Machine/Step.lean ====
section
/-! DEFINITION. One step: the operation of the next transaction the outside has issued, or nothing
where none is waiting (log 3). -/

namespace Sys2Proof.Machine

/-- One step. In a faulted state there is none (R141); with no transaction waiting the block changes
nothing (R132); else the waiting transaction is taken, decoded (R79) and performed. -/
def step (s : State) : Host.Outcome State Fault Refusal :=
  match fetch s with
  | .stuck code => .fault (.stuck code)
  | .idle => .next s
  | .noRow e => .refused (.noRow e)
  | .ready i s' => exec i s'

/-- `s` with the transaction that a bare bit pattern of the opcode table is read as (log 13) placed
where the next step takes it. -/
def State.withFetchWord (s : State) (nbits w : Nat) : State :=
  withTransaction (.cpu (tableTransaction nbits w)) s

end Sys2Proof.Machine
end

