-- ==== Sys2Proof/Safety.lean ====
section
/-! DEFINITION. The terms claims are stated in: a run and when it has ended well (R138), the clean-entry
premise (R139), the invariant of the machine, what an operation that may run the CPU leaves alone,
and sums and counts over the trace. -/

namespace Sys2Proof.Machine

/-- The outcome of `n` steps from `s`, or of the first of them that gives no next state. -/
def steps : Nat → State → Host.Outcome State Fault Refusal
  | 0, s => .next s
  | n + 1, s =>
    match step s with
    | .next t => steps n t
    | stop => stop

/-- The block just constructed (R20, R161), with the host operations `ops` waiting and the CPU engine
about to execute the instructions `cpu`. -/
def runStart (c : Config) (u : State) (cpu : List CpuInstr) (ops : List HostOp) : State :=
  { construct c u with cpu := cpu, inbox := ops.map Transaction.host }

/-- A run (R138): the host operations `ops`, one step each, from the construction state (log 3). -/
def hostRun (c : Config) (u : State) (cpu : List CpuInstr) (ops : List HostOp) :
    Host.Outcome State Fault Refusal := steps ops.length (runStart c u cpu ops)

/-- A run that has come to `s` has ended well (R138): the last host operation has completed, so that
none is waiting, outside a frame and without a fault. -/
def endedWell (s : State) : Bool := s.inbox.isEmpty && !s.inFrame && s.faulted.isNone

/-- The clean-entry premise of a claim about a frame (R139). -/
structure CleanEntry (s : State) : Prop where
  admitted : s.cfg.admitted = true
  faulted : s.faulted = none
  powered : s.powered = true
  inFrame : s.inFrame = false
  tickRest : s.t ≤ 1
  budgetLow : -(s.cfg.maxOverrun : Int) < s.budget
  budgetHigh : s.budget ≤ 0

/-- An event that the block can emit (R36): a PROCEED of at least one cycle, and a RUN with a budget
of at least one that the CPU engine answers by its contract (R99). -/
def Event.legal (maxOverrun : Nat) : Event → Bool
  | .proceed n => decide (1 ≤ n)
  | .run b e => decide (1 ≤ b ∧ b ≤ e ∧ e < b + maxOverrun)
  | .nmiLower | .intLower | .publish => true

/-- The invariant of the machine: an admitted configuration (R11), the rest values of the counters
(R98, R103), NextLine's range (R20), the canonical forms of memory, framebuffer, snapshot and press
set (log 7), and a trace of events the block can emit (R36). -/
structure MachineInv (s : State) : Prop where
  admitted : s.cfg.admitted = true
  tickRest : s.t ≤ 1
  budgetLow : -(s.cfg.maxOverrun : Int) < s.budget
  budgetHigh : s.budget ≤ 0
  nextLine : s.nextLine ≤ s.cfg.totalHeight
  mem : Memory.wf s.cfg s.mem = true
  fb : fbWf s.cfg s.fb = true
  published : ∀ m, s.published = some m → fbWf s.cfg m = true
  pressed : keysWf s.pressed = true
  trace : ∀ e ∈ s.trace, e.legal s.cfg.maxOverrun = true

/-- What an operation that may run the CPU leaves alone, beside what its own rule changes: the
configuration, `Flash`, the position and the lifecycle, the press set, the snapshot, what is waiting
outside, every ROM byte, and what the trace and the replies already hold (R100, R38, R34, R27). -/
structure CpuFrame (s s' : State) : Prop where
  cfg : s'.cfg = s.cfg
  flash : s'.flash = s.flash
  inFrame : s'.inFrame = s.inFrame
  powered : s'.powered = s.powered
  faulted : s'.faulted = s.faulted
  pressed : s'.pressed = s.pressed
  published : s'.published = s.published
  inbox : s'.inbox = s.inbox
  rom : ∀ off, off < ramBase → romByte s' off = romByte s off
  trace : s.trace <+: s'.trace
  replies : s.replies <+: s'.replies

/-- The cycles requested by the PROCEED events of a trace. -/
def requested : List Event → Nat
  | [] => 0
  | .proceed n :: es => n + requested es
  | _ :: es => requested es

/-- The cycles executed by the RUN events of a trace. -/
def executed : List Event → Nat
  | [] => 0
  | .run _ e :: es => e + executed es
  | _ :: es => executed es

/-- The NMI pulses of a trace. -/
def pulses (es : List Event) : Nat := es.countP (· = .nmiLower)

/-! ### The CPU engine's coming instructions (log 2) -/

/-- The instruction the CPU engine executes after `k` further ones: a listed one, else a free draw. -/
def cpuInstrAt (s : State) (k : Nat) : CpuInstr :=
  s.cpu.getD k (Config.freeCpuInstr (s.cpuDraws + (k - s.cpu.length)))

/-- The CPU engine's next `k` instructions, in order. -/
def upcoming (s : State) (k : Nat) : List CpuInstr := (List.range k).map (cpuInstrAt s)

/-- The state once the CPU engine has used its next `k` instructions up. -/
def afterTaking (k : Nat) (s : State) : State :=
  { s with cpu := s.cpu.drop k, cpuDraws := s.cpuDraws + (k - s.cpu.length) }

/-- The transactions of instructions, in order. -/
def txnsOf (is : List CpuInstr) : List CpuTxn := is.flatMap CpuInstr.txns

/-- The cycles that instructions take together. -/
def totalCycles (c : Config) (is : List CpuInstr) : Nat := (is.map (cyclesOf c)).sum

/-- The CPU instruction writes no port. -/
def noPortWrite (i : CpuInstr) : Bool :=
  i.txns.all fun x => match x with
    | .pw _ _ => false
    | _ => true

/-- The CPU instruction neither writes a port nor reads an even one. -/
def noPortReset (i : CpuInstr) : Bool :=
  i.txns.all fun x => match x with
    | .pw _ _ => false
    | .pr a => a.getLsbD 0
    | _ => true

/-- How a host operation stops: stuck in a faulted block, and the fault `code` in a frame (R136, R141,
R144). -/
def StopsInFrame (i : Instr) (code : FaultCode) : Prop :=
  ∀ s : State, (∀ c, s.faulted = some c → exec i s = .fault (.stuck c)) ∧
    (s.faulted = none → s.inFrame = true → exec i s = .next { s with faulted := some code })

/-- The operations inside which the CPU engine may run: those that reach PROCEED (R100, R104). -/
def runsCpu : Instr → Bool
  | .frame | .renderLineRetrace _ | .renderLineUpper _ | .renderLineActive _ | .renderLineLower _
  | .renderLineTrailing _ | .pixel _ _ | .lineTail | .tick _ | .proceed _ => true
  | .portReadEven _ _ | .portReadOdd _ | .portWriteNmiOff _ _ | .portWriteNmiOn _ _
  | .portWriteOther _ _ _ | .memFetchDirect _ | .memFetchMirror _ _ | .memRead _ | .memWrite _ _
  | .instrDoneInt _ _ | .instrDoneNoint _ _ | .instrPre | .nmiPulse | .publish | .powerRaise
  | .powerLower | .keyDown _ | .keyUp _ | .setEar _ | .snapshotWrite _ _ _ => false

/-- The listed CPU instructions are enough for `n` cycles, since every instruction takes at least
one: a run of at most `n` cycles draws no free instruction. -/
def scripted (s : State) (n : Nat) : Prop := n ≤ s.cpu.length

end Sys2Proof.Machine
end

