-- ==== Sys2Proof/Certificates/Slice0/Obligations.lean ====
section
/-! DEFINITION. The statements for the provers, each over every state that meets its premises. A
returned byte is the last of `replies` (log 5); a raised fault is a next state with `Faulted` written
(log 4). -/

open Sys2Proof Sys2Proof.Machine

/-! ### Ports and keyboard -/

/-- R120 with R124: an even-port read returns the byte composed from the state before it and then,
only while NMI is disabled, clears `Ear` and `LineCounter`; everything else is unchanged. -/
def Obligations.EvenPortReadAnswersThenResets : Prop :=
  ∀ (s : State) (row : Byte) (low : BitVec 7), s.faulted = none →
    exec (.portReadEven row low) s = .next { s with
      replies := s.replies ++ [readValue row s]
      ear := if s.nmiEnabled then s.ear else false
      lineCounter := if s.nmiEnabled then s.lineCounter else 0 }

/-- R67, R123: the layout of the byte of an even-port read. -/
def Obligations.EvenPortReadByteLayout : Prop :=
  ∀ (s : State) (row : Byte) (i : Nat), i < 8 →
    (readValue row s).getLsbD i
      = if i < 5 then (keyColumns row s).getLsbD i else if i < 7 then true else s.ear

/-- R122: the five columns of a row, active low, and all ones for a row that is not mapped. -/
def Obligations.KeyColumnsAreActiveLow : Prop :=
  ∀ (s : State) (row : Byte),
    (keyRow s.cfg row = none → keyColumns row s = 0b11111#5) ∧
    (∀ keys : List RawKey, keyRow s.cfg row = some keys → keys.length = 5 → ∀ i, i < 5 →
      (keyColumns row s).getLsbD i = !decide (keys.getD i 0 ∈ s.pressed))

/-- The eight row selects, looked up by the exact byte, every other one reading as five ones whatever
is pressed (30_encoding.md R71); and the one row the source itself gives, 0xF7 with the keys 1 to 5
(00_scope.md R10, 44_ports_keyboard.md R129), where a key's number is the model's choice (log 8). -/
def Obligations.OnlyEightRowSelectsAreMapped : Prop :=
  ∀ (s : State) (row : Byte), s.cfg.keyRows = Config.keyRowsStandard →
    ((keyRow s.cfg row).isSome = true ↔
      row ∈ [0xFE#8, 0xFD#8, 0xFB#8, 0xF7#8, 0xEF#8, 0xDF#8, 0xBF#8, 0x7F#8]) ∧
    (row ∉ [0xFE#8, 0xFD#8, 0xFB#8, 0xF7#8, 0xEF#8, 0xDF#8, 0xBF#8, 0x7F#8] →
      keyColumns row s = 0b11111#5) ∧
    keyRow s.cfg 0xF7 = some [1, 2, 3, 4, 5]

/-- R121: an odd-port read returns 0xFF and changes nothing. -/
def Obligations.OddPortReadReturnsOnes : Prop :=
  ∀ (s : State) (high : BitVec 15), s.faulted = none →
    exec (.portReadOdd high) s = .next { s with replies := s.replies ++ [0xFF#8] }

/-- R125: the three port writes. Every one sets `Mic`, resets `LineCounter` and takes the border from
`D[2:0]`; the two NMI ports set the NMI flag, any other port leaves it. -/
def Obligations.PortWriteEffects : Prop :=
  ∀ (s : State) (high port d : Byte), s.faulted = none →
    (exec (.portWriteNmiOff high d) s = .next { s with
      nmiEnabled := false, mic := true, lineCounter := 0, borderColor := d.extractLsb' 0 3 }) ∧
    (s.cfg.nmiOnPort ≠ s.cfg.nmiOffPort → exec (.portWriteNmiOn high d) s = .next { s with
      nmiEnabled := true, mic := true, lineCounter := 0, borderColor := d.extractLsb' 0 3 }) ∧
    (port ≠ s.cfg.nmiOffPort → port ≠ s.cfg.nmiOnPort →
      exec (.portWriteOther high port d) s = .next { s with
        mic := true, lineCounter := 0, borderColor := d.extractLsb' 0 3 })

/-- R23: outside a CPU run only the two NMI port writes and POWER_RAISE (which a frame in flight
turns into a fault) write the NMI flag. -/
def Obligations.NmiFlagWrittenOnlyByItsPortsAndReset : Prop :=
  ∀ (i : Instr) (s t : State), runsCpu i = false → i.wellFormed s.cfg = true →
    exec i s = .next t →
    t.nmiEnabled = match i with
      | .portWriteNmiOff _ _ => false
      | .portWriteNmiOn _ _ => true
      | .powerRaise => s.inFrame && s.nmiEnabled
      | _ => s.nmiEnabled

/-! ### Memory -/

/-- R49 and R50 with R51: an opcode fetch with bit 15 set loses its two top bits, any other access
keeps them, and the descriptor goes by the address that is left. -/
def Obligations.MapperNormalisesThenClassifies : Prop :=
  ∀ (c : Config) (a : Addr) (phase : Phase), c.admitted = true →
    (normalise a phase).toNat
      = (if 0x8000 ≤ a.toNat ∧ phase = .m1 then a.toNat % 0x4000 else a.toNat) ∧
    mapAddr c a phase
      = if (normalise a phase).toNat < 0x2000 then ⟨.rom, 0x0000, 0x1FFF, .readOnly⟩
        else if (normalise a phase).toNat < 0x6000 then ⟨.ram, 0x2000, 0x3FFF, .readWrite⟩
        else ⟨.unused, 0x6000, 0xFFFF, .readOnly⟩

/-- The effective view of the two phases, which 20_memory.md R55 marks as its own inference
("[derived: from rule R49, rule R50, rule R52 and rule R54]"). -/
def Obligations.EffectiveViewOfReads : Prop :=
  ∀ (s : State) (a : Addr), s.cfg.admitted = true →
    (memByte a .data s
      = if a.toNat < 0x2000 then romByte s a.toNat
        else if a.toNat < 0x6000 then ramByte s (a.toNat - 0x2000) else 0xFF) ∧
    (memByte a .m1 s
      = if a.toNat < 0x2000 then romByte s a.toNat
        else if a.toNat < 0x6000 then ramByte s (a.toNat - 0x2000)
        else if a.toNat < 0x8000 then 0xFF
        else if a.toNat < 0xA000 then romByte s (a.toNat - 0x8000)
        else if a.toNat < 0xC000 then ramByte s (a.toNat - 0xA000)
        else if a.toNat < 0xE000 then romByte s (a.toNat - 0xC000)
        else ramByte s (a.toNat - 0xE000))

/-- R116 with R115: a data read returns the byte at its address, a direct fetch what a data read of
the same address returns, a mirrored fetch what a data read of `A & 0x3FFF` returns; nothing else
changes. -/
def Obligations.ReadsAndFetchesReturnTheByte : Prop :=
  ∀ s : State, s.faulted = none →
    (∀ a : Addr, exec (.memRead a) s
      = .next { s with replies := s.replies ++ [memByte a .data s] }) ∧
    (∀ a : BitVec 15, exec (.memFetchDirect a) s
      = .next { s with replies := s.replies ++ [memByte (a.setWidth 16) .data s] }) ∧
    (∀ (bit14 : BitVec 1) (a : BitVec 14), exec (.memFetchMirror bit14 a) s
      = .next { s with replies := s.replies ++ [memByte (a.setWidth 16) .data s] })

/-- R117 with R54: a write stores its byte at `RAM[a - 0x2000]` and nowhere else, and is discarded
outside RAM. -/
def Obligations.WriteStoresOnlyInRam : Prop :=
  ∀ (s : State) (a : Addr) (d : Byte), s.faulted = none → s.cfg.admitted = true →
    ∃ t, exec (.memWrite a d) s = .next t ∧ t = { s with mem := t.mem } ∧
      (a.toNat < 0x2000 ∨ 0x6000 ≤ a.toNat → t = s) ∧
      (∀ off, off < 0x2000 → romByte t off = romByte s off) ∧
      (∀ off, off < 0x4000 →
        ramByte t off = if a.toNat = 0x2000 + off then d else ramByte s off)

/-- A store is seen by the very next read and fetch of its byte, the mirror included, and by no
other: 20_memory.md R63 marks it as derived from rules R54, R55 and R60. -/
def Obligations.StoreSeenAtOnceByReadsAndFetches : Prop :=
  ∀ (s t : State) (a : Addr) (d : Byte), s.cfg.admitted = true →
    exec (.memWrite a d) s = .next t →
    ∀ (b : Addr) (phase : Phase), memByte b phase t
      = if 0x2000 ≤ a.toNat ∧ a.toNat < 0x6000 ∧ normalise b phase = a then d
        else memByte b phase s

/-- R119: SNAPSHOT_WRITE stops in a faulted block and in a frame; between frames it stores its byte in
its region, ROM included, and changes nothing else, and an offset outside the region raises
SNAPSHOT_RANGE. -/
def Obligations.SnapshotWriteStoresInItsRegion : Prop :=
  (∀ region off v,
    StopsInFrame (.snapshotWrite region off v) (.hostInFrame (.snapshotWrite region off v))) ∧
  ∀ (s : State) (off : Nat) (v : Byte), s.faulted = none → s.inFrame = false →
    s.cfg.admitted = true →
    (off < 0x2000 → ∃ t, exec (.snapshotWrite .rom off v) s = .next t ∧
      t = { s with mem := t.mem } ∧
      (∀ i, i < 0x2000 → romByte t i = if i = off then v else romByte s i) ∧
      (∀ i, i < 0x4000 → ramByte t i = ramByte s i)) ∧
    (0x2000 ≤ off → exec (.snapshotWrite .rom off v) s
      = .next { s with faulted := some (.snapshotRange .rom off) }) ∧
    (off < 0x4000 → ∃ t, exec (.snapshotWrite .ram off v) s = .next t ∧
      t = { s with mem := t.mem } ∧
      (∀ i, i < 0x2000 → romByte t i = romByte s i) ∧
      (∀ i, i < 0x4000 → ramByte t i = if i = off then v else ramByte s i)) ∧
    (0x4000 ≤ off → exec (.snapshotWrite .ram off v) s
      = .next { s with faulted := some (.snapshotRange .ram off) })

/-- R38: no CPU transaction changes a ROM byte, no operation but SNAPSHOT_WRITE to ROM and POWER_RAISE
does, and POWER_RAISE restores the ROM image. -/
def Obligations.RomChangesOnlyBySnapshotOrPower : Prop :=
  ∀ (s : State) (off : Nat), off < 0x2000 →
    (∀ x : CpuTxn, romByte (answer s x) off = romByte s off) ∧
    (∀ (i : Instr) (t : State), exec i s = .next t →
      (∀ o v, i ≠ .snapshotWrite .rom o v) → i ≠ .powerRaise → romByte t off = romByte s off) ∧
    (∀ t : State, exec .powerRaise s = .next t → s.inFrame = false → s.cfg.admitted = true →
      s.cfg.romImage[off]? = some (romByte t off))

/-! ### Interrupts -/

/-- R106, R107 and R108: the "instruction executed" notification emits INT_LOWER exactly when bit 6 of
the refresh register is clear, the "instruction about to execute" notification changes nothing, and
the NMI pulse is one NMI_LOWER event. -/
def Obligations.InterruptOperationsEmitTheirEvents : Prop :=
  ∀ s : State, s.faulted = none →
    (∀ (bit7 : BitVec 1) (low : BitVec 6),
      exec (.instrDoneInt bit7 low) s = .next { s with trace := s.trace ++ [.intLower] } ∧
      exec (.instrDoneNoint bit7 low) s = .next s) ∧
    (∀ r : Byte, exec (decodeInstrDone r) s
      = .next (if r &&& 0x40#8 = 0 then { s with trace := s.trace ++ [.intLower] } else s)) ∧
    exec .instrPre s = .next s ∧
    exec .nmiPulse s = .next { s with trace := s.trace ++ [.nmiLower] }

/-! ### Clock -/

/-- R95: TICK(n) adds its ticks and, where they make a whole cycle, requests the whole cycles by one
PROCEED and keeps the odd tick; beside that it changes only what a CPU run can. -/
def Obligations.TickMakesTwoTicksOneCycle : Prop :=
  ∀ (s : State) (n : Nat), s.faulted = none →
    ∃ t, exec (.tick n) s = .next t ∧
      (s.t + n < 2 → t = { s with t := s.t + n }) ∧
      (2 ≤ s.t + n →
        t = { proceed ((s.t + n) / 2) { s with t := s.t + n } with t := (s.t + n) % 2 } ∧
        s.trace ++ [.proceed ((s.t + n) / 2)] <+: t.trace) ∧
      t.t = (s.t + n) % 2 ∧ t.frameCycles = s.frameCycles + (s.t + n) / 2 ∧
      t.fb = s.fb ∧ t.nextLine = s.nextLine ∧ CpuFrame s t

/-- The halving law, which 41_clock.md R101 marks as derived from R95: however ticks are split into
calls, the cycles requested are the whole halves and the odd tick is kept. -/
def Obligations.HalvingLaw : Prop :=
  ∀ (s : State) (ns : List Nat), s.t ≤ 1 →
    (ns.foldl (fun u n => tick n u) s).t = (s.t + ns.sum) % 2 ∧
    requested (ns.foldl (fun u n => tick n u) s).trace
      = requested s.trace + (s.t + ns.sum) / 2

/-- R97 with R99 and R100. Where an earlier overdraft is at least `n` the CPU does not run; where the
budget is positive there is one run of that budget, executing `e` cycles under the engine's contract,
between the PROCEED and the RUN event, and its excess is carried. The run takes the first instructions
of the engine whose cycles reach the budget; it answers all their transactions in order; `e` is the sum
of their cycles. That the engine is a list of instructions with free draws after it, and that the
cycles of each are held between 1 and MAX_OVERRUN, is the model's choice (log 2). -/
def Obligations.ProceedRunsTheCpuOnItsBudget : Prop :=
  ∀ (s : State) (n : Nat), s.faulted = none →
    (s.budget + (n : Int) ≤ 0 → exec (.proceed n) s = .next { s with
      trace := s.trace ++ [.proceed n]
      frameCycles := s.frameCycles + n
      budget := s.budget + (n : Int) }) ∧
    (0 < s.budget + (n : Int) → 1 ≤ s.cfg.maxOverrun →
      ∃ t, ∃ e : Nat, exec (.proceed n) s = .next t ∧
        s.budget + (n : Int) ≤ (e : Int) ∧
        (e : Int) < s.budget + (n : Int) + (s.cfg.maxOverrun : Int) ∧
        t.budget = s.budget + (n : Int) - (e : Int) ∧
        t.frameCycles = s.frameCycles + n ∧ t.t = s.t ∧ t.fb = s.fb ∧
        t.nextLine = s.nextLine ∧ CpuFrame s t ∧
        (∃ es : List Event, (∀ x ∈ es, x = .intLower) ∧
          t.trace = s.trace ++ [.proceed n] ++ es ++ [.run (s.budget + (n : Int)).toNat e]) ∧
        ∃ k u, 1 ≤ k ∧
          (totalCycles s.cfg (upcoming s (k - 1)) : Int) < s.budget + (n : Int) ∧
          e = totalCycles s.cfg (upcoming s k) ∧
          u = answerAll (txnsOf (upcoming s k)) (afterTaking k { s with
            trace := s.trace ++ [.proceed n]
            frameCycles := s.frameCycles + n
            budget := s.budget + (n : Int) }) ∧
          t = { u with
            trace := u.trace ++ [.run (s.budget + (n : Int)).toNat e]
            budget := s.budget + (n : Int) - (e : Int) })

/-- The budget's bound across a PROCEED, which 41_clock.md R98 marks as derived from R97 and R99. -/
def Obligations.BudgetStaysInItsBound : Prop :=
  ∀ (s t : State) (n : Nat), exec (.proceed n) s = .next t →
    -(s.cfg.maxOverrun : Int) < s.budget → s.budget ≤ 0 →
    -(s.cfg.maxOverrun : Int) < t.budget ∧ t.budget ≤ 0

/-- Over every operation but POWER_RAISE the cycles requested less the cycles executed move with the
budget (41_clock.md R98, marked as derived: "(sum of n requested) - (sum of e executed) = Budget"). -/
def Obligations.DriftIsTheBudget : Prop :=
  ∀ (i : Instr) (s t : State), i ≠ .powerRaise → exec i s = .next t →
    (requested t.trace : Int) - (executed t.trace : Int) - t.budget
      = (requested s.trace : Int) - (executed s.trace : Int) - s.budget

/-! ### Raster -/

/-- R82: the pixel's cell is written and nothing else, and then one tick is added, which leaves the
framebuffer alone and changes beside the clock only what a CPU run can. -/
def Obligations.PixelWritesItsCellThenTicks : Prop :=
  ∀ (s : State) (x : Nat) (col : Colour), s.faulted = none → s.cfg.vretraceLines ≤ s.nextLine →
    s.nextLine - s.cfg.vretraceLines < rasterHeight s.cfg → x < rasterWidth s.cfg →
    ∃ u t, exec (.pixel x col) s = .next t ∧ u = { s with fb := u.fb } ∧ t = tick 1 u ∧
      (∀ i, fbCell u i
        = if i = (s.nextLine - s.cfg.vretraceLines) * rasterWidth s.cfg + x then col
          else fbCell s i) ∧
      t.fb = u.fb ∧ t.t = (s.t + 1) % 2 ∧ t.frameCycles = s.frameCycles + (s.t + 1) / 2 ∧
      t.nextLine = s.nextLine ∧ CpuFrame s t

/-- R89: the pulse if NMI is enabled, then the count, then the ticks of the horizontal retrace. -/
def Obligations.LineTailPulsesCountsThenTicks : Prop :=
  ∀ s : State, s.faulted = none →
    exec .lineTail s = .next (tick s.cfg.hretraceTicks { s with
      trace := if s.nmiEnabled then s.trace ++ [.nmiLower] else s.trace
      lineCounter := s.lineCounter + 1 })

/-- R81 with R84 to R88: a RENDER_LINE out of its order raises RENDER_ORDER, whatever the band, and
draws nothing; in its order it is its band part, the tail and the advance of NextLine. -/
def Obligations.RenderLineIsBandPartThenTail : Prop :=
  ∀ (s : State) (y : Nat), s.faulted = none →
    ((s.inFrame = false ∨ y ≠ s.nextLine ∨ s.cfg.totalHeight ≤ y) →
      exec (decodeRenderLine s.cfg y) s
        = .next { s with faulted := some (.renderOrder y s.nextLine) }) ∧
    (s.inFrame = true → y = s.nextLine → y < s.cfg.totalHeight →
      (bandOf s.cfg y = .retrace → exec (.renderLineRetrace y) s
        = .next { lineTail (tick (rasterWidth s.cfg) s) with nextLine := y + 1 }) ∧
      (bandOf s.cfg y = .upper → exec (.renderLineUpper y) s
        = .next { lineTail (drawSegment .border 0 (rasterWidth s.cfg) s) with
          nextLine := y + 1 }) ∧
      (bandOf s.cfg y = .active → exec (.renderLineActive y) s
        = .next { lineTail
            (drawSegment .border (s.cfg.leftBorderPx + s.cfg.activePx) s.cfg.rightBorderPx
              (drawSegment .fill s.cfg.leftBorderPx s.cfg.activePx
                (drawSegment .border 0 s.cfg.leftBorderPx s))) with nextLine := y + 1 }) ∧
      (bandOf s.cfg y = .lower → exec (.renderLineLower y) s
        = .next { lineTail (drawSegment .border 0 (rasterWidth s.cfg) s) with
          nextLine := y + 1 }) ∧
      (bandOf s.cfg y = .trailing → exec (.renderLineTrailing y) s
        = .next { lineTail s with nextLine := y + 1 }))

/-- R72: the row of RENDER_LINE(y) by the four thresholds. -/
def Obligations.RenderLineRowByThresholds : Prop :=
  ∀ (c : Config) (y : Nat), decode c (.seq (.renderLine y)) = .ok (
    if y < c.vretraceLines then .renderLineRetrace y
    else if y < c.vretraceLines + c.upperBorderLines then .renderLineUpper y
    else if y < c.vretraceLines + c.upperBorderLines + c.activeLines then .renderLineActive y
    else if y < c.vretraceLines + c.upperBorderLines + c.activeLines + c.lowerBorderLines then
      .renderLineLower y
    else .renderLineTrailing y)

/-- The ticks of a line by its band and its frame, which 40_raster.md R92 marks as derived from R84 to
R89: a line-width and the horizontal retrace, a trailing line the horizontal retrace only. -/
def Obligations.LineAddsItsTicks : Prop :=
  ∀ (s : State) (y : Nat), s.faulted = none → s.inFrame = true → y = s.nextLine →
    y < s.cfg.totalHeight → s.t ≤ 1 →
    ∃ t, exec (decodeRenderLine s.cfg y) s = .next t ∧ t.nextLine = y + 1 ∧
      t.t = (s.t + ((if bandOf s.cfg y = .trailing then 0 else rasterWidth s.cfg)
        + s.cfg.hretraceTicks)) % 2 ∧
      t.frameCycles = s.frameCycles
        + (s.t + ((if bandOf s.cfg y = .trailing then 0 else rasterWidth s.cfg)
          + s.cfg.hretraceTicks)) / 2 ∧
      CpuFrame s t

/-- R84 and R88: a retrace line and a trailing line write no pixel. -/
def Obligations.RetraceAndTrailingLinesDrawNothing : Prop :=
  ∀ (s t : State) (y : Nat),
    (exec (.renderLineRetrace y) s = .next t → t.fb = s.fb) ∧
    (exec (.renderLineTrailing y) s = .next t → t.fb = s.fb)

/-- R83: SEGMENT is PIXEL of each of its columns in turn, with the colour source read again in the
state before each pixel; so every column holds the colour its source had just then, and a border
change that one pixel's tick brings colours the columns after it only (R168). -/
def Obligations.SegmentReadsItsSourceForEveryPixel : Prop :=
  ∀ (src : Source) (x0 n : Nat) (s : State),
    drawSegment src x0 n s = (List.range' x0 n).foldl (fun u x => pixel x (match src with
      | .border => u.borderColor
      | .fill => BitVec.ofNat 3 u.cfg.activeFill) u) s ∧
    (∀ i, i < n → fbCell (drawSegment src x0 n s) (cellIndex s.cfg s.nextLine (x0 + i))
      = match src with
        | .border => (drawSegment src x0 i s).borderColor
        | .fill => BitVec.ofNat 3 s.cfg.activeFill) ∧
    (∀ (x : Nat) (col : Colour), s.faulted = none → s.cfg.vretraceLines ≤ s.nextLine →
      s.nextLine - s.cfg.vretraceLines < rasterHeight s.cfg → x < rasterWidth s.cfg →
      exec (.pixel x col) s = .next (pixel x col s))

/-- R85 and R87: a border line writes its own row only. Every pixel of the row is the border colour
where nothing writes that colour in the band part: where the overdraft lets no CPU run happen in it,
and where the CPU runs but its listed instructions are enough for the band part's cycles and write no
port (log 2). -/
def Obligations.BorderLineFillsItsRow : Prop :=
  ∀ (s : State) (y : Nat), s.faulted = none → s.inFrame = true → y = s.nextLine →
    y < s.cfg.totalHeight → (bandOf s.cfg y = .upper ∨ bandOf s.cfg y = .lower) →
    ∃ t, exec (decodeRenderLine s.cfg y) s = .next t ∧
      (∀ i, (∀ x, x < rasterWidth s.cfg → i ≠ cellIndex s.cfg y x) →
        fbCell t i = fbCell s i) ∧
      (s.budget + ((s.t + rasterWidth s.cfg) / 2 : Nat) ≤ 0 ∨
          (s.budget + ((s.t + rasterWidth s.cfg) / 2 : Nat) ≤ (s.cpu.length : Int) ∧
            ∀ i ∈ s.cpu, noPortWrite i = true) →
        ∀ x, x < rasterWidth s.cfg → fbCell t (cellIndex s.cfg y x) = s.borderColor)

/-- R86: an active line writes its own row only, and the fixed fill into every column of its video
segment, whatever the CPU does meanwhile. The other columns take the border colour where nothing writes
that colour in the band part: where the overdraft lets no CPU run happen in it, and where the CPU runs
but its listed instructions are enough for the band part's cycles and write no port (log 2). -/
def Obligations.ActiveLineFillsItsVideoSegment : Prop :=
  ∀ (s : State) (y : Nat), s.faulted = none → s.inFrame = true → y = s.nextLine →
    y < s.cfg.totalHeight → bandOf s.cfg y = .active →
    ∃ t, exec (.renderLineActive y) s = .next t ∧
      (∀ i, (∀ x, x < rasterWidth s.cfg → i ≠ cellIndex s.cfg y x) →
        fbCell t i = fbCell s i) ∧
      (∀ x, x < rasterWidth s.cfg → segmentOf s.cfg x = .video →
        fbCell t (cellIndex s.cfg y x) = BitVec.ofNat 3 s.cfg.activeFill) ∧
      (s.budget + ((s.t + rasterWidth s.cfg) / 2 : Nat) ≤ 0 ∨
          (s.budget + ((s.t + rasterWidth s.cfg) / 2 : Nat) ≤ (s.cpu.length : Int) ∧
            ∀ i ∈ s.cpu, noPortWrite i = true) →
        ∀ x, x < rasterWidth s.cfg → segmentOf s.cfg x ≠ .video →
          fbCell t (cellIndex s.cfg y x) = s.borderColor)

/-- R80: FRAME stops in a faulted block, unpowered, and in a frame, in this order of checks; else it is
its set-up, every line in order, PUBLISH and the end of the frame, and none of its lines faults. -/
def Obligations.FrameIsItsLinesThenPublish : Prop :=
  ∀ s : State,
    (∀ code, s.faulted = some code → exec .frame s = .fault (.stuck code)) ∧
    (s.faulted = none → s.powered = false →
      exec .frame s = .next { s with faulted := some (.notPowered .frame) }) ∧
    (s.faulted = none → s.powered = true → s.inFrame = true →
      exec .frame s = .next { s with faulted := some (.frameInFlight .frame) }) ∧
    (s.faulted = none → s.powered = true → s.inFrame = false →
      exec .frame s = .next { publish
        ((List.range s.cfg.totalHeight).foldl (fun u y => renderLine y u)
          { s with inFrame := true, frameCycles := 0, nextLine := 0 }) with inFrame := false })

/-- R80 with R90: what a completed frame leaves: the position at the end, no fault, the snapshot of
the framebuffer as it stands, PUBLISH as the last event, and unchanged what no line can change. -/
def Obligations.FrameCompletes : Prop :=
  ∀ s : State, s.faulted = none → s.powered = true → s.inFrame = false →
    ∃ t, exec .frame s = .next t ∧ t.inFrame = false ∧ t.nextLine = s.cfg.totalHeight ∧
      t.faulted = none ∧ t.powered = true ∧ t.published = some t.fb ∧
      (∃ es, t.trace = s.trace ++ es ++ [.publish]) ∧
      t.cfg = s.cfg ∧ t.flash = s.flash ∧ t.pressed = s.pressed ∧ t.inbox = s.inbox ∧
      (∀ off, off < 0x2000 → romByte t off = romByte s off)

/-- The cycles of a frame in closed form, which 41_clock.md R102 marks as derived from R92, R97 and
R101: they depend on neither the CPU nor its port accesses. -/
def Obligations.FrameRequestsItsCycles : Prop :=
  ∀ s : State, CleanEntry s →
    ∃ t, exec .frame s = .next t ∧
      t.frameCycles = (s.t + ((s.cfg.vretraceLines + s.cfg.upperBorderLines + s.cfg.activeLines
        + s.cfg.lowerBorderLines) * rasterWidth s.cfg
        + s.cfg.totalHeight * s.cfg.hretraceTicks)) / 2 ∧
      t.t = (s.t + ((s.cfg.vretraceLines + s.cfg.upperBorderLines + s.cfg.activeLines
        + s.cfg.lowerBorderLines) * rasterWidth s.cfg
        + s.cfg.totalHeight * s.cfg.hretraceTicks)) % 2

/-- Framebuffer coverage, which 40_raster.md R93 marks as derived from R82 to R88 and R21: a frame
writes every cell, so that what the framebuffer held before it shows nowhere. -/
def Obligations.FrameOverwritesTheFramebuffer : Prop :=
  ∀ (s t t' : State) (fb' : List (Nat × Colour)), CleanEntry s →
    exec .frame s = .next t → exec .frame { s with fb := fb' } = .next t' →
    t' = { t with fb := t'.fb, published := t'.published } ∧
    ∀ i, i < fbSize s.cfg → fbCell t' i = fbCell t i

/-- The line counter over a frame without port resets, which 40_raster.md R94 marks as derived from
R89, R124 and R125. The CPU instructions listed for the frame write no port, and read no even port
unless NMI is enabled. -/
def Obligations.LineCounterCountsTheLinesOfAFrame : Prop :=
  ∀ s t : State, CleanEntry s → scripted s ((s.t + frameTicks s.cfg) / 2) →
    (∀ i ∈ s.cpu, noPortReset i = true ∨ (s.nmiEnabled = true ∧ noPortWrite i = true)) →
    exec .frame s = .next t →
    t.lineCounter = s.lineCounter + BitVec.ofNat 16 s.cfg.totalHeight

/-- The pulses of a frame, which 42_interrupts.md R113 marks as derived from R81 and R89: one per line
while NMI is enabled, none while it is not. The CPU instructions listed for the frame write no port,
so that the flag stays what it is. -/
def Obligations.OnePulsePerLineWhileEnabled : Prop :=
  ∀ s t : State, CleanEntry s → scripted s ((s.t + frameTicks s.cfg) / 2) →
    (∀ i ∈ s.cpu, noPortWrite i = true) → exec .frame s = .next t →
    pulses t.trace = pulses s.trace + if s.nmiEnabled then s.cfg.totalHeight else 0

/-- R90 with R134: PUBLISH emits its event and the snapshot becomes a copy of the framebuffer, which
stays as it is; no other operation but FRAME, which ends in PUBLISH, writes the snapshot. -/
def Obligations.PublishCopiesTheFramebuffer : Prop :=
  (∀ s : State, s.faulted = none →
    exec .publish s = .next { s with trace := s.trace ++ [.publish], published := some s.fb }) ∧
  (∀ (i : Instr) (s t : State), exec i s = .next t → i ≠ .publish → i ≠ .frame →
    t.published = s.published)

/-! ### Host operations and lifecycle -/

/-- R130: POWER_RAISE stops in a faulted block and in a frame. Between frames it resets: framebuffer,
ROM and RAM are read cell by cell; `Pressed`, `Trace`, `Faulted`, the snapshot (log 6) and the
configuration are kept. -/
def Obligations.PowerRaiseResets : Prop :=
  StopsInFrame .powerRaise (.frameInFlight .powerRaise) ∧
  ∀ s : State, s.faulted = none → s.inFrame = false → s.cfg.admitted = true →
    ∃ t, exec .powerRaise s = .next t ∧
      t = { s with
        lineCounter := 0
        nmiEnabled := false
        borderColor := BitVec.ofNat 3 s.cfg.borderDefault
        flash := false
        mic := false
        ear := false
        t := 0
        budget := 0
        frameCycles := 0
        nextLine := 0
        powered := true
        fb := t.fb
        mem := t.mem } ∧
      (∀ i, fbCell t i = 0) ∧
      (∀ off, off < 0x2000 → s.cfg.romImage[off]? = some (romByte t off)) ∧
      (∀ off, off < 0x4000 → ramByte t off = 0x00)

/-- A second POWER_RAISE, and a second POWER_LOWER, changes nothing: 45_host.md R135 marks it as
derived from R130 and R131. -/
def Obligations.PowerOperationsAreIdempotent : Prop :=
  ∀ s t : State, s.inFrame = false →
    (exec .powerRaise s = .next t → exec .powerRaise t = .next t) ∧
    (exec .powerLower s = .next t → exec .powerLower t = .next t)

/-- R131: POWER_LOWER stops in a faulted block and in a frame; between frames it clears `Powered` and
nothing else. -/
def Obligations.PowerLowerClearsPowered : Prop :=
  StopsInFrame .powerLower (.frameInFlight .powerLower) ∧
  ∀ s : State, s.faulted = none → s.inFrame = false →
    exec .powerLower s = .next { s with powered := false }

/-- R126, R127 and R128: the host's inputs stop in a faulted block and in a frame; between frames the
press set gains or loses the key, the cassette latch takes its value, and nothing else changes. -/
def Obligations.HostInputsSetTheirElement : Prop :=
  (∀ k, StopsInFrame (.keyDown k) (.hostInFrame (.keyDown k))) ∧
  (∀ k, StopsInFrame (.keyUp k) (.hostInFrame (.keyUp k))) ∧
  (∀ b, StopsInFrame (.setEar b) (.hostInFrame (.setEar b))) ∧
  ∀ (s : State) (k : RawKey) (b : Bool), s.faulted = none → s.inFrame = false →
    (∃ t, exec (.keyDown k) s = .next t ∧ t = { s with pressed := t.pressed } ∧
      ∀ j, j ∈ t.pressed ↔ j = k ∨ j ∈ s.pressed) ∧
    (∃ t, exec (.keyUp k) s = .next t ∧ t = { s with pressed := t.pressed } ∧
      ∀ j, j ∈ t.pressed ↔ j ≠ k ∧ j ∈ s.pressed) ∧
    exec (.setEar b) s = .next { s with ear := b }

/-- The clean-entry premise, which 45_host.md R139 marks as derived from R11, R98 and R130: POWER_RAISE
gives it under an admitted configuration, and a frame that starts from it ends in it. -/
def Obligations.FramesKeepTheCleanEntry : Prop :=
  (∀ s t : State, s.cfg.admitted = true → s.inFrame = false → exec .powerRaise s = .next t →
    CleanEntry t) ∧
  (∀ s t : State, CleanEntry s → exec .frame s = .next t → CleanEntry t)

/-- R34 and R27: only KEY_DOWN and KEY_UP change the press set, and `Flash` has no writer but
POWER_RAISE, which clears it. -/
def Obligations.PressSetAndFlashHaveTheirOwnWriters : Prop :=
  ∀ (i : Instr) (s t : State), exec i s = .next t →
    ((∀ k, i ≠ .keyDown k) → (∀ k, i ≠ .keyUp k) → t.pressed = s.pressed) ∧
    (i ≠ .powerRaise → t.flash = s.flash) ∧
    (i = .powerRaise → s.inFrame = false → t.flash = false)

/-! ### Faults, construction and reset -/

/-- R141: raising a fault sets `Faulted` and rolls nothing back; then no operation and no step goes on,
and the run has not ended well. -/
def Obligations.FaultIsFinal : Prop :=
  (∀ (s : State) (code : FaultCode), raise code s = { s with faulted := some code }) ∧
  ∀ (s : State) (code : FaultCode), s.faulted = some code →
    (∀ i : Instr, exec i s = .fault (.stuck code)) ∧ step s = .fault (.stuck code) ∧
    endedWell s = false

/-- R75 and R100: every transaction of the CPU engine, of every field value, has a defined response
without a fault, and it is the same inside a CPU run as for the transaction's row of the table. -/
def Obligations.EveryCpuTransactionIsAnswered : Prop :=
  ∀ (s : State) (x : CpuTxn), s.faulted = none →
    exec (decodeCpu s.cfg x) s = .next (answer s x) ∧ (answer s x).faulted = none

/-- The state after POWER_RAISE in any configuration, as 70_reset_and_hazards.md R160 derives it from
R20 and R130: POWER_RAISE on the block just constructed, whatever its unspecified elements hold, gives
it, and State.reset is it for the reference configuration (log 1). -/
def Obligations.ConstructionThenPowerRaiseIsReset : Prop :=
  (∀ (c : Config) (u : State), c.admitted = true →
    exec .powerRaise (construct c u) = .next (State.resetOf c)) ∧
  State.reset = State.resetOf Config.ref

/-- The reset column of 10_state.md R20, and what is there at construction and POWER_RAISE keeps, as
State.reset shows it; its configuration, and so its ROM image and border colour, is the model's choice
(log 1). -/
def Obligations.ResetValues : Prop :=
  State.reset.lineCounter = 0 ∧ State.reset.nmiEnabled = false ∧ State.reset.borderColor = 0 ∧
  State.reset.mic = false ∧ State.reset.ear = false ∧ State.reset.flash = false ∧
  State.reset.t = 0 ∧ State.reset.budget = 0 ∧ State.reset.frameCycles = 0 ∧
  State.reset.nextLine = 0 ∧ State.reset.inFrame = false ∧ State.reset.powered = true ∧
  State.reset.faulted = none ∧ State.reset.pressed = [] ∧ State.reset.trace = [] ∧
  (∀ i, fbCell State.reset i = 0) ∧
  (∀ off, off < 0x2000 → State.reset.cfg.romImage[off]? = some (romByte State.reset off)) ∧
  (∀ off, off < 0x4000 → ramByte State.reset off = 0x00)

/-- R11: the clauses of an admitted configuration; one that breaks a clause is refused at construction
with CONFIG_INVALID and the clause, and no operation goes on; an admitted one is constructed without a
fault, unpowered, outside a frame and with its ROM image. -/
def Obligations.ConstructionRefusesBadConfigurations : Prop :=
  ∀ (c : Config) (u : State),
    (c.admitted = true ↔ c.ticksPerCycle = 2 ∧
      c.vretraceLines + c.upperBorderLines + c.activeLines + c.lowerBorderLines ≤ c.totalHeight ∧
      1 ≤ c.totalHeight ∧ 0 < c.romEnd ∧ c.romEnd ≤ c.ramEnd ∧ c.ramEnd ≤ 0x10000 ∧
      c.romEnd = 0x2000 ∧ c.ramEnd = 0x6000 ∧ c.nmiOnPort ≠ c.nmiOffPort ∧
      (∀ r ∈ c.keyRows, r.2.length = 5) ∧ c.romImage.length = c.romEnd ∧
      c.borderDefault < 8 ∧ c.activeFill < 8 ∧ c.totalHeight < 2 ^ 16 ∧ 1 ≤ c.maxOverrun) ∧
    (c.admitted = false → ∃ clause, (clause, false) ∈ c.clauses ∧
      (construct c u).faulted = some (.configInvalid clause) ∧
      ∀ i, exec i (construct c u) = .fault (.stuck (.configInvalid clause))) ∧
    (c.admitted = true → (construct c u).faulted = none ∧ (construct c u).powered = false ∧
      (construct c u).inFrame = false ∧
      ∀ off, off < 0x2000 → c.romImage[off]? = some (romByte (construct c u) off))

/-! ### The whole machine -/

/-- A step takes the next transaction, decodes it and performs its operation; with none waiting the
block changes nothing (the model's own choice, log 3). -/
def Obligations.StepRunsTheDecodedOperation : Prop :=
  ∀ s : State, s.faulted = none →
    (∀ (x : Transaction) (rest : List Transaction) (i : Instr), s.inbox = x :: rest →
      decode s.cfg x = .ok i → step s = exec i { s with inbox := rest }) ∧
    (s.inbox = [] → step s = .next s)

/-- Transactions written out from 30_encoding.md, at least one of each of the six CPU formats (R65) and
two of RENDER_LINE, decode to the operations they stand for. -/
def Obligations.WrittenTransactionsDecode : Prop :=
  decode Config.ref (.cpu (.pr 0xF7FE)) = .ok (.portReadEven 0xF7 0x7F) ∧
  decode Config.ref (.cpu (.pr 0x00FF)) = .ok (.portReadOdd 0x7F) ∧
  decode Config.ref (.cpu (.pw 0x07FE 0x07)) = .ok (.portWriteNmiOn 0x07 0x07) ∧
  decode Config.ref (.cpu (.pw 0xFFFD 0xFF)) = .ok (.portWriteNmiOff 0xFF 0xFF) ∧
  decode Config.ref (.cpu (.pw 0xFE00 0x05)) = .ok (.portWriteOther 0xFE 0x00 0x05) ∧
  decode Config.ref (.cpu (.mr 0x6000 .m1)) = .ok (.memFetchDirect 0x6000) ∧
  decode Config.ref (.cpu (.mr 0xE123 .m1)) = .ok (.memFetchMirror 1 0x2123) ∧
  decode Config.ref (.cpu (.mr 0xE123 .data)) = .ok (.memRead 0xE123) ∧
  decode Config.ref (.cpu (.mw 0x2FFF 0x55)) = .ok (.memWrite 0x2FFF 0x55) ∧
  decode Config.ref (.cpu .ip) = .ok .instrPre ∧
  decode Config.ref (.cpu (.id 0xBF)) = .ok (.instrDoneInt 1 0x3F) ∧
  decode Config.ref (.cpu (.id 0x40)) = .ok (.instrDoneNoint 0 0) ∧
  decode Config.tiny (.seq (.renderLine 2)) = .ok (.renderLineActive 2) ∧
  decode Config.ref (.seq (.renderLine 255)) = .ok (.renderLineActive 255)

/-- Decoding an encoded well-formed operation gives it back, with every operand at every value its
encoding admits (30_encoding.md R66 to R74, R79). -/
def Obligations.DecodeOfEncodeIsTheOperation : Prop :=
  ∀ (c : Config) (i : Instr), i.wellFormed c = true → decode c (encode c i) = .ok i

/-- Encoding what a transaction decodes to gives the transaction back, and what it decodes to is
well-formed: no bit of a transaction is dropped and no two rows share one. -/
def Obligations.EncodeOfDecodeIsTheTransaction : Prop :=
  ∀ (c : Config) (x : Transaction) (i : Instr), decode c x = .ok i →
    encode c i = x ∧ (c.nmiOnPort ≠ c.nmiOffPort → i.wellFormed c = true)

/-- The invariant holds after reset: in the reference configuration with a ROM of zeros, which
State.reset carries by the model's choice (log 1). -/
def Obligations.InvariantHoldsAtReset : Prop := MachineInv State.reset

/-- Every step keeps the invariant of the machine (R11, R36, R98, R103 and the canonical forms of log
7), whatever the CPU engine does. -/
def Obligations.EveryStepKeepsTheInvariant : Prop :=
  ∀ s t : State, MachineInv s → step s = .next t → MachineInv t

/-- No step changes the configuration (R20: "they never change"), and the trace only grows (R36). -/
def Obligations.ConfigurationFixedAndTraceGrows : Prop :=
  ∀ s t : State, step s = .next t → t.cfg = s.cfg ∧ s.trace <+: t.trace

/-- No rule of the block branches on the line counter (R22): two states that differ in it only go on
alike, and differ in it only. Both have the same coming CPU instructions (log 2): no transaction
returns the counter, so an engine cannot tell the two states apart. -/
def Obligations.LineCounterDecidesNothing : Prop :=
  ∀ (i : Instr) (s t : State) (v : BitVec 16), exec i s = .next t →
    ∃ w, exec i { s with lineCounter := v } = .next { t with lineCounter := w }

/-- For fixed CPU instructions memory decides nothing but the bytes that reads return (R118: the raster
generator reads no memory): two states that differ in memory only go on alike, in memory and returned
bytes excepted. Both have the same coming CPU instructions whatever bytes they read, which is the
model's choice of the CPU engine (log 2): a real engine executes what it has read. -/
def Obligations.MemoryReachesNoPixelAndNoEventForFixedCpuInstructions : Prop :=
  ∀ (i : Instr) (s t : State) (m : List Host.Cell), exec i s = .next t →
    ∃ m' r', exec i { s with mem := m } = .next { t with mem := m', replies := r' }

/-! ### Runs -/

/-- Runs and their good end (45_host.md R138, R136), in the model's reading of R138 (log 3): a run is
host operations waiting in the inbox of the construction state, one step each, and the last of them has
completed when the inbox is empty. Where every operation went on, none is
waiting, the block is outside a frame, and the run has ended well exactly if no fault is recorded; a
waiting operation, a frame in flight or a fault is no good end. After POWER_RAISE under an admitted
configuration every run without POWER_LOWER whose loads stay in their region ends well, whatever the
construction left open and whatever the CPU engine executes; a frame before it does not. -/
def Obligations.RunsEndWellAfterPowerRaise : Prop :=
  (∀ (c : Config) (u : State) (cpu : List CpuInstr) (ops : List HostOp) (t : State),
    hostRun c u cpu ops = .next t →
      t.inbox = [] ∧ t.inFrame = false ∧ (endedWell t = true ↔ t.faulted = none)) ∧
  (∀ s : State, endedWell s = true ↔ s.inbox = [] ∧ s.inFrame = false ∧ s.faulted = none) ∧
  (∀ (c : Config) (u : State) (cpu : List CpuInstr) (ops : List HostOp), c.admitted = true →
    .powerLower ∉ ops →
    (∀ off v, .snapshotWrite .rom off v ∈ ops → off < 0x2000) →
    (∀ off v, .snapshotWrite .ram off v ∈ ops → off < 0x4000) →
    ∃ t, hostRun c u cpu (.powerRaise :: ops) = .next t ∧ endedWell t = true) ∧
  (∀ (c : Config) (u : State) (cpu : List CpuInstr), c.admitted = true →
    ∃ t, hostRun c u cpu [.frame] = .next t ∧ t.faulted = some (.notPowered .frame) ∧
      endedWell t = false)
end

