-- ==== Sys2Proof/Laws/State.lean ====
section
/-! SUPPORT. The fields of the state after each plain update: one lemma per field per update, so that
no proof unfolds a record update. -/

namespace Sys2Proof.Machine

variable (s : State)

/-! ### emit -/

@[simp] theorem emit_fb (e : Event) : (emit e s).fb = s.fb := rfl
@[simp] theorem emit_lineCounter (e : Event) : (emit e s).lineCounter = s.lineCounter := rfl
@[simp] theorem emit_nmiEnabled (e : Event) : (emit e s).nmiEnabled = s.nmiEnabled := rfl
@[simp] theorem emit_borderColor (e : Event) : (emit e s).borderColor = s.borderColor := rfl
@[simp] theorem emit_mic (e : Event) : (emit e s).mic = s.mic := rfl
@[simp] theorem emit_ear (e : Event) : (emit e s).ear = s.ear := rfl
@[simp] theorem emit_flash (e : Event) : (emit e s).flash = s.flash := rfl
@[simp] theorem emit_t (e : Event) : (emit e s).t = s.t := rfl
@[simp] theorem emit_budget (e : Event) : (emit e s).budget = s.budget := rfl
@[simp] theorem emit_frameCycles (e : Event) : (emit e s).frameCycles = s.frameCycles := rfl
@[simp] theorem emit_nextLine (e : Event) : (emit e s).nextLine = s.nextLine := rfl
@[simp] theorem emit_inFrame (e : Event) : (emit e s).inFrame = s.inFrame := rfl
@[simp] theorem emit_powered (e : Event) : (emit e s).powered = s.powered := rfl
@[simp] theorem emit_faulted (e : Event) : (emit e s).faulted = s.faulted := rfl
@[simp] theorem emit_pressed (e : Event) : (emit e s).pressed = s.pressed := rfl
@[simp] theorem emit_mem (e : Event) : (emit e s).mem = s.mem := rfl
@[simp] theorem emit_trace (e : Event) : (emit e s).trace = s.trace ++ [e] := rfl
@[simp] theorem emit_published (e : Event) : (emit e s).published = s.published := rfl
@[simp] theorem emit_cfg (e : Event) : (emit e s).cfg = s.cfg := rfl
@[simp] theorem emit_replies (e : Event) : (emit e s).replies = s.replies := rfl
@[simp] theorem emit_cpu (e : Event) : (emit e s).cpu = s.cpu := rfl
@[simp] theorem emit_cpuDraws (e : Event) : (emit e s).cpuDraws = s.cpuDraws := rfl
@[simp] theorem emit_inbox (e : Event) : (emit e s).inbox = s.inbox := rfl

/-! ### reply -/

@[simp] theorem reply_fb (v : Byte) : (reply v s).fb = s.fb := rfl
@[simp] theorem reply_lineCounter (v : Byte) : (reply v s).lineCounter = s.lineCounter := rfl
@[simp] theorem reply_nmiEnabled (v : Byte) : (reply v s).nmiEnabled = s.nmiEnabled := rfl
@[simp] theorem reply_borderColor (v : Byte) : (reply v s).borderColor = s.borderColor := rfl
@[simp] theorem reply_mic (v : Byte) : (reply v s).mic = s.mic := rfl
@[simp] theorem reply_ear (v : Byte) : (reply v s).ear = s.ear := rfl
@[simp] theorem reply_flash (v : Byte) : (reply v s).flash = s.flash := rfl
@[simp] theorem reply_t (v : Byte) : (reply v s).t = s.t := rfl
@[simp] theorem reply_budget (v : Byte) : (reply v s).budget = s.budget := rfl
@[simp] theorem reply_frameCycles (v : Byte) : (reply v s).frameCycles = s.frameCycles := rfl
@[simp] theorem reply_nextLine (v : Byte) : (reply v s).nextLine = s.nextLine := rfl
@[simp] theorem reply_inFrame (v : Byte) : (reply v s).inFrame = s.inFrame := rfl
@[simp] theorem reply_powered (v : Byte) : (reply v s).powered = s.powered := rfl
@[simp] theorem reply_faulted (v : Byte) : (reply v s).faulted = s.faulted := rfl
@[simp] theorem reply_pressed (v : Byte) : (reply v s).pressed = s.pressed := rfl
@[simp] theorem reply_mem (v : Byte) : (reply v s).mem = s.mem := rfl
@[simp] theorem reply_trace (v : Byte) : (reply v s).trace = s.trace := rfl
@[simp] theorem reply_published (v : Byte) : (reply v s).published = s.published := rfl
@[simp] theorem reply_cfg (v : Byte) : (reply v s).cfg = s.cfg := rfl
@[simp] theorem reply_replies (v : Byte) : (reply v s).replies = s.replies ++ [v] := rfl
@[simp] theorem reply_cpu (v : Byte) : (reply v s).cpu = s.cpu := rfl
@[simp] theorem reply_cpuDraws (v : Byte) : (reply v s).cpuDraws = s.cpuDraws := rfl
@[simp] theorem reply_inbox (v : Byte) : (reply v s).inbox = s.inbox := rfl

/-! ### raise -/

@[simp] theorem raise_fb (code : FaultCode) : (raise code s).fb = s.fb := rfl
@[simp] theorem raise_lineCounter (code : FaultCode) :
    (raise code s).lineCounter = s.lineCounter := rfl
@[simp] theorem raise_nmiEnabled (code : FaultCode) :
    (raise code s).nmiEnabled = s.nmiEnabled := rfl
@[simp] theorem raise_borderColor (code : FaultCode) :
    (raise code s).borderColor = s.borderColor := rfl
@[simp] theorem raise_mic (code : FaultCode) : (raise code s).mic = s.mic := rfl
@[simp] theorem raise_ear (code : FaultCode) : (raise code s).ear = s.ear := rfl
@[simp] theorem raise_flash (code : FaultCode) : (raise code s).flash = s.flash := rfl
@[simp] theorem raise_t (code : FaultCode) : (raise code s).t = s.t := rfl
@[simp] theorem raise_budget (code : FaultCode) : (raise code s).budget = s.budget := rfl
@[simp] theorem raise_frameCycles (code : FaultCode) :
    (raise code s).frameCycles = s.frameCycles := rfl
@[simp] theorem raise_nextLine (code : FaultCode) : (raise code s).nextLine = s.nextLine := rfl
@[simp] theorem raise_inFrame (code : FaultCode) : (raise code s).inFrame = s.inFrame := rfl
@[simp] theorem raise_powered (code : FaultCode) : (raise code s).powered = s.powered := rfl
@[simp] theorem raise_faulted (code : FaultCode) : (raise code s).faulted = some code := rfl
@[simp] theorem raise_pressed (code : FaultCode) : (raise code s).pressed = s.pressed := rfl
@[simp] theorem raise_mem (code : FaultCode) : (raise code s).mem = s.mem := rfl
@[simp] theorem raise_trace (code : FaultCode) : (raise code s).trace = s.trace := rfl
@[simp] theorem raise_published (code : FaultCode) : (raise code s).published = s.published := rfl
@[simp] theorem raise_cfg (code : FaultCode) : (raise code s).cfg = s.cfg := rfl
@[simp] theorem raise_replies (code : FaultCode) : (raise code s).replies = s.replies := rfl
@[simp] theorem raise_cpu (code : FaultCode) : (raise code s).cpu = s.cpu := rfl
@[simp] theorem raise_cpuDraws (code : FaultCode) : (raise code s).cpuDraws = s.cpuDraws := rfl
@[simp] theorem raise_inbox (code : FaultCode) : (raise code s).inbox = s.inbox := rfl

/-! ### fbPut -/

@[simp] theorem fbPut_fb (i : Nat) (v : Colour) :
    (fbPut i v s).fb = sparsePut fbUnlisted s.fb i v := rfl
@[simp] theorem fbPut_lineCounter (i : Nat) (v : Colour) :
    (fbPut i v s).lineCounter = s.lineCounter := rfl
@[simp] theorem fbPut_nmiEnabled (i : Nat) (v : Colour) :
    (fbPut i v s).nmiEnabled = s.nmiEnabled := rfl
@[simp] theorem fbPut_borderColor (i : Nat) (v : Colour) :
    (fbPut i v s).borderColor = s.borderColor := rfl
@[simp] theorem fbPut_mic (i : Nat) (v : Colour) : (fbPut i v s).mic = s.mic := rfl
@[simp] theorem fbPut_ear (i : Nat) (v : Colour) : (fbPut i v s).ear = s.ear := rfl
@[simp] theorem fbPut_flash (i : Nat) (v : Colour) : (fbPut i v s).flash = s.flash := rfl
@[simp] theorem fbPut_t (i : Nat) (v : Colour) : (fbPut i v s).t = s.t := rfl
@[simp] theorem fbPut_budget (i : Nat) (v : Colour) : (fbPut i v s).budget = s.budget := rfl
@[simp] theorem fbPut_frameCycles (i : Nat) (v : Colour) :
    (fbPut i v s).frameCycles = s.frameCycles := rfl
@[simp] theorem fbPut_nextLine (i : Nat) (v : Colour) : (fbPut i v s).nextLine = s.nextLine := rfl
@[simp] theorem fbPut_inFrame (i : Nat) (v : Colour) : (fbPut i v s).inFrame = s.inFrame := rfl
@[simp] theorem fbPut_powered (i : Nat) (v : Colour) : (fbPut i v s).powered = s.powered := rfl
@[simp] theorem fbPut_faulted (i : Nat) (v : Colour) : (fbPut i v s).faulted = s.faulted := rfl
@[simp] theorem fbPut_pressed (i : Nat) (v : Colour) : (fbPut i v s).pressed = s.pressed := rfl
@[simp] theorem fbPut_mem (i : Nat) (v : Colour) : (fbPut i v s).mem = s.mem := rfl
@[simp] theorem fbPut_trace (i : Nat) (v : Colour) : (fbPut i v s).trace = s.trace := rfl
@[simp] theorem fbPut_published (i : Nat) (v : Colour) :
    (fbPut i v s).published = s.published := rfl
@[simp] theorem fbPut_cfg (i : Nat) (v : Colour) : (fbPut i v s).cfg = s.cfg := rfl
@[simp] theorem fbPut_replies (i : Nat) (v : Colour) : (fbPut i v s).replies = s.replies := rfl
@[simp] theorem fbPut_cpu (i : Nat) (v : Colour) : (fbPut i v s).cpu = s.cpu := rfl
@[simp] theorem fbPut_cpuDraws (i : Nat) (v : Colour) : (fbPut i v s).cpuDraws = s.cpuDraws := rfl
@[simp] theorem fbPut_inbox (i : Nat) (v : Colour) : (fbPut i v s).inbox = s.inbox := rfl

/-! ### romPut -/

@[simp] theorem romPut_fb (off : Nat) (v : Byte) : (romPut off v s).fb = s.fb := rfl
@[simp] theorem romPut_lineCounter (off : Nat) (v : Byte) :
    (romPut off v s).lineCounter = s.lineCounter := rfl
@[simp] theorem romPut_nmiEnabled (off : Nat) (v : Byte) :
    (romPut off v s).nmiEnabled = s.nmiEnabled := rfl
@[simp] theorem romPut_borderColor (off : Nat) (v : Byte) :
    (romPut off v s).borderColor = s.borderColor := rfl
@[simp] theorem romPut_mic (off : Nat) (v : Byte) : (romPut off v s).mic = s.mic := rfl
@[simp] theorem romPut_ear (off : Nat) (v : Byte) : (romPut off v s).ear = s.ear := rfl
@[simp] theorem romPut_flash (off : Nat) (v : Byte) : (romPut off v s).flash = s.flash := rfl
@[simp] theorem romPut_t (off : Nat) (v : Byte) : (romPut off v s).t = s.t := rfl
@[simp] theorem romPut_budget (off : Nat) (v : Byte) : (romPut off v s).budget = s.budget := rfl
@[simp] theorem romPut_frameCycles (off : Nat) (v : Byte) :
    (romPut off v s).frameCycles = s.frameCycles := rfl
@[simp] theorem romPut_nextLine (off : Nat) (v : Byte) :
    (romPut off v s).nextLine = s.nextLine := rfl
@[simp] theorem romPut_inFrame (off : Nat) (v : Byte) : (romPut off v s).inFrame = s.inFrame := rfl
@[simp] theorem romPut_powered (off : Nat) (v : Byte) : (romPut off v s).powered = s.powered := rfl
@[simp] theorem romPut_faulted (off : Nat) (v : Byte) : (romPut off v s).faulted = s.faulted := rfl
@[simp] theorem romPut_pressed (off : Nat) (v : Byte) : (romPut off v s).pressed = s.pressed := rfl
@[simp] theorem romPut_mem (off : Nat) (v : Byte) :
    (romPut off v s).mem = sparsePut (unlisted s.cfg) s.mem off v := rfl
@[simp] theorem romPut_trace (off : Nat) (v : Byte) : (romPut off v s).trace = s.trace := rfl
@[simp] theorem romPut_published (off : Nat) (v : Byte) :
    (romPut off v s).published = s.published := rfl
@[simp] theorem romPut_cfg (off : Nat) (v : Byte) : (romPut off v s).cfg = s.cfg := rfl
@[simp] theorem romPut_replies (off : Nat) (v : Byte) : (romPut off v s).replies = s.replies := rfl
@[simp] theorem romPut_cpu (off : Nat) (v : Byte) : (romPut off v s).cpu = s.cpu := rfl
@[simp] theorem romPut_cpuDraws (off : Nat) (v : Byte) :
    (romPut off v s).cpuDraws = s.cpuDraws := rfl
@[simp] theorem romPut_inbox (off : Nat) (v : Byte) : (romPut off v s).inbox = s.inbox := rfl

/-! ### ramPut -/

@[simp] theorem ramPut_fb (off : Nat) (v : Byte) : (ramPut off v s).fb = s.fb := rfl
@[simp] theorem ramPut_lineCounter (off : Nat) (v : Byte) :
    (ramPut off v s).lineCounter = s.lineCounter := rfl
@[simp] theorem ramPut_nmiEnabled (off : Nat) (v : Byte) :
    (ramPut off v s).nmiEnabled = s.nmiEnabled := rfl
@[simp] theorem ramPut_borderColor (off : Nat) (v : Byte) :
    (ramPut off v s).borderColor = s.borderColor := rfl
@[simp] theorem ramPut_mic (off : Nat) (v : Byte) : (ramPut off v s).mic = s.mic := rfl
@[simp] theorem ramPut_ear (off : Nat) (v : Byte) : (ramPut off v s).ear = s.ear := rfl
@[simp] theorem ramPut_flash (off : Nat) (v : Byte) : (ramPut off v s).flash = s.flash := rfl
@[simp] theorem ramPut_t (off : Nat) (v : Byte) : (ramPut off v s).t = s.t := rfl
@[simp] theorem ramPut_budget (off : Nat) (v : Byte) : (ramPut off v s).budget = s.budget := rfl
@[simp] theorem ramPut_frameCycles (off : Nat) (v : Byte) :
    (ramPut off v s).frameCycles = s.frameCycles := rfl
@[simp] theorem ramPut_nextLine (off : Nat) (v : Byte) :
    (ramPut off v s).nextLine = s.nextLine := rfl
@[simp] theorem ramPut_inFrame (off : Nat) (v : Byte) : (ramPut off v s).inFrame = s.inFrame := rfl
@[simp] theorem ramPut_powered (off : Nat) (v : Byte) : (ramPut off v s).powered = s.powered := rfl
@[simp] theorem ramPut_faulted (off : Nat) (v : Byte) : (ramPut off v s).faulted = s.faulted := rfl
@[simp] theorem ramPut_pressed (off : Nat) (v : Byte) : (ramPut off v s).pressed = s.pressed := rfl
@[simp] theorem ramPut_mem (off : Nat) (v : Byte) :
    (ramPut off v s).mem = sparsePut (unlisted s.cfg) s.mem (ramBase + off) v := rfl
@[simp] theorem ramPut_trace (off : Nat) (v : Byte) : (ramPut off v s).trace = s.trace := rfl
@[simp] theorem ramPut_published (off : Nat) (v : Byte) :
    (ramPut off v s).published = s.published := rfl
@[simp] theorem ramPut_cfg (off : Nat) (v : Byte) : (ramPut off v s).cfg = s.cfg := rfl
@[simp] theorem ramPut_replies (off : Nat) (v : Byte) : (ramPut off v s).replies = s.replies := rfl
@[simp] theorem ramPut_cpu (off : Nat) (v : Byte) : (ramPut off v s).cpu = s.cpu := rfl
@[simp] theorem ramPut_cpuDraws (off : Nat) (v : Byte) :
    (ramPut off v s).cpuDraws = s.cpuDraws := rfl
@[simp] theorem ramPut_inbox (off : Nat) (v : Byte) : (ramPut off v s).inbox = s.inbox := rfl

/-! ### portWriteEffect -/

@[simp] theorem portWriteEffect_fb (port d : Byte) : (portWriteEffect port d s).fb = s.fb := rfl
@[simp] theorem portWriteEffect_lineCounter (port d : Byte) :
    (portWriteEffect port d s).lineCounter = 0 := rfl
@[simp] theorem portWriteEffect_nmiEnabled (port d : Byte) :
    (portWriteEffect port d s).nmiEnabled = nmiAfterWrite s.cfg port s.nmiEnabled := rfl
@[simp] theorem portWriteEffect_borderColor (port d : Byte) :
    (portWriteEffect port d s).borderColor = borderField d := rfl
@[simp] theorem portWriteEffect_mic (port d : Byte) : (portWriteEffect port d s).mic = true := rfl
@[simp] theorem portWriteEffect_ear (port d : Byte) : (portWriteEffect port d s).ear = s.ear := rfl
@[simp] theorem portWriteEffect_flash (port d : Byte) :
    (portWriteEffect port d s).flash = s.flash := rfl
@[simp] theorem portWriteEffect_t (port d : Byte) : (portWriteEffect port d s).t = s.t := rfl
@[simp] theorem portWriteEffect_budget (port d : Byte) :
    (portWriteEffect port d s).budget = s.budget := rfl
@[simp] theorem portWriteEffect_frameCycles (port d : Byte) :
    (portWriteEffect port d s).frameCycles = s.frameCycles := rfl
@[simp] theorem portWriteEffect_nextLine (port d : Byte) :
    (portWriteEffect port d s).nextLine = s.nextLine := rfl
@[simp] theorem portWriteEffect_inFrame (port d : Byte) :
    (portWriteEffect port d s).inFrame = s.inFrame := rfl
@[simp] theorem portWriteEffect_powered (port d : Byte) :
    (portWriteEffect port d s).powered = s.powered := rfl
@[simp] theorem portWriteEffect_faulted (port d : Byte) :
    (portWriteEffect port d s).faulted = s.faulted := rfl
@[simp] theorem portWriteEffect_pressed (port d : Byte) :
    (portWriteEffect port d s).pressed = s.pressed := rfl
@[simp] theorem portWriteEffect_mem (port d : Byte) : (portWriteEffect port d s).mem = s.mem := rfl
@[simp] theorem portWriteEffect_trace (port d : Byte) :
    (portWriteEffect port d s).trace = s.trace := rfl
@[simp] theorem portWriteEffect_published (port d : Byte) :
    (portWriteEffect port d s).published = s.published := rfl
@[simp] theorem portWriteEffect_cfg (port d : Byte) : (portWriteEffect port d s).cfg = s.cfg := rfl
@[simp] theorem portWriteEffect_replies (port d : Byte) :
    (portWriteEffect port d s).replies = s.replies := rfl
@[simp] theorem portWriteEffect_cpu (port d : Byte) : (portWriteEffect port d s).cpu = s.cpu := rfl
@[simp] theorem portWriteEffect_cpuDraws (port d : Byte) :
    (portWriteEffect port d s).cpuDraws = s.cpuDraws := rfl
@[simp] theorem portWriteEffect_inbox (port d : Byte) :
    (portWriteEffect port d s).inbox = s.inbox := rfl

/-! ### beginFrame -/

@[simp] theorem beginFrame_fb : (beginFrame s).fb = s.fb := rfl
@[simp] theorem beginFrame_lineCounter : (beginFrame s).lineCounter = s.lineCounter := rfl
@[simp] theorem beginFrame_nmiEnabled : (beginFrame s).nmiEnabled = s.nmiEnabled := rfl
@[simp] theorem beginFrame_borderColor : (beginFrame s).borderColor = s.borderColor := rfl
@[simp] theorem beginFrame_mic : (beginFrame s).mic = s.mic := rfl
@[simp] theorem beginFrame_ear : (beginFrame s).ear = s.ear := rfl
@[simp] theorem beginFrame_flash : (beginFrame s).flash = s.flash := rfl
@[simp] theorem beginFrame_t : (beginFrame s).t = s.t := rfl
@[simp] theorem beginFrame_budget : (beginFrame s).budget = s.budget := rfl
@[simp] theorem beginFrame_frameCycles : (beginFrame s).frameCycles = 0 := rfl
@[simp] theorem beginFrame_nextLine : (beginFrame s).nextLine = 0 := rfl
@[simp] theorem beginFrame_inFrame : (beginFrame s).inFrame = true := rfl
@[simp] theorem beginFrame_powered : (beginFrame s).powered = s.powered := rfl
@[simp] theorem beginFrame_faulted : (beginFrame s).faulted = s.faulted := rfl
@[simp] theorem beginFrame_pressed : (beginFrame s).pressed = s.pressed := rfl
@[simp] theorem beginFrame_mem : (beginFrame s).mem = s.mem := rfl
@[simp] theorem beginFrame_trace : (beginFrame s).trace = s.trace := rfl
@[simp] theorem beginFrame_published : (beginFrame s).published = s.published := rfl
@[simp] theorem beginFrame_cfg : (beginFrame s).cfg = s.cfg := rfl
@[simp] theorem beginFrame_replies : (beginFrame s).replies = s.replies := rfl
@[simp] theorem beginFrame_cpu : (beginFrame s).cpu = s.cpu := rfl
@[simp] theorem beginFrame_cpuDraws : (beginFrame s).cpuDraws = s.cpuDraws := rfl
@[simp] theorem beginFrame_inbox : (beginFrame s).inbox = s.inbox := rfl

/-! ### publish -/

@[simp] theorem publish_fb : (publish s).fb = s.fb := rfl
@[simp] theorem publish_lineCounter : (publish s).lineCounter = s.lineCounter := rfl
@[simp] theorem publish_nmiEnabled : (publish s).nmiEnabled = s.nmiEnabled := rfl
@[simp] theorem publish_borderColor : (publish s).borderColor = s.borderColor := rfl
@[simp] theorem publish_mic : (publish s).mic = s.mic := rfl
@[simp] theorem publish_ear : (publish s).ear = s.ear := rfl
@[simp] theorem publish_flash : (publish s).flash = s.flash := rfl
@[simp] theorem publish_t : (publish s).t = s.t := rfl
@[simp] theorem publish_budget : (publish s).budget = s.budget := rfl
@[simp] theorem publish_frameCycles : (publish s).frameCycles = s.frameCycles := rfl
@[simp] theorem publish_nextLine : (publish s).nextLine = s.nextLine := rfl
@[simp] theorem publish_inFrame : (publish s).inFrame = s.inFrame := rfl
@[simp] theorem publish_powered : (publish s).powered = s.powered := rfl
@[simp] theorem publish_faulted : (publish s).faulted = s.faulted := rfl
@[simp] theorem publish_pressed : (publish s).pressed = s.pressed := rfl
@[simp] theorem publish_mem : (publish s).mem = s.mem := rfl
@[simp] theorem publish_trace : (publish s).trace = s.trace ++ [.publish] := rfl
@[simp] theorem publish_published : (publish s).published = some s.fb := rfl
@[simp] theorem publish_cfg : (publish s).cfg = s.cfg := rfl
@[simp] theorem publish_replies : (publish s).replies = s.replies := rfl
@[simp] theorem publish_cpu : (publish s).cpu = s.cpu := rfl
@[simp] theorem publish_cpuDraws : (publish s).cpuDraws = s.cpuDraws := rfl
@[simp] theorem publish_inbox : (publish s).inbox = s.inbox := rfl

/-! ### powerRaise -/

@[simp] theorem powerRaise_fb : (powerRaise s).fb = [] := rfl
@[simp] theorem powerRaise_lineCounter : (powerRaise s).lineCounter = 0 := rfl
@[simp] theorem powerRaise_nmiEnabled : (powerRaise s).nmiEnabled = false := rfl
@[simp] theorem powerRaise_borderColor :
    (powerRaise s).borderColor = BitVec.ofNat 3 s.cfg.borderDefault := rfl
@[simp] theorem powerRaise_mic : (powerRaise s).mic = false := rfl
@[simp] theorem powerRaise_ear : (powerRaise s).ear = false := rfl
@[simp] theorem powerRaise_flash : (powerRaise s).flash = false := rfl
@[simp] theorem powerRaise_t : (powerRaise s).t = 0 := rfl
@[simp] theorem powerRaise_budget : (powerRaise s).budget = 0 := rfl
@[simp] theorem powerRaise_frameCycles : (powerRaise s).frameCycles = 0 := rfl
@[simp] theorem powerRaise_nextLine : (powerRaise s).nextLine = 0 := rfl
@[simp] theorem powerRaise_inFrame : (powerRaise s).inFrame = s.inFrame := rfl
@[simp] theorem powerRaise_powered : (powerRaise s).powered = true := rfl
@[simp] theorem powerRaise_faulted : (powerRaise s).faulted = s.faulted := rfl
@[simp] theorem powerRaise_pressed : (powerRaise s).pressed = s.pressed := rfl
@[simp] theorem powerRaise_mem : (powerRaise s).mem = [] := rfl
@[simp] theorem powerRaise_trace : (powerRaise s).trace = s.trace := rfl
@[simp] theorem powerRaise_published : (powerRaise s).published = s.published := rfl
@[simp] theorem powerRaise_cfg : (powerRaise s).cfg = s.cfg := rfl
@[simp] theorem powerRaise_replies : (powerRaise s).replies = s.replies := rfl
@[simp] theorem powerRaise_cpu : (powerRaise s).cpu = s.cpu := rfl
@[simp] theorem powerRaise_cpuDraws : (powerRaise s).cpuDraws = s.cpuDraws := rfl
@[simp] theorem powerRaise_inbox : (powerRaise s).inbox = s.inbox := rfl

/-! ### withTransaction -/

@[simp] theorem withTransaction_fb (x : Transaction) : (withTransaction x s).fb = s.fb := rfl
@[simp] theorem withTransaction_lineCounter (x : Transaction) :
    (withTransaction x s).lineCounter = s.lineCounter := rfl
@[simp] theorem withTransaction_nmiEnabled (x : Transaction) :
    (withTransaction x s).nmiEnabled = s.nmiEnabled := rfl
@[simp] theorem withTransaction_borderColor (x : Transaction) :
    (withTransaction x s).borderColor = s.borderColor := rfl
@[simp] theorem withTransaction_mic (x : Transaction) : (withTransaction x s).mic = s.mic := rfl
@[simp] theorem withTransaction_ear (x : Transaction) : (withTransaction x s).ear = s.ear := rfl
@[simp] theorem withTransaction_flash (x : Transaction) :
    (withTransaction x s).flash = s.flash := rfl
@[simp] theorem withTransaction_t (x : Transaction) : (withTransaction x s).t = s.t := rfl
@[simp] theorem withTransaction_budget (x : Transaction) :
    (withTransaction x s).budget = s.budget := rfl
@[simp] theorem withTransaction_frameCycles (x : Transaction) :
    (withTransaction x s).frameCycles = s.frameCycles := rfl
@[simp] theorem withTransaction_nextLine (x : Transaction) :
    (withTransaction x s).nextLine = s.nextLine := rfl
@[simp] theorem withTransaction_inFrame (x : Transaction) :
    (withTransaction x s).inFrame = s.inFrame := rfl
@[simp] theorem withTransaction_powered (x : Transaction) :
    (withTransaction x s).powered = s.powered := rfl
@[simp] theorem withTransaction_faulted (x : Transaction) :
    (withTransaction x s).faulted = s.faulted := rfl
@[simp] theorem withTransaction_pressed (x : Transaction) :
    (withTransaction x s).pressed = s.pressed := rfl
@[simp] theorem withTransaction_mem (x : Transaction) : (withTransaction x s).mem = s.mem := rfl
@[simp] theorem withTransaction_trace (x : Transaction) :
    (withTransaction x s).trace = s.trace := rfl
@[simp] theorem withTransaction_published (x : Transaction) :
    (withTransaction x s).published = s.published := rfl
@[simp] theorem withTransaction_cfg (x : Transaction) : (withTransaction x s).cfg = s.cfg := rfl
@[simp] theorem withTransaction_replies (x : Transaction) :
    (withTransaction x s).replies = s.replies := rfl
@[simp] theorem withTransaction_cpu (x : Transaction) : (withTransaction x s).cpu = s.cpu := rfl
@[simp] theorem withTransaction_cpuDraws (x : Transaction) :
    (withTransaction x s).cpuDraws = s.cpuDraws := rfl
@[simp] theorem withTransaction_inbox (x : Transaction) :
    (withTransaction x s).inbox = x :: s.inbox := rfl

/-! ### requestCycles -/

@[simp] theorem requestCycles_fb (n : Nat) : (requestCycles n s).fb = s.fb := rfl
@[simp] theorem requestCycles_lineCounter (n : Nat) :
    (requestCycles n s).lineCounter = s.lineCounter := rfl
@[simp] theorem requestCycles_nmiEnabled (n : Nat) :
    (requestCycles n s).nmiEnabled = s.nmiEnabled := rfl
@[simp] theorem requestCycles_borderColor (n : Nat) :
    (requestCycles n s).borderColor = s.borderColor := rfl
@[simp] theorem requestCycles_mic (n : Nat) : (requestCycles n s).mic = s.mic := rfl
@[simp] theorem requestCycles_ear (n : Nat) : (requestCycles n s).ear = s.ear := rfl
@[simp] theorem requestCycles_flash (n : Nat) : (requestCycles n s).flash = s.flash := rfl
@[simp] theorem requestCycles_t (n : Nat) : (requestCycles n s).t = s.t := rfl
@[simp] theorem requestCycles_budget (n : Nat) :
    (requestCycles n s).budget = s.budget + (n : Int) := rfl
@[simp] theorem requestCycles_frameCycles (n : Nat) :
    (requestCycles n s).frameCycles = s.frameCycles + n := rfl
@[simp] theorem requestCycles_nextLine (n : Nat) : (requestCycles n s).nextLine = s.nextLine := rfl
@[simp] theorem requestCycles_inFrame (n : Nat) : (requestCycles n s).inFrame = s.inFrame := rfl
@[simp] theorem requestCycles_powered (n : Nat) : (requestCycles n s).powered = s.powered := rfl
@[simp] theorem requestCycles_faulted (n : Nat) : (requestCycles n s).faulted = s.faulted := rfl
@[simp] theorem requestCycles_pressed (n : Nat) : (requestCycles n s).pressed = s.pressed := rfl
@[simp] theorem requestCycles_mem (n : Nat) : (requestCycles n s).mem = s.mem := rfl
@[simp] theorem requestCycles_trace (n : Nat) :
    (requestCycles n s).trace = s.trace ++ [.proceed n] := rfl
@[simp] theorem requestCycles_published (n : Nat) :
    (requestCycles n s).published = s.published := rfl
@[simp] theorem requestCycles_cfg (n : Nat) : (requestCycles n s).cfg = s.cfg := rfl
@[simp] theorem requestCycles_replies (n : Nat) : (requestCycles n s).replies = s.replies := rfl
@[simp] theorem requestCycles_cpu (n : Nat) : (requestCycles n s).cpu = s.cpu := rfl
@[simp] theorem requestCycles_cpuDraws (n : Nat) : (requestCycles n s).cpuDraws = s.cpuDraws := rfl
@[simp] theorem requestCycles_inbox (n : Nat) : (requestCycles n s).inbox = s.inbox := rfl

/-! ### endRun -/

@[simp] theorem endRun_fb (b e : Nat) : (endRun b e s).fb = s.fb := rfl
@[simp] theorem endRun_lineCounter (b e : Nat) : (endRun b e s).lineCounter = s.lineCounter := rfl
@[simp] theorem endRun_nmiEnabled (b e : Nat) : (endRun b e s).nmiEnabled = s.nmiEnabled := rfl
@[simp] theorem endRun_borderColor (b e : Nat) : (endRun b e s).borderColor = s.borderColor := rfl
@[simp] theorem endRun_mic (b e : Nat) : (endRun b e s).mic = s.mic := rfl
@[simp] theorem endRun_ear (b e : Nat) : (endRun b e s).ear = s.ear := rfl
@[simp] theorem endRun_flash (b e : Nat) : (endRun b e s).flash = s.flash := rfl
@[simp] theorem endRun_t (b e : Nat) : (endRun b e s).t = s.t := rfl
@[simp] theorem endRun_budget (b e : Nat) : (endRun b e s).budget = (b : Int) - (e : Int) := rfl
@[simp] theorem endRun_frameCycles (b e : Nat) : (endRun b e s).frameCycles = s.frameCycles := rfl
@[simp] theorem endRun_nextLine (b e : Nat) : (endRun b e s).nextLine = s.nextLine := rfl
@[simp] theorem endRun_inFrame (b e : Nat) : (endRun b e s).inFrame = s.inFrame := rfl
@[simp] theorem endRun_powered (b e : Nat) : (endRun b e s).powered = s.powered := rfl
@[simp] theorem endRun_faulted (b e : Nat) : (endRun b e s).faulted = s.faulted := rfl
@[simp] theorem endRun_pressed (b e : Nat) : (endRun b e s).pressed = s.pressed := rfl
@[simp] theorem endRun_mem (b e : Nat) : (endRun b e s).mem = s.mem := rfl
@[simp] theorem endRun_trace (b e : Nat) : (endRun b e s).trace = s.trace ++ [.run b e] := rfl
@[simp] theorem endRun_published (b e : Nat) : (endRun b e s).published = s.published := rfl
@[simp] theorem endRun_cfg (b e : Nat) : (endRun b e s).cfg = s.cfg := rfl
@[simp] theorem endRun_replies (b e : Nat) : (endRun b e s).replies = s.replies := rfl
@[simp] theorem endRun_cpu (b e : Nat) : (endRun b e s).cpu = s.cpu := rfl
@[simp] theorem endRun_cpuDraws (b e : Nat) : (endRun b e s).cpuDraws = s.cpuDraws := rfl
@[simp] theorem endRun_inbox (b e : Nat) : (endRun b e s).inbox = s.inbox := rfl

/-! ### addTicks -/

@[simp] theorem addTicks_fb (n : Nat) : (addTicks n s).fb = s.fb := rfl
@[simp] theorem addTicks_lineCounter (n : Nat) : (addTicks n s).lineCounter = s.lineCounter := rfl
@[simp] theorem addTicks_nmiEnabled (n : Nat) : (addTicks n s).nmiEnabled = s.nmiEnabled := rfl
@[simp] theorem addTicks_borderColor (n : Nat) : (addTicks n s).borderColor = s.borderColor := rfl
@[simp] theorem addTicks_mic (n : Nat) : (addTicks n s).mic = s.mic := rfl
@[simp] theorem addTicks_ear (n : Nat) : (addTicks n s).ear = s.ear := rfl
@[simp] theorem addTicks_flash (n : Nat) : (addTicks n s).flash = s.flash := rfl
@[simp] theorem addTicks_t (n : Nat) : (addTicks n s).t = s.t + n := rfl
@[simp] theorem addTicks_budget (n : Nat) : (addTicks n s).budget = s.budget := rfl
@[simp] theorem addTicks_frameCycles (n : Nat) : (addTicks n s).frameCycles = s.frameCycles := rfl
@[simp] theorem addTicks_nextLine (n : Nat) : (addTicks n s).nextLine = s.nextLine := rfl
@[simp] theorem addTicks_inFrame (n : Nat) : (addTicks n s).inFrame = s.inFrame := rfl
@[simp] theorem addTicks_powered (n : Nat) : (addTicks n s).powered = s.powered := rfl
@[simp] theorem addTicks_faulted (n : Nat) : (addTicks n s).faulted = s.faulted := rfl
@[simp] theorem addTicks_pressed (n : Nat) : (addTicks n s).pressed = s.pressed := rfl
@[simp] theorem addTicks_mem (n : Nat) : (addTicks n s).mem = s.mem := rfl
@[simp] theorem addTicks_trace (n : Nat) : (addTicks n s).trace = s.trace := rfl
@[simp] theorem addTicks_published (n : Nat) : (addTicks n s).published = s.published := rfl
@[simp] theorem addTicks_cfg (n : Nat) : (addTicks n s).cfg = s.cfg := rfl
@[simp] theorem addTicks_replies (n : Nat) : (addTicks n s).replies = s.replies := rfl
@[simp] theorem addTicks_cpu (n : Nat) : (addTicks n s).cpu = s.cpu := rfl
@[simp] theorem addTicks_cpuDraws (n : Nat) : (addTicks n s).cpuDraws = s.cpuDraws := rfl
@[simp] theorem addTicks_inbox (n : Nat) : (addTicks n s).inbox = s.inbox := rfl

/-! ### countLine -/

@[simp] theorem countLine_fb : (countLine s).fb = s.fb := rfl
@[simp] theorem countLine_lineCounter : (countLine s).lineCounter = s.lineCounter + 1 := rfl
@[simp] theorem countLine_nmiEnabled : (countLine s).nmiEnabled = s.nmiEnabled := rfl
@[simp] theorem countLine_borderColor : (countLine s).borderColor = s.borderColor := rfl
@[simp] theorem countLine_mic : (countLine s).mic = s.mic := rfl
@[simp] theorem countLine_ear : (countLine s).ear = s.ear := rfl
@[simp] theorem countLine_flash : (countLine s).flash = s.flash := rfl
@[simp] theorem countLine_t : (countLine s).t = s.t := rfl
@[simp] theorem countLine_budget : (countLine s).budget = s.budget := rfl
@[simp] theorem countLine_frameCycles : (countLine s).frameCycles = s.frameCycles := rfl
@[simp] theorem countLine_nextLine : (countLine s).nextLine = s.nextLine := rfl
@[simp] theorem countLine_inFrame : (countLine s).inFrame = s.inFrame := rfl
@[simp] theorem countLine_powered : (countLine s).powered = s.powered := rfl
@[simp] theorem countLine_faulted : (countLine s).faulted = s.faulted := rfl
@[simp] theorem countLine_pressed : (countLine s).pressed = s.pressed := rfl
@[simp] theorem countLine_mem : (countLine s).mem = s.mem := rfl
@[simp] theorem countLine_trace : (countLine s).trace = s.trace := rfl
@[simp] theorem countLine_published : (countLine s).published = s.published := rfl
@[simp] theorem countLine_cfg : (countLine s).cfg = s.cfg := rfl
@[simp] theorem countLine_replies : (countLine s).replies = s.replies := rfl
@[simp] theorem countLine_cpu : (countLine s).cpu = s.cpu := rfl
@[simp] theorem countLine_cpuDraws : (countLine s).cpuDraws = s.cpuDraws := rfl
@[simp] theorem countLine_inbox : (countLine s).inbox = s.inbox := rfl

/-! ### setNextLine -/

@[simp] theorem setNextLine_fb (y : Nat) : (setNextLine y s).fb = s.fb := rfl
@[simp] theorem setNextLine_lineCounter (y : Nat) :
    (setNextLine y s).lineCounter = s.lineCounter := rfl
@[simp] theorem setNextLine_nmiEnabled (y : Nat) :
    (setNextLine y s).nmiEnabled = s.nmiEnabled := rfl
@[simp] theorem setNextLine_borderColor (y : Nat) :
    (setNextLine y s).borderColor = s.borderColor := rfl
@[simp] theorem setNextLine_mic (y : Nat) : (setNextLine y s).mic = s.mic := rfl
@[simp] theorem setNextLine_ear (y : Nat) : (setNextLine y s).ear = s.ear := rfl
@[simp] theorem setNextLine_flash (y : Nat) : (setNextLine y s).flash = s.flash := rfl
@[simp] theorem setNextLine_t (y : Nat) : (setNextLine y s).t = s.t := rfl
@[simp] theorem setNextLine_budget (y : Nat) : (setNextLine y s).budget = s.budget := rfl
@[simp] theorem setNextLine_frameCycles (y : Nat) :
    (setNextLine y s).frameCycles = s.frameCycles := rfl
@[simp] theorem setNextLine_nextLine (y : Nat) : (setNextLine y s).nextLine = y := rfl
@[simp] theorem setNextLine_inFrame (y : Nat) : (setNextLine y s).inFrame = s.inFrame := rfl
@[simp] theorem setNextLine_powered (y : Nat) : (setNextLine y s).powered = s.powered := rfl
@[simp] theorem setNextLine_faulted (y : Nat) : (setNextLine y s).faulted = s.faulted := rfl
@[simp] theorem setNextLine_pressed (y : Nat) : (setNextLine y s).pressed = s.pressed := rfl
@[simp] theorem setNextLine_mem (y : Nat) : (setNextLine y s).mem = s.mem := rfl
@[simp] theorem setNextLine_trace (y : Nat) : (setNextLine y s).trace = s.trace := rfl
@[simp] theorem setNextLine_published (y : Nat) : (setNextLine y s).published = s.published := rfl
@[simp] theorem setNextLine_cfg (y : Nat) : (setNextLine y s).cfg = s.cfg := rfl
@[simp] theorem setNextLine_replies (y : Nat) : (setNextLine y s).replies = s.replies := rfl
@[simp] theorem setNextLine_cpu (y : Nat) : (setNextLine y s).cpu = s.cpu := rfl
@[simp] theorem setNextLine_cpuDraws (y : Nat) : (setNextLine y s).cpuDraws = s.cpuDraws := rfl
@[simp] theorem setNextLine_inbox (y : Nat) : (setNextLine y s).inbox = s.inbox := rfl

/-! ### endFrame -/

@[simp] theorem endFrame_fb : (endFrame s).fb = s.fb := rfl
@[simp] theorem endFrame_lineCounter : (endFrame s).lineCounter = s.lineCounter := rfl
@[simp] theorem endFrame_nmiEnabled : (endFrame s).nmiEnabled = s.nmiEnabled := rfl
@[simp] theorem endFrame_borderColor : (endFrame s).borderColor = s.borderColor := rfl
@[simp] theorem endFrame_mic : (endFrame s).mic = s.mic := rfl
@[simp] theorem endFrame_ear : (endFrame s).ear = s.ear := rfl
@[simp] theorem endFrame_flash : (endFrame s).flash = s.flash := rfl
@[simp] theorem endFrame_t : (endFrame s).t = s.t := rfl
@[simp] theorem endFrame_budget : (endFrame s).budget = s.budget := rfl
@[simp] theorem endFrame_frameCycles : (endFrame s).frameCycles = s.frameCycles := rfl
@[simp] theorem endFrame_nextLine : (endFrame s).nextLine = s.nextLine := rfl
@[simp] theorem endFrame_inFrame : (endFrame s).inFrame = false := rfl
@[simp] theorem endFrame_powered : (endFrame s).powered = s.powered := rfl
@[simp] theorem endFrame_faulted : (endFrame s).faulted = s.faulted := rfl
@[simp] theorem endFrame_pressed : (endFrame s).pressed = s.pressed := rfl
@[simp] theorem endFrame_mem : (endFrame s).mem = s.mem := rfl
@[simp] theorem endFrame_trace : (endFrame s).trace = s.trace := rfl
@[simp] theorem endFrame_published : (endFrame s).published = s.published := rfl
@[simp] theorem endFrame_cfg : (endFrame s).cfg = s.cfg := rfl
@[simp] theorem endFrame_replies : (endFrame s).replies = s.replies := rfl
@[simp] theorem endFrame_cpu : (endFrame s).cpu = s.cpu := rfl
@[simp] theorem endFrame_cpuDraws : (endFrame s).cpuDraws = s.cpuDraws := rfl
@[simp] theorem endFrame_inbox : (endFrame s).inbox = s.inbox := rfl

end Sys2Proof.Machine
end

