-- ==== Sys2Proof/Laws/Sparse.lean ====
section
/-! SUPPORT. The sparse stores and the press set: read after write, and that every operation keeps
the canonical form. -/

namespace Sys2Proof.Machine

variable {α : Type}

theorem sparseGet_filter_ne (d : Nat → α) (m : List (Nat × α)) {a b : Nat} (h : b ≠ a) :
    sparseGet d (m.filter fun p => p.1 != a) b = sparseGet d m b := by
  induction m with
  | nil => rfl
  | cons p m ih =>
    by_cases hp : p.1 = a
    · simp [hp, sparseGet, ih, Ne.symm h]
    · simp [hp, sparseGet, ih]

theorem sparseGet_filter_self (d : Nat → α) (m : List (Nat × α)) (a : Nat) :
    sparseGet d (m.filter fun p => p.1 != a) a = d a := by
  induction m with
  | nil => rfl
  | cons p m ih => by_cases hp : p.1 = a <;> simp [hp, sparseGet, ih]

theorem sparseGet_insert_ne (d : Nat → α) (m : List (Nat × α)) {p : Nat × α} {b : Nat}
    (h : b ≠ p.1) : sparseGet d (sparseInsert p m) b = sparseGet d m b := by
  induction m with
  | nil => simp [sparseInsert, sparseGet, Ne.symm h]
  | cons q m ih =>
    by_cases hq : p.1 ≤ q.1
    · simp [sparseInsert, hq, sparseGet, Ne.symm h]
    · simp [sparseInsert, hq, sparseGet, ih]

theorem sparseGet_insert_self (d : Nat → α) (m : List (Nat × α)) (p : Nat × α)
    (h : ∀ q ∈ m, q.1 ≠ p.1) : sparseGet d (sparseInsert p m) p.1 = p.2 := by
  induction m with
  | nil => simp [sparseInsert, sparseGet]
  | cons q m ih =>
    by_cases hq : p.1 ≤ q.1
    · simp [sparseInsert, hq, sparseGet]
    · have hne : q.1 ≠ p.1 := h q (by simp)
      simp [sparseInsert, hq, sparseGet, hne, ih fun r hr => h r (by simp [hr])]

/-- A read after a write: the written key gives the value written, every other key what it gave. -/
@[simp] theorem sparseGet_put [DecidableEq α] (d : Nat → α) (m : List (Nat × α)) (a b : Nat)
    (v : α) : sparseGet d (sparsePut d m a v) b = if b = a then v else sparseGet d m b := by
  by_cases hb : b = a
  · subst hb
    by_cases hv : v = d b
    · simp [sparsePut, hv, sparseGet_filter_self]
    · simpa [sparsePut, hv] using sparseGet_insert_self d _ (b, v)
        (fun q hq => by simpa using (List.mem_filter.mp hq).2)
  · by_cases hv : v = d a
    · simp [sparsePut, hv, hb, sparseGet_filter_ne d m hb]
    · simp only [sparsePut, hv, if_false, hb]
      rw [sparseGet_insert_ne d _ (by simpa using hb), sparseGet_filter_ne d m hb]

theorem keysRise_tail {p : Nat × α} {m : List (Nat × α)} (h : keysRise (p :: m) = true) :
    keysRise m = true := by
  cases m with
  | nil => rfl
  | cons q m => simp [keysRise] at h; exact h.2

theorem keysRise_lt {p : Nat × α} {m : List (Nat × α)} (h : keysRise (p :: m) = true) :
    ∀ q ∈ m, p.1 < q.1 := by
  induction m generalizing p with
  | nil => simp
  | cons r m ih =>
    simp [keysRise] at h
    intro q hq
    rcases List.mem_cons.mp hq with rfl | hq
    · exact h.1
    · exact lt_trans h.1 (ih h.2 q hq)

theorem keysRise_cons {p : Nat × α} {m : List (Nat × α)} (h : keysRise m = true)
    (hp : ∀ q ∈ m, p.1 < q.1) : keysRise (p :: m) = true := by
  cases m with
  | nil => rfl
  | cons q m => simp [keysRise, h, hp q (by simp)]

theorem keysRise_filter (f : Nat × α → Bool) {m : List (Nat × α)} (h : keysRise m = true) :
    keysRise (m.filter f) = true := by
  induction m with
  | nil => rfl
  | cons p m ih =>
    by_cases hp : f p
    · simp only [List.filter_cons, hp, if_true]
      exact keysRise_cons (ih (keysRise_tail h)) fun q hq =>
        keysRise_lt h q (List.mem_of_mem_filter hq)
    · simpa [List.filter_cons, hp] using ih (keysRise_tail h)

theorem mem_sparseInsert {p r : Nat × α} {m : List (Nat × α)} :
    r ∈ sparseInsert p m ↔ r = p ∨ r ∈ m := by
  induction m with
  | nil => simp [sparseInsert]
  | cons q m ih =>
    by_cases hq : p.1 ≤ q.1
    · simp [sparseInsert, hq]
    · simp only [sparseInsert, hq, if_false, List.mem_cons, ih]
      tauto

theorem keysRise_insert {p : Nat × α} {m : List (Nat × α)} (h : keysRise m = true)
    (hp : ∀ q ∈ m, q.1 ≠ p.1) : keysRise (sparseInsert p m) = true := by
  induction m with
  | nil => rfl
  | cons q m ih =>
    have hne : q.1 ≠ p.1 := hp q (by simp)
    by_cases hq : p.1 ≤ q.1
    · simp only [sparseInsert, hq, if_true]
      refine keysRise_cons h fun r hr => ?_
      rcases List.mem_cons.mp hr with rfl | hr
      · omega
      · exact lt_of_le_of_lt hq (keysRise_lt h r hr)
    · simp only [sparseInsert, hq, if_false]
      refine keysRise_cons (ih (keysRise_tail h) fun r hr => hp r (by simp [hr])) fun r hr => ?_
      rcases mem_sparseInsert.mp hr with rfl | hr
      · omega
      · exact keysRise_lt h r hr

/-- A write below the bound keeps the canonical form. -/
theorem sparsePut_wf [DecidableEq α] {d : Nat → α} {bound : Nat} {m : List (Nat × α)} {a : Nat}
    (v : α) (h : sparseWf d bound m = true) (ha : a < bound) :
    sparseWf d bound (sparsePut d m a v) = true := by
  simp only [sparseWf, Bool.and_eq_true, List.all_eq_true] at h ⊢
  have hf : ∀ p ∈ m.filter (fun p => p.1 != a), p ∈ m := fun p hp => List.mem_of_mem_filter hp
  by_cases hv : v = d a
  · simp only [sparsePut, hv, if_true]
    exact ⟨keysRise_filter _ h.1, fun p hp => h.2 p (hf p hp)⟩
  · simp only [sparsePut, hv, if_false]
    refine ⟨keysRise_insert (keysRise_filter _ h.1)
      (fun q hq => by simpa using (List.mem_filter.mp hq).2), fun p hp => ?_⟩
    rcases mem_sparseInsert.mp hp with rfl | hp
    · simp [ha, hv]
    · exact h.2 p (hf p hp)

/-- A write to RAM keeps memory's canonical form. -/
theorem ramPut_wf {s : State} {off : Nat} (v : Byte) (h : Memory.wf s.cfg s.mem = true)
    (hoff : ramBase + off < s.cfg.ramEnd) : Memory.wf s.cfg (ramPut off v s).mem = true :=
  sparsePut_wf v h hoff

/-- A write to ROM keeps memory's canonical form. -/
theorem romPut_wf {s : State} {off : Nat} (v : Byte) (h : Memory.wf s.cfg s.mem = true)
    (hoff : off < s.cfg.ramEnd) : Memory.wf s.cfg (romPut off v s).mem = true :=
  sparsePut_wf v h hoff

/-- Memory with nothing listed, which POWER_RAISE leaves, has the canonical form. -/
theorem Memory.wf_nil (c : Config) : Memory.wf c [] = true := rfl

/-- The memory after reset has the canonical form. -/
theorem reset_mem_wf : Memory.wf State.reset.cfg State.reset.mem = true := rfl

/-- A pixel write inside the raster keeps the framebuffer's canonical form. -/
theorem fbPut_wf {s : State} {i : Nat} (v : Colour) (h : fbWf s.cfg s.fb = true)
    (hi : i < fbSize s.cfg) : fbWf s.cfg (fbPut i v s).fb = true :=
  sparsePut_wf v h hi

@[simp] theorem romByte_ramPut (s : State) (off i : Nat) (v : Byte) :
    romByte (ramPut off v s) i = if i = ramBase + off then v else romByte s i := by
  simp [romByte]

@[simp] theorem ramByte_ramPut (s : State) (off i : Nat) (v : Byte) :
    ramByte (ramPut off v s) i = if i = off then v else ramByte s i := by
  simp [ramByte]

@[simp] theorem romByte_romPut (s : State) (off i : Nat) (v : Byte) :
    romByte (romPut off v s) i = if i = off then v else romByte s i := by
  simp [romByte]

@[simp] theorem ramByte_romPut (s : State) (off i : Nat) (v : Byte) :
    ramByte (romPut off v s) i = if ramBase + i = off then v else ramByte s i := by
  simp [ramByte]

@[simp] theorem fbCell_fbPut (s : State) (i j : Nat) (v : Colour) :
    fbCell (fbPut i v s) j = if j = i then v else fbCell s j := by
  simp [fbCell]

/-! ### The press set -/

theorem mem_keyInsert {j k : RawKey} {ks : List RawKey} : j ∈ keyInsert k ks ↔ j = k ∨ j ∈ ks := by
  induction ks with
  | nil => simp [keyInsert]
  | cons i ks ih =>
    by_cases h1 : k < i
    · simp [keyInsert, h1]
    · by_cases h2 : k = i
      · simp [keyInsert, h2]
      · simp only [keyInsert, h1, h2, if_false, List.mem_cons, ih]
        tauto

theorem mem_keyRemove {j k : RawKey} {ks : List RawKey} : j ∈ keyRemove k ks ↔ j ≠ k ∧ j ∈ ks := by
  simp [keyRemove, and_comm]

theorem keysWf_iff {ks : List RawKey} : keysWf ks = true ↔ ks.Pairwise (· < ·) := by
  induction ks with
  | nil => simp [keysWf]
  | cons i ks ih =>
    cases ks with
    | nil => simp [keysWf]
    | cons j ks =>
      rw [keysWf, Bool.and_eq_true, ih, decide_eq_true_eq, List.pairwise_cons (a := i)]
      refine ⟨fun h => ⟨fun a ha => ?_, h.2⟩, fun h => ⟨h.1 j (by simp), h.2⟩⟩
      rcases List.mem_cons.mp ha with rfl | ha
      · exact h.1
      · exact lt_trans h.1 ((List.pairwise_cons.mp h.2).1 a ha)

theorem keyInsert_wf {ks : List RawKey} (k : RawKey) (h : keysWf ks = true) :
    keysWf (keyInsert k ks) = true := by
  rw [keysWf_iff] at h ⊢
  induction ks with
  | nil => simp [keyInsert]
  | cons i ks ih =>
    obtain ⟨hi, hks⟩ := List.pairwise_cons.mp h
    by_cases h1 : k < i
    · simp only [keyInsert, h1, if_true]
      refine List.pairwise_cons.mpr ⟨fun a ha => ?_, h⟩
      rcases List.mem_cons.mp ha with rfl | ha
      · exact h1
      · exact lt_trans h1 (hi a ha)
    · by_cases h2 : k = i
      · simpa [keyInsert, h2] using h
      · simp only [keyInsert, h1, h2, if_false]
        refine List.pairwise_cons.mpr ⟨fun a ha => ?_, ih hks⟩
        rcases mem_keyInsert.mp ha with rfl | ha
        · exact lt_of_le_of_ne (not_lt.mp h1) (Ne.symm h2)
        · exact hi a ha

theorem keyRemove_wf {ks : List RawKey} (k : RawKey) (h : keysWf ks = true) :
    keysWf (keyRemove k ks) = true := by
  rw [keysWf_iff] at h ⊢
  exact h.filter _

end Sys2Proof.Machine
end

