-- ==== Sys2Proof/Laws/Clock.lean ====
section
/-! SUPPORT. What a CPU transaction, a CPU run, PROCEED and TICK can do: one lemma per operation that
says all of it, for the proofs about lines and frames to cite. -/

namespace Sys2Proof.Machine

/-! ### Sums over a trace -/

@[simp] theorem requested_append (es fs : List Event) :
    requested (es ++ fs) = requested es + requested fs := by
  induction es with
  | nil => simp [requested]
  | cons e es ih => cases e <;> simp [requested, ih, Nat.add_assoc]

@[simp] theorem executed_append (es fs : List Event) :
    executed (es ++ fs) = executed es + executed fs := by
  induction es with
  | nil => simp [executed]
  | cons e es ih => cases e <;> simp [executed, ih, Nat.add_assoc]

@[simp] theorem pulses_append (es fs : List Event) : pulses (es ++ fs) = pulses es + pulses fs := by
  simp [pulses]

/-! ### One transaction -/

/-- A write stores one RAM byte or is discarded. -/
theorem memStore_cases (a : Addr) (v : Byte) (s : State) :
    memStore a v s = s ∨ ∃ off, off < 0x4000 ∧ memStore a v s = ramPut off v s := by
  have hmask : ∀ x : Addr, (x &&& 0x3FFF#16).toNat < 0x4000 := fun x => by
    rw [BitVec.toNat_and]
    exact Nat.lt_succ_of_le Nat.and_le_right
  simp only [memStore, mapAddr]
  split
  · exact .inl rfl
  split
  · exact .inr ⟨_, hmask _, rfl⟩
  · exact .inl rfl

/-- What the answers to CPU transactions can do: the frame, nothing to the framebuffer, the counters
of the clock or the position, only `INT_LOWER` events, and memory keeps its canonical form. -/
structure Answered (s s' : State) : Prop extends CpuFrame s s' where
  fb : s'.fb = s.fb
  t : s'.t = s.t
  budget : s'.budget = s.budget
  frameCycles : s'.frameCycles = s.frameCycles
  nextLine : s'.nextLine = s.nextLine
  events : ∃ es, s'.trace = s.trace ++ es ∧ ∀ e ∈ es, e = .intLower
  memWf : 0x6000 ≤ s.cfg.ramEnd → Memory.wf s.cfg s.mem = true → Memory.wf s.cfg s'.mem = true

theorem CpuFrame.refl (s : State) : CpuFrame s s := by
  constructor <;> first | rfl | exact fun _ _ => rfl

theorem CpuFrame.trans {a b c : State} (h : CpuFrame a b) (k : CpuFrame b c) : CpuFrame a c where
  cfg := k.cfg.trans h.cfg
  flash := k.flash.trans h.flash
  inFrame := k.inFrame.trans h.inFrame
  powered := k.powered.trans h.powered
  faulted := k.faulted.trans h.faulted
  pressed := k.pressed.trans h.pressed
  published := k.published.trans h.published
  inbox := k.inbox.trans h.inbox
  rom off ho := (k.rom off ho).trans (h.rom off ho)
  trace := h.trace.trans k.trace
  replies := h.replies.trans k.replies

theorem Answered.refl (s : State) : Answered s s where
  toCpuFrame := .refl s
  fb := rfl
  t := rfl
  budget := rfl
  frameCycles := rfl
  nextLine := rfl
  events := ⟨[], by simp⟩
  memWf _ h := h

theorem Answered.trans {a b c : State} (h : Answered a b) (k : Answered b c) : Answered a c where
  toCpuFrame := h.toCpuFrame.trans k.toCpuFrame
  fb := k.fb.trans h.fb
  t := k.t.trans h.t
  budget := k.budget.trans h.budget
  frameCycles := k.frameCycles.trans h.frameCycles
  nextLine := k.nextLine.trans h.nextLine
  events := by
    obtain ⟨es, he, hes⟩ := h.events
    obtain ⟨fs, hf, hfs⟩ := k.events
    exact ⟨es ++ fs, by simp [hf, he], fun e hm =>
      (List.mem_append.mp hm).elim (hes e) (hfs e)⟩
  memWf hr hm := by
    have := k.memWf (by rw [h.cfg]; exact hr) (by rw [h.cfg]; exact h.memWf hr hm)
    rwa [h.cfg] at this

theorem reply_answered (v : Byte) (s : State) : Answered s (reply v s) where
  toCpuFrame := { CpuFrame.refl s with replies := List.prefix_append _ _ }
  fb := rfl
  t := rfl
  budget := rfl
  frameCycles := rfl
  nextLine := rfl
  events := ⟨[], by simp⟩
  memWf _ h := h

theorem readSideEffect_answered (s : State) : Answered s (readSideEffect s) := by
  unfold readSideEffect
  split
  · exact .refl s
  · exact { Answered.refl s with }

theorem portWriteEffect_answered (port d : Byte) (s : State) :
    Answered s (portWriteEffect port d s) := { Answered.refl s with }

theorem instrDone_answered (r : Byte) (s : State) : Answered s (instrDone r s) := by
  unfold instrDone
  split
  · exact { Answered.refl s with
      trace := List.prefix_append _ _
      events := ⟨[.intLower], by simp⟩ }
  · exact .refl s

theorem ramPut_answered {off : Nat} (v : Byte) (s : State) (h : off < 0x4000) :
    Answered s (ramPut off v s) :=
  { Answered.refl s with
    rom := fun i hi => by simp only [romByte_ramPut]; rw [if_neg (by omega)]
    memWf := fun hr hm => ramPut_wf v hm (by simp only [ramBase]; omega) }

theorem memStore_answered (a : Addr) (v : Byte) (s : State) : Answered s (memStore a v s) := by
  rcases memStore_cases a v s with h | ⟨off, ho, h⟩ <;> rw [h]
  · exact .refl s
  · exact ramPut_answered v s ho

/-- The block's answer to any CPU transaction. -/
theorem answer_answered (x : CpuTxn) (s : State) : Answered s (answer s x) := by
  cases x with
  | pr a =>
    simp only [answer]
    split
    · exact reply_answered _ s
    · exact (reply_answered _ s).trans (readSideEffect_answered _)
  | pw a d => exact portWriteEffect_answered _ _ s
  | mr a phase => exact reply_answered _ s
  | mw a d => exact memStore_answered a d s
  | id r => exact instrDone_answered r s
  | ip => exact .refl s

theorem answerAll_answered (xs : List CpuTxn) (s : State) : Answered s (answerAll xs s) := by
  induction xs generalizing s with
  | nil => exact .refl s
  | cons x xs ih => exact (answer_answered x s).trans (ih _)

/-! ### The run -/

theorem takeCpuInstr_answered (s : State) : Answered s (takeCpuInstr s).2 := by
  unfold takeCpuInstr
  split <;> exact { Answered.refl s with }

theorem cyclesOf_pos (c : Config) (i : CpuInstr) : 1 ≤ cyclesOf c i := by simp [cyclesOf]

theorem cyclesOf_le {c : Config} (h : 1 ≤ c.maxOverrun) (i : CpuInstr) :
    cyclesOf c i ≤ c.maxOverrun := by
  simp only [cyclesOf]
  omega

theorem cpuLoop_answered (b : Nat) (fuel done : Nat) (s : State) :
    Answered s (cpuLoop b fuel done s).2 := by
  induction fuel generalizing done s with
  | zero => exact .refl s
  | succ fuel ih =>
    have h := (takeCpuInstr_answered s).trans (answerAll_answered (takeCpuInstr s).1.txns _)
    simp only [cpuLoop]
    split
    · exact h
    · exact h.trans (ih _ _)

theorem cpuLoop_cycles {b : Nat} {c : Config} (hc : 1 ≤ c.maxOverrun) (fuel done : Nat) (s : State)
    (hs : s.cfg = c) (hd : done < b) (hf : b ≤ done + fuel) :
    b ≤ (cpuLoop b fuel done s).1 ∧ (cpuLoop b fuel done s).1 < b + c.maxOverrun := by
  induction fuel generalizing done s with
  | zero => omega
  | succ fuel ih =>
    have h := (takeCpuInstr_answered s).trans (answerAll_answered (takeCpuInstr s).1.txns _)
    have h1 := cyclesOf_pos s.cfg (takeCpuInstr s).1
    have h2 := cyclesOf_le (c := s.cfg) (by rw [hs]; exact hc) (takeCpuInstr s).1
    simp only [cpuLoop]
    split
    · rw [hs] at h2 ⊢
      rw [hs] at *
      omega
    · exact ih _ _ (h.cfg.trans hs) (by omega) (by omega)

theorem cpuLoop_enough {b : Nat} (fuel done : Nat) (s : State) (hf : b ≤ done + fuel) :
    b ≤ (cpuLoop b fuel done s).1 := by
  induction fuel generalizing done s with
  | zero => exact hf
  | succ fuel ih =>
    have h1 := cyclesOf_pos s.cfg (takeCpuInstr s).1
    simp only [cpuLoop]
    split
    · assumption
    · exact ih _ _ (by omega)

/-- `CPU.run(b)` executes at least its budget, whatever `MAX_OVERRUN` is. -/
theorem cpuRun_enough (b : Nat) (s : State) : b ≤ (cpuRun b s).1 :=
  cpuLoop_enough b 0 s (by omega)

/-- The contract of `CPU.run(b)`: at least the budget, and less than `MAX_OVERRUN` beyond it. -/
theorem cpuRun_cycles {b : Nat} {s : State} (hc : 1 ≤ s.cfg.maxOverrun) (hb : 1 ≤ b) :
    b ≤ (cpuRun b s).1 ∧ (cpuRun b s).1 < b + s.cfg.maxOverrun :=
  cpuLoop_cycles hc b 0 s rfl (by omega) (by omega)

theorem cpuRun_answered (b : Nat) (s : State) : Answered s (cpuRun b s).2 :=
  cpuLoop_answered b b 0 s

/-! ### PROCEED and TICK -/

/-- What `n` ticks can do, however they are split into calls: the frame, the ticks kept as
cycles requested and remainder, every requested cycle in the trace, the balance of requested against
executed cycles, and the canonical form of memory. -/
structure Ticked (n : Nat) (s s' : State) : Prop extends CpuFrame s s' where
  ticks : 2 * s'.frameCycles + s'.t = 2 * s.frameCycles + s.t + n
  rest : s.t ≤ 1 → s'.t ≤ 1
  asked : requested s'.trace + s.frameCycles = requested s.trace + s'.frameCycles
  balance : (requested s'.trace : Int) - executed s'.trace - s'.budget
    = requested s.trace - executed s.trace - s.budget
  memWf : 0x6000 ≤ s.cfg.ramEnd → Memory.wf s.cfg s.mem = true → Memory.wf s.cfg s'.mem = true

theorem Ticked.refl (s : State) : Ticked 0 s s where
  toCpuFrame := .refl s
  ticks := by omega
  rest h := h
  asked := rfl
  balance := rfl
  memWf _ h := h

theorem Ticked.trans {n m : Nat} {a b c : State} (h : Ticked n a b) (k : Ticked m b c) :
    Ticked (n + m) a c where
  toCpuFrame := h.toCpuFrame.trans k.toCpuFrame
  ticks := by have := h.ticks; have := k.ticks; omega
  rest ha := k.rest (h.rest ha)
  asked := by have := h.asked; have := k.asked; omega
  balance := k.balance.trans h.balance
  memWf hr hm := by
    have := k.memWf (by rw [h.cfg]; exact hr) (by rw [h.cfg]; exact h.memWf hr hm)
    rwa [h.cfg] at this

theorem requested_intLower {es : List Event} (h : ∀ e ∈ es, e = .intLower) : requested es = 0 := by
  induction es with
  | nil => rfl
  | cons e es ih =>
    rw [h e (by simp)]
    exact ih fun e he => h e (by simp [he])

theorem executed_intLower {es : List Event} (h : ∀ e ∈ es, e = .intLower) : executed es = 0 := by
  induction es with
  | nil => rfl
  | cons e es ih =>
    rw [h e (by simp)]
    exact ih fun e he => h e (by simp [he])

theorem pulses_intLower {es : List Event} (h : ∀ e ∈ es, e = .intLower) : pulses es = 0 := by
  simp only [pulses, List.countP_eq_zero]
  intro e he
  simp [h e he]

/-- PROCEED's second half: no run on a budget that is not positive, else one run whose events are
`INT_LOWER`s and then its RUN, and whose excess is carried. -/
theorem spendBudget_cases (s : State) :
    (s.budget ≤ 0 ∧ spendBudget s = s) ∨
    ∃ b : Nat, ∃ e s1, 1 ≤ b ∧ s.budget = (b : Int) ∧ cpuRun b s = (e, s1) ∧ Answered s s1 ∧
      spendBudget s = endRun b e s1 := by
  by_cases h : 0 < s.budget
  · refine .inr ⟨s.budget.toNat, (cpuRun s.budget.toNat s).1, (cpuRun s.budget.toNat s).2, by omega,
      by omega, rfl, cpuRun_answered _ s, ?_⟩
    simp [spendBudget, h]
  · exact .inl ⟨by omega, by simp [spendBudget, h]⟩

/-- What PROCEED(n) can do. -/
structure Proceeded (n : Nat) (s s' : State) : Prop extends CpuFrame s s' where
  fb : s'.fb = s.fb
  nextLine : s'.nextLine = s.nextLine
  t : s'.t = s.t
  frameCycles : s'.frameCycles = s.frameCycles + n
  asked : requested s'.trace = requested s.trace + n
  balance : (requested s'.trace : Int) - executed s'.trace - s'.budget
    = requested s.trace - executed s.trace - s.budget
  pulses : pulses s'.trace = pulses s.trace
  memWf : 0x6000 ≤ s.cfg.ramEnd → Memory.wf s.cfg s.mem = true → Memory.wf s.cfg s'.mem = true
  first : s.trace ++ [.proceed n] <+: s'.trace

theorem requestCycles_proceeded (n : Nat) (s : State) : Proceeded n s (requestCycles n s) :=
  { CpuFrame.refl s with
    trace := List.prefix_append _ _
    fb := rfl
    nextLine := rfl
    t := rfl
    frameCycles := rfl
    asked := by simp [requested]
    balance := by simp [requested, executed]; omega
    pulses := by simp [Machine.pulses]
    memWf := fun _ hm => hm
    first := by simp }

theorem proceed_proceeded (n : Nat) (s : State) : Proceeded n s (proceed n s) := by
  have hf := requestCycles_proceeded n s
  rcases spendBudget_cases (requestCycles n s) with ⟨-, h⟩ | ⟨b, e, s1, -, hb, -, ha, h⟩
  · rw [proceed, h]; exact hf
  · obtain ⟨es, he, hes⟩ := ha.events
    have hg := hf.toCpuFrame.trans ha.toCpuFrame
    have hr := requested_intLower hes
    have hx := executed_intLower hes
    have hp := pulses_intLower hes
    rw [proceed, h]
    exact {
      cfg := hg.cfg
      flash := hg.flash
      inFrame := hg.inFrame
      powered := hg.powered
      faulted := hg.faulted
      pressed := hg.pressed
      published := hg.published
      inbox := hg.inbox
      rom := hg.rom
      trace := hg.trace.trans (by simp)
      replies := hg.replies
      fb := ha.fb
      nextLine := ha.nextLine
      t := ha.t
      frameCycles := ha.frameCycles
      asked := by simp [he, requested, hr]
      balance := by
        simp only [requestCycles_budget] at hb
        simp [he, requested, executed, hr, hx]
        omega
      pulses := by
        simp only [endRun_trace, he, requestCycles_trace, pulses_append, hp]
        simp [Machine.pulses]
      memWf := ha.memWf
      first := by simp [he] }

/-- A PROCEED keeps the budget's bound (R98). -/
theorem proceed_budget {n : Nat} {s : State} (hM : 1 ≤ s.cfg.maxOverrun)
    (hlo : -(s.cfg.maxOverrun : Int) < s.budget) :
    -(s.cfg.maxOverrun : Int) < (proceed n s).budget ∧ (proceed n s).budget ≤ 0 := by
  rcases spendBudget_cases (requestCycles n s) with ⟨hle, h⟩ | ⟨b, e, s1, hb1, hb, hrun, -, h⟩
  · rw [proceed, h]
    simp only [requestCycles_budget] at hle ⊢
    omega
  · have := cpuRun_cycles (s := requestCycles n s) hM hb1
    rw [hrun] at this
    simp only [requestCycles_cfg] at this
    rw [proceed, h, endRun_budget]
    omega

/-- A PROCEED adds only events the block can emit (R36). -/
theorem proceed_legal {n : Nat} {s : State} (hn : 1 ≤ n) (hM : 1 ≤ s.cfg.maxOverrun)
    (ht : ∀ e ∈ s.trace, e.legal s.cfg.maxOverrun = true) :
    ∀ e ∈ (proceed n s).trace, e.legal s.cfg.maxOverrun = true := by
  rcases spendBudget_cases (requestCycles n s) with ⟨-, h⟩ | ⟨b, e, s1, hb1, hb, hrun, ha, h⟩
  · rw [proceed, h]
    intro x hx
    simp only [requestCycles_trace, List.mem_append, List.mem_singleton] at hx
    rcases hx with hx | rfl
    · exact ht x hx
    · simpa [Event.legal] using hn
  · obtain ⟨es, he, hes⟩ := ha.events
    have hc := cpuRun_cycles (s := requestCycles n s) hM hb1
    rw [hrun] at hc
    simp only [requestCycles_cfg] at hc
    rw [proceed, h]
    intro x hx
    simp only [endRun_trace, he, requestCycles_trace, List.mem_append, List.mem_singleton] at hx
    rcases hx with ((hx | rfl) | hx) | rfl
    · exact ht x hx
    · simpa [Event.legal] using hn
    · rw [hes x hx]; rfl
    · simp only [Event.legal, decide_eq_true_eq]
      omega

/-- TICK(n) by the number of whole cycles it makes. -/
theorem tick_cases (n : Nat) (s : State) :
    (s.t + n < 2 ∧ tick n s = addTicks n s) ∨
    (1 ≤ (s.t + n) / 2 ∧
      tick n s = { proceed ((s.t + n) / 2) (addTicks n s) with t := (s.t + n) % 2 }) := by
  by_cases h : 1 ≤ (s.t + n) / 2
  · refine .inr ⟨h, ?_⟩
    have ht := (proceed_proceeded ((s.t + n) / 2) (addTicks n s)).t
    simp only [addTicks_t] at ht
    simp only [tick, addTicks_t, h, if_true, ht]
    congr 1
    omega
  · exact .inl ⟨by omega, by simp [tick, h]⟩

@[simp] theorem tick_fb (n : Nat) (s : State) : (tick n s).fb = s.fb := by
  rcases tick_cases n s with ⟨-, h⟩ | ⟨-, h⟩
  · rw [h]; rfl
  · rw [h]; exact (proceed_proceeded _ _).fb

theorem tick_t (n : Nat) (s : State) : (tick n s).t = (s.t + n) % 2 := by
  rcases tick_cases n s with ⟨hlt, h⟩ | ⟨-, h⟩
  · rw [h, addTicks_t]; omega
  · rw [h]

theorem tick_frameCycles (n : Nat) (s : State) :
    (tick n s).frameCycles = s.frameCycles + (s.t + n) / 2 := by
  rcases tick_cases n s with ⟨hlt, h⟩ | ⟨-, h⟩
  · rw [h, addTicks_frameCycles]; omega
  · rw [h]; exact (proceed_proceeded _ _).frameCycles

/-- All that TICK(n) can do. -/
theorem tick_ticked (n : Nat) (s : State) : Ticked n s (tick n s) := by
  have ht := tick_t n s
  have hf := tick_frameCycles n s
  rcases tick_cases n s with ⟨hlt, h⟩ | ⟨-, h⟩
  · rw [h]
    exact { CpuFrame.refl s with
      ticks := by simp; omega
      rest := fun _ => by simp; omega
      asked := rfl
      balance := rfl
      memWf := fun _ hm => hm }
  · have hp := proceed_proceeded ((s.t + n) / 2) (addTicks n s)
    have ha := hp.asked
    rw [h] at ht hf ⊢
    exact {
      cfg := hp.cfg
      flash := hp.flash
      inFrame := hp.inFrame
      powered := hp.powered
      faulted := hp.faulted
      pressed := hp.pressed
      published := hp.published
      inbox := hp.inbox
      rom := hp.rom
      trace := hp.trace
      replies := hp.replies
      ticks := by rw [hf]; simp only; omega
      rest := fun _ => by simp only; omega
      asked := by
        simp only [addTicks_trace] at ha hf ⊢
        omega
      balance := hp.balance
      memWf := hp.memWf }

@[simp] theorem tick_nextLine (n : Nat) (s : State) : (tick n s).nextLine = s.nextLine := by
  rcases tick_cases n s with ⟨-, h⟩ | ⟨-, h⟩
  · rw [h]; rfl
  · rw [h]; exact (proceed_proceeded _ _).nextLine

@[simp] theorem tick_pulses (n : Nat) (s : State) : pulses (tick n s).trace = pulses s.trace := by
  rcases tick_cases n s with ⟨-, h⟩ | ⟨-, h⟩
  · rw [h]; rfl
  · rw [h]; exact (proceed_proceeded _ _).pulses

theorem tick_budget {n : Nat} {s : State} (hM : 1 ≤ s.cfg.maxOverrun)
    (hlo : -(s.cfg.maxOverrun : Int) < s.budget) (hhi : s.budget ≤ 0) :
    -(s.cfg.maxOverrun : Int) < (tick n s).budget ∧ (tick n s).budget ≤ 0 := by
  rcases tick_cases n s with ⟨-, h⟩ | ⟨-, h⟩
  · rw [h]; exact ⟨hlo, hhi⟩
  · rw [h]; exact proceed_budget (s := addTicks n s) hM hlo

theorem tick_legal {n : Nat} {s : State} (hM : 1 ≤ s.cfg.maxOverrun)
    (ht : ∀ e ∈ s.trace, e.legal s.cfg.maxOverrun = true) :
    ∀ e ∈ (tick n s).trace, e.legal s.cfg.maxOverrun = true := by
  rcases tick_cases n s with ⟨-, h⟩ | ⟨h1, h⟩
  · rw [h]; exact ht
  · rw [h]; exact proceed_legal (s := addTicks n s) h1 hM ht

end Sys2Proof.Machine
end

