-- ==== Sys2Proof/Laws/Raster.lean ====
section
/-! SUPPORT. What a pixel, a segment, a line and a frame can do. -/

namespace Sys2Proof.Machine

/-- `Ticked` sees only the fields a plain update leaves alone: a start and an end may be changed in
the others. -/
theorem Ticked.congr {n : Nat} {s s' u u' : State} (h : Ticked n s s') (hu : Ticked 0 u s)
    (hu' : Ticked 0 s' u') : Ticked n u u' := by
  have := (hu.trans h).trans hu'
  rwa [Nat.zero_add, Nat.add_zero] at this

theorem fbPut_ticked (i : Nat) (v : Colour) (s : State) : Ticked 0 s (fbPut i v s) :=
  { Ticked.refl s with }

theorem countLine_ticked (s : State) : Ticked 0 s (countLine s) := { Ticked.refl s with }

theorem setNextLine_ticked (y : Nat) (s : State) : Ticked 0 s (setNextLine y s) :=
  { Ticked.refl s with }

theorem pulseIfEnabled_ticked (s : State) : Ticked 0 s (pulseIfEnabled s) := by
  unfold pulseIfEnabled
  split
  · exact { Ticked.refl s with
      trace := List.prefix_append _ _
      asked := by simp [nmiPulse, requested]
      balance := by simp [nmiPulse, requested, executed] }
  · exact .refl s

@[simp] theorem pulseIfEnabled_fb (s : State) : (pulseIfEnabled s).fb = s.fb := by
  unfold pulseIfEnabled; split <;> rfl

@[simp] theorem pulseIfEnabled_cfg (s : State) : (pulseIfEnabled s).cfg = s.cfg := by
  unfold pulseIfEnabled; split <;> rfl

@[simp] theorem pulseIfEnabled_nextLine (s : State) :
    (pulseIfEnabled s).nextLine = s.nextLine := by
  unfold pulseIfEnabled; split <;> rfl

theorem pulseIfEnabled_pulses (s : State) : pulses (pulseIfEnabled s).trace
    = pulses s.trace + if s.nmiEnabled then 1 else 0 := by
  unfold pulseIfEnabled
  split
  · rw [nmiPulse, emit_trace, pulses_append]; rfl
  · rfl

/-! ### Pixel and segment -/

theorem pixel_ticked (x : Nat) (col : Colour) (s : State) : Ticked 1 s (pixel x col s) := by
  have := (fbPut_ticked (cellIndex s.cfg s.nextLine x) col s).trans (tick_ticked 1 _)
  rwa [Nat.zero_add] at this

@[simp] theorem pixel_nextLine (x : Nat) (col : Colour) (s : State) :
    (pixel x col s).nextLine = s.nextLine := by simp [pixel]

@[simp] theorem pixel_cfg (x : Nat) (col : Colour) (s : State) : (pixel x col s).cfg = s.cfg :=
  (pixel_ticked x col s).cfg

theorem pixel_fb (x : Nat) (col : Colour) (s : State) :
    (pixel x col s).fb = sparsePut fbUnlisted s.fb (cellIndex s.cfg s.nextLine x) col := by
  simp [pixel]

@[simp] theorem pixel_fbCell (x : Nat) (col : Colour) (s : State) (i : Nat) :
    fbCell (pixel x col s) i
      = if i = cellIndex s.cfg s.nextLine x then col else fbCell s i := by
  simp [fbCell, pixel_fb]

theorem drawSegment_ticked (src : Source) (n x0 : Nat) (s : State) :
    Ticked n s (drawSegment src x0 n s) := by
  induction n generalizing x0 s with
  | zero => exact .refl s
  | succ n ih =>
    have := (pixel_ticked x0 (sourceColour src s) s).trans (ih (x0 + 1) _)
    rwa [Nat.add_comm] at this

@[simp] theorem drawSegment_nextLine (src : Source) (n x0 : Nat) (s : State) :
    (drawSegment src x0 n s).nextLine = s.nextLine := by
  induction n generalizing x0 s with
  | zero => rfl
  | succ n ih => simp [drawSegment, ih]

@[simp] theorem drawSegment_pulses (src : Source) (n x0 : Nat) (s : State) :
    pulses (drawSegment src x0 n s).trace = pulses s.trace := by
  induction n generalizing x0 s with
  | zero => rfl
  | succ n ih => simp [drawSegment, ih, pixel]

/-- A segment writes only the cells of its own columns. -/
theorem drawSegment_fbCell_outside (src : Source) (n x0 : Nat) (s : State) (i : Nat)
    (h : ∀ x, x0 ≤ x → x < x0 + n → i ≠ cellIndex s.cfg s.nextLine x) :
    fbCell (drawSegment src x0 n s) i = fbCell s i := by
  induction n generalizing x0 s with
  | zero => rfl
  | succ n ih =>
    rw [drawSegment, ih _ _ (fun x h1 h2 => by simpa using h x (by omega) (by omega)), pixel_fbCell,
      if_neg (h x0 (by omega) (by omega))]

/-- A segment of the fixed fill writes that colour into every one of its columns (R86). -/
theorem drawSegment_fill_fbCell (n x0 : Nat) (s : State) (x : Nat) (h1 : x0 ≤ x) (h2 : x < x0 + n) :
    fbCell (drawSegment .fill x0 n s) (cellIndex s.cfg s.nextLine x)
      = BitVec.ofNat 3 s.cfg.activeFill := by
  induction n generalizing x0 s with
  | zero => omega
  | succ n ih =>
    rw [drawSegment]
    by_cases hx : x = x0
    · subst hx
      have hout := drawSegment_fbCell_outside .fill n (x + 1) (pixel x (sourceColour .fill s) s)
        (cellIndex s.cfg s.nextLine x) (fun y hy _ => by simp [cellIndex]; omega)
      rw [hout]
      simp [sourceColour]
    · have := ih (x0 + 1) (pixel x0 (sourceColour .fill s) s) (by omega) (by omega)
      simpa using this

/-! ### Lines -/

/-- The ticks of a band part (R92). -/
def ticksOf (c : Config) (b : Band) : Nat :=
  match b with
  | .trailing => 0
  | _ => rasterWidth c

theorem bandTicks_eq (c : Config) (y : Nat) : bandTicks c y = ticksOf c (bandOf c y) := by
  unfold bandTicks ticksOf; rfl

theorem bandPart_ticked (b : Band) (s : State) : Ticked (ticksOf s.cfg b) s (bandPart b s) := by
  cases b with
  | retrace => exact tick_ticked _ s
  | upper => exact drawSegment_ticked _ _ _ s
  | lower => exact drawSegment_ticked _ _ _ s
  | trailing => exact .refl s
  | active =>
    exact ((drawSegment_ticked _ _ _ s).trans (drawSegment_ticked _ _ _ _)).trans
      (drawSegment_ticked _ _ _ _)

@[simp] theorem bandPart_cfg (b : Band) (s : State) : (bandPart b s).cfg = s.cfg :=
  (bandPart_ticked b s).cfg

@[simp] theorem bandPart_nextLine (b : Band) (s : State) :
    (bandPart b s).nextLine = s.nextLine := by
  cases b <;> simp [bandPart, retraceLine, borderLine, activeLine]

@[simp] theorem bandPart_pulses (b : Band) (s : State) :
    pulses (bandPart b s).trace = pulses s.trace := by
  cases b <;> simp [bandPart, retraceLine, borderLine, activeLine]

theorem lineTail_ticked (s : State) : Ticked s.cfg.hretraceTicks s (lineTail s) := by
  have h := ((pulseIfEnabled_ticked s).trans (countLine_ticked _)).trans
    (tick_ticked s.cfg.hretraceTicks _)
  rwa [Nat.add_zero, Nat.zero_add] at h

@[simp] theorem lineTail_fb (s : State) : (lineTail s).fb = s.fb := by simp [lineTail]

@[simp] theorem lineTail_nextLine (s : State) : (lineTail s).nextLine = s.nextLine := by
  simp [lineTail]

theorem lineTail_pulses (s : State) : pulses (lineTail s).trace
    = pulses s.trace + if s.nmiEnabled then 1 else 0 := by
  simp [lineTail, pulseIfEnabled_pulses]

/-- RENDER_LINE in its order is the band part, the tail and the advance (R81). -/
theorem renderLine_inOrder {y : Nat} {s : State} (hf : s.inFrame = true) (hy : y = s.nextLine)
    (ht : y < s.cfg.totalHeight) :
    renderLine y s = setNextLine (y + 1) (lineTail (bandPart (bandOf s.cfg y) s)) := by
  simp only [renderLine, hf, Bool.true_eq_false, ← hy, ne_eq, not_true_eq_false, false_or,
    if_neg (not_le.mpr ht)]

/-- All that RENDER_LINE in its order can do, beside the framebuffer, the line counter and the
pulses. -/
theorem renderLine_ticked {y : Nat} {s : State} (hf : s.inFrame = true) (hy : y = s.nextLine)
    (ht : y < s.cfg.totalHeight) : Ticked (lineTicks s.cfg y) s (renderLine y s) := by
  rw [renderLine_inOrder hf hy ht]
  have h := (bandPart_ticked (bandOf s.cfg y) s).trans (lineTail_ticked _)
  rw [bandPart_cfg, ← bandTicks_eq] at h
  exact h.trans (setNextLine_ticked _ _)

/-! ### Frames -/

/-- The ticks of lines `y` to `y + n - 1`. -/
def linesTicks (c : Config) (y : Nat) : Nat → Nat
  | 0 => 0
  | n + 1 => lineTicks c y + linesTicks c (y + 1) n

/-- The lines of a frame run in order to the end (R80, R81): none of them faults. -/
theorem renderLines_run (n y : Nat) (s : State) (hf : s.inFrame = true) (hy : s.nextLine = y)
    (hfault : s.faulted = none) (ht : y + n ≤ s.cfg.totalHeight) :
    Ticked (linesTicks s.cfg y n) s (renderLines n y s) ∧ (renderLines n y s).nextLine = y + n := by
  induction n generalizing y s with
  | zero => exact ⟨.refl s, hy⟩
  | succ n ih =>
    have h := renderLine_ticked (y := y) hf hy.symm (by omega)
    have hn : (renderLine y s).nextLine = y + 1 := by
      rw [renderLine_inOrder hf hy.symm (by omega)]; rfl
    have hfl : (renderLine y s).faulted.isSome = false := by rw [h.faulted, hfault]; rfl
    obtain ⟨h1, h2⟩ := ih (y + 1) (renderLine y s) (by rw [h.inFrame, hf]) hn
      (by rw [h.faulted, hfault]) (by rw [h.cfg]; omega)
    simp only [renderLines, hfl, Bool.false_eq_true, if_false]
    rw [h.cfg] at h1
    exact ⟨h.trans h1, by rw [h2]; omega⟩

/-- The lines of an unfaulted block after FRAME's set-up. -/
theorem frameLines_run {s : State} (hfault : s.faulted = none) :
    Ticked (linesTicks s.cfg 0 s.cfg.totalHeight) (beginFrame s)
      (renderLines s.cfg.totalHeight 0 (beginFrame s)) ∧
    (renderLines s.cfg.totalHeight 0 (beginFrame s)).nextLine = s.cfg.totalHeight := by
  have h := renderLines_run s.cfg.totalHeight 0 (beginFrame s) rfl rfl hfault (by simp)
  rwa [Nat.zero_add] at h

/-- FRAME's body is its lines, PUBLISH and the end: no line faults (R80). -/
theorem frameBody_eq {s : State} (hfault : s.faulted = none) :
    frameBody s = endFrame (publish (renderLines s.cfg.totalHeight 0 (beginFrame s))) := by
  have h := (frameLines_run hfault).1.faulted
  rw [beginFrame_faulted, hfault] at h
  simp [frameBody, h]

/-- The sum of the band sizes (R11). -/
def bandSum (c : Config) : Nat :=
  c.vretraceLines + c.upperBorderLines + c.activeLines + c.lowerBorderLines

theorem bandTicks_of (c : Config) (y : Nat) :
    bandTicks c y = if y < bandSum c then rasterWidth c else 0 := by
  unfold bandTicks bandOf bandSum
  split_ifs with h <;> first | rfl | omega

theorem linesTicks_closed (c : Config) (y n : Nat) : linesTicks c y n + min y (bandSum c)
    * rasterWidth c = min (y + n) (bandSum c) * rasterWidth c + n * c.hretraceTicks := by
  induction n generalizing y with
  | zero => simp [linesTicks]
  | succ n ih =>
    have := ih (y + 1)
    rw [linesTicks, lineTicks, bandTicks_of]
    have e : y + 1 + n = y + (n + 1) := by omega
    rw [e] at this
    by_cases hy : y < bandSum c
    · have h1 : min y (bandSum c) = y := by omega
      have h2 : min (y + 1) (bandSum c) = y + 1 := by omega
      rw [h2] at this
      rw [h1, if_pos hy]
      ring_nf at this ⊢
      omega
    · have h1 : min (y + 1) (bandSum c) = min y (bandSum c) := by omega
      rw [h1] at this
      rw [if_neg hy]
      ring_nf at this ⊢
      omega

/-- The ticks of a frame in closed form (R92). -/
theorem linesTicks_frame {c : Config} (h : bandSum c ≤ c.totalHeight) :
    linesTicks c 0 c.totalHeight = frameTicks c := by
  have := linesTicks_closed c 0 c.totalHeight
  rw [Nat.zero_min, Nat.zero_mul, Nat.add_zero, Nat.zero_add, min_eq_right h] at this
  exact this

end Sys2Proof.Machine
end

