-- ==== Sys2Proof/Laws/Invariant.lean ====
section
/-! SUPPORT. The operations keep the invariant of the machine, one lemma per operation. -/

namespace Sys2Proof.Machine

/-- The clauses of an admitted configuration that proofs use (R11). -/
theorem admitted_clauses {c : Config} (h : c.admitted = true) :
    bandSum c ≤ c.totalHeight ∧ 1 ≤ c.totalHeight ∧ c.romEnd = 0x2000 ∧ c.ramEnd = 0x6000 ∧
      c.nmiOnPort ≠ c.nmiOffPort ∧ (∀ r ∈ c.keyRows, r.2.length = 5) ∧
      c.totalHeight < 65536 ∧ 1 ≤ c.maxOverrun := by
  simp only [Config.admitted, Config.clauses, List.all_cons, List.all_nil, Bool.and_eq_true,
    decide_eq_true_eq, Bool.and_true, List.all_eq_true, beq_iff_eq] at h
  obtain ⟨-, h1, h2, -, ⟨h3, h4⟩, h5, h6, -, -, h7, h8⟩ := h
  exact ⟨h1, h2, h3, h4, h5, h6, h7, h8⟩

/-- An admitted configuration breaks no clause (R11). -/
theorem firstBroken_of_admitted {c : Config} (h : c.admitted = true) : c.firstBroken = none := by
  simp only [Config.firstBroken, Config.admitted, List.all_eq_true, Option.map_eq_none_iff,
    List.find?_eq_none] at *
  exact fun p hp => by simp [h p hp]

/-- The reference configuration is admitted (R11). -/
theorem ref_admitted : Config.ref.admitted = true := by
  have h : Config.ref.romImage.length = Config.ref.romEnd := List.length_replicate
  simp only [Config.admitted, Config.clauses, List.all_cons, List.all_nil, h, Bool.and_true,
    Bool.and_eq_true, decide_eq_true_eq]
  exact ⟨rfl, by decide, by decide, by decide, ⟨rfl, rfl⟩, by decide, by decide, trivial,
    by decide, by decide, by decide⟩

/-- The small configuration is admitted (R11). -/
theorem tiny_admitted : Config.tiny.admitted = true := by
  have h : Config.tiny.romImage.length = Config.tiny.romEnd := List.length_replicate
  simp only [Config.admitted, Config.clauses, List.all_cons, List.all_nil, h, Bool.and_true,
    Bool.and_eq_true, decide_eq_true_eq]
  exact ⟨rfl, by decide, by decide, by decide, ⟨rfl, rfl⟩, by decide, by decide, trivial,
    by decide, by decide, by decide⟩

theorem MachineInv.overrun {s : State} (h : MachineInv s) : 1 ≤ s.cfg.maxOverrun :=
  (admitted_clauses h.admitted).2.2.2.2.2.2.2

theorem MachineInv.ramEnd {s : State} (h : MachineInv s) : s.cfg.ramEnd = 0x6000 :=
  (admitted_clauses h.admitted).2.2.2.1

theorem MachineInv.romEnd {s : State} (h : MachineInv s) : s.cfg.romEnd = 0x2000 :=
  (admitted_clauses h.admitted).2.2.1

theorem MachineInv.bands {s : State} (h : MachineInv s) : bandSum s.cfg ≤ s.cfg.totalHeight :=
  (admitted_clauses h.admitted).1

/-- The answers to CPU transactions keep the invariant. -/
theorem Answered.inv {s s' : State} (h : Answered s s') (hi : MachineInv s) : MachineInv s' where
  admitted := by rw [h.cfg]; exact hi.admitted
  tickRest := by rw [h.t]; exact hi.tickRest
  budgetLow := by rw [h.cfg, h.budget]; exact hi.budgetLow
  budgetHigh := by rw [h.budget]; exact hi.budgetHigh
  nextLine := by rw [h.cfg, h.nextLine]; exact hi.nextLine
  mem := by rw [h.cfg]; exact h.memWf (by rw [hi.ramEnd]) hi.mem
  fb := by rw [h.cfg, h.fb]; exact hi.fb
  published := by rw [h.cfg, h.published]; exact hi.published
  pressed := by rw [h.pressed]; exact hi.pressed
  trace := by
    obtain ⟨es, he, hes⟩ := h.events
    rw [h.cfg, he]
    intro e hm
    rcases List.mem_append.mp hm with hm | hm
    · exact hi.trace e hm
    · rw [hes e hm]; rfl

theorem raise_inv {s : State} (code : FaultCode) (hi : MachineInv s) :
    MachineInv (raise code s) := { hi with }

theorem emit_inv {s : State} {e : Event} (he : e.legal s.cfg.maxOverrun = true)
    (hi : MachineInv s) : MachineInv (emit e s) :=
  { hi with
    trace := fun x hx => by
      rcases List.mem_append.mp hx with hx | hx
      · exact hi.trace x hx
      · rw [List.mem_singleton.mp hx]; exact he }

/-- A PROCEED of at least one cycle keeps the invariant. -/
theorem proceed_inv {n : Nat} {s : State} (hn : 1 ≤ n) (hi : MachineInv s) :
    MachineInv (proceed n s) where
  admitted := by rw [(proceed_proceeded n s).cfg]; exact hi.admitted
  tickRest := by rw [(proceed_proceeded n s).t]; exact hi.tickRest
  budgetLow := by
    rw [(proceed_proceeded n s).cfg]
    exact (proceed_budget hi.overrun hi.budgetLow).1
  budgetHigh := (proceed_budget hi.overrun hi.budgetLow).2
  nextLine := by
    rw [(proceed_proceeded n s).cfg, (proceed_proceeded n s).nextLine]; exact hi.nextLine
  mem := by
    rw [(proceed_proceeded n s).cfg]
    exact (proceed_proceeded n s).memWf (by rw [hi.ramEnd]) hi.mem
  fb := by rw [(proceed_proceeded n s).cfg, (proceed_proceeded n s).fb]; exact hi.fb
  published := by
    rw [(proceed_proceeded n s).cfg, (proceed_proceeded n s).published]; exact hi.published
  pressed := by rw [(proceed_proceeded n s).pressed]; exact hi.pressed
  trace := by rw [(proceed_proceeded n s).cfg]; exact proceed_legal hn hi.overrun hi.trace

/-- TICK keeps the invariant. -/
theorem tick_inv {s : State} (n : Nat) (hi : MachineInv s) : MachineInv (tick n s) where
  admitted := by rw [(tick_ticked n s).cfg]; exact hi.admitted
  tickRest := (tick_ticked n s).rest hi.tickRest
  budgetLow := by
    rw [(tick_ticked n s).cfg]
    exact (tick_budget hi.overrun hi.budgetLow hi.budgetHigh).1
  budgetHigh := (tick_budget hi.overrun hi.budgetLow hi.budgetHigh).2
  nextLine := by rw [(tick_ticked n s).cfg, tick_nextLine]; exact hi.nextLine
  mem := by
    rw [(tick_ticked n s).cfg]
    exact (tick_ticked n s).memWf (by rw [hi.ramEnd]) hi.mem
  fb := by rw [(tick_ticked n s).cfg, tick_fb]; exact hi.fb
  published := by rw [(tick_ticked n s).cfg, (tick_ticked n s).published]; exact hi.published
  pressed := by rw [(tick_ticked n s).pressed]; exact hi.pressed
  trace := by rw [(tick_ticked n s).cfg]; exact tick_legal hi.overrun hi.trace

/-- A cell of a line that has a framebuffer row is a cell of the framebuffer (R82). -/
theorem cellIndex_lt {c : Config} {y x : Nat} (h1 : y - c.vretraceLines < rasterHeight c)
    (h2 : x < rasterWidth c) : cellIndex c y x < fbSize c := by
  have := Nat.mul_le_mul_right (rasterWidth c) (Nat.succ_le_of_lt h1)
  rw [Nat.succ_mul, Nat.mul_comm (rasterHeight c)] at this
  simp only [cellIndex, fbSize]
  omega

theorem fbPut_inv {s : State} {i : Nat} (v : Colour) (hi : MachineInv s) (h : i < fbSize s.cfg) :
    MachineInv (fbPut i v s) := { hi with fb := fbPut_wf v hi.fb h }

theorem pixel_inv {s : State} {x : Nat} (col : Colour) (hi : MachineInv s)
    (h1 : s.nextLine - s.cfg.vretraceLines < rasterHeight s.cfg) (h2 : x < rasterWidth s.cfg) :
    MachineInv (pixel x col s) := tick_inv 1 (fbPut_inv col hi (cellIndex_lt h1 h2))

theorem drawSegment_inv {s : State} (src : Source) {n x0 : Nat} (hi : MachineInv s)
    (h1 : s.nextLine - s.cfg.vretraceLines < rasterHeight s.cfg)
    (h2 : x0 + n ≤ rasterWidth s.cfg) : MachineInv (drawSegment src x0 n s) := by
  induction n generalizing x0 s with
  | zero => exact hi
  | succ n ih =>
    exact ih (pixel_inv _ hi h1 (by omega)) (by simpa using h1) (by rw [pixel_cfg]; omega)

/-- The band part of the band a line belongs to keeps the invariant. -/
theorem bandPart_inv {s : State} (hi : MachineInv s) :
    MachineInv (bandPart (bandOf s.cfg s.nextLine) s) := by
  have hrow : bandOf s.cfg s.nextLine ≠ .retrace → bandOf s.cfg s.nextLine ≠ .trailing →
      s.nextLine - s.cfg.vretraceLines < rasterHeight s.cfg := by
    intro h1 h2
    unfold bandOf at h1 h2
    unfold rasterHeight
    split_ifs at h1 h2 <;> first | omega | exact absurd rfl h1 | exact absurd rfl h2
  cases hb : bandOf s.cfg s.nextLine with
  | retrace => exact tick_inv _ hi
  | upper => exact drawSegment_inv _ hi (hrow (by simp [hb]) (by simp [hb])) (by simp)
  | lower => exact drawSegment_inv _ hi (hrow (by simp [hb]) (by simp [hb])) (by simp)
  | trailing => exact hi
  | active =>
    have hr := hrow (by simp [hb]) (by simp [hb])
    have hc : ∀ src n x0 (u : State), (drawSegment src x0 n u).cfg = u.cfg := fun src n x0 u =>
      (drawSegment_ticked src n x0 u).cfg
    simp only [bandPart, activeLine]
    refine drawSegment_inv _ (drawSegment_inv _ (drawSegment_inv _ hi hr ?_) ?_ ?_) ?_ ?_
    all_goals try simp only [hc, drawSegment_nextLine]
    all_goals first | exact hr | (simp only [rasterWidth]; omega)

theorem lineTail_inv {s : State} (hi : MachineInv s) : MachineInv (lineTail s) := by
  refine tick_inv _ ?_
  have hp : MachineInv (pulseIfEnabled s) := by
    unfold pulseIfEnabled
    split
    · exact emit_inv rfl hi
    · exact hi
  exact { hp with }

theorem setNextLine_inv {s : State} {y : Nat} (hi : MachineInv s) (h : y ≤ s.cfg.totalHeight) :
    MachineInv (setNextLine y s) := { hi with nextLine := h }

/-- RENDER_LINE keeps the invariant, in its order or not. -/
theorem renderLine_inv {s : State} (y : Nat) (hi : MachineInv s) : MachineInv (renderLine y s) := by
  by_cases h : s.inFrame = false ∨ y ≠ s.nextLine ∨ s.cfg.totalHeight ≤ y
  · rw [renderLine, if_pos h]; exact raise_inv _ hi
  · rw [renderLine, if_neg h]
    simp only [not_or, ne_eq, not_not, not_le] at h
    obtain ⟨-, rfl, ht⟩ := h
    refine setNextLine_inv (lineTail_inv (bandPart_inv hi)) ?_
    rw [(lineTail_ticked _).cfg, bandPart_cfg]
    exact ht

theorem renderLines_inv {s : State} (n y : Nat) (hi : MachineInv s) :
    MachineInv (renderLines n y s) := by
  induction n generalizing y s with
  | zero => exact hi
  | succ n ih =>
    simp only [renderLines]
    split
    · exact renderLine_inv y hi
    · exact ih (y + 1) (renderLine_inv y hi)

theorem publish_inv {s : State} (hi : MachineInv s) : MachineInv (publish s) :=
  { emit_inv (e := .publish) rfl hi with
    published := fun m hm => by
      simp only [publish_published, Option.some.injEq] at hm
      rw [← hm]
      exact hi.fb }

/-- FRAME's body keeps the invariant. -/
theorem frameBody_inv {s : State} (hi : MachineInv s) : MachineInv (frameBody s) := by
  have h := renderLines_inv s.cfg.totalHeight 0 (s := beginFrame s)
    { hi with nextLine := Nat.zero_le _ }
  simp only [frameBody]
  split
  · exact h
  · exact { publish_inv h with }

theorem powerRaise_inv {s : State} (hi : MachineInv s) : MachineInv (powerRaise s) :=
  { hi with
    tickRest := Nat.zero_le _
    budgetLow := by have := hi.overrun; simp only [powerRaise_cfg, powerRaise_budget]; omega
    budgetHigh := le_refl _
    nextLine := Nat.zero_le _
    mem := rfl
    fb := rfl }

/-- SNAPSHOT_WRITE's effect keeps the invariant. -/
theorem loadByte_inv {s : State} (region : LoadRegion) (off : Nat) (v : Byte) (hi : MachineInv s) :
    MachineInv (loadByte region off v s) := by
  have hrom := hi.romEnd
  have hram := hi.ramEnd
  cases region with
  | rom =>
    simp only [loadByte]
    split
    · exact raise_inv _ hi
    · exact { hi with mem := romPut_wf v hi.mem (by omega) }
  | ram =>
    simp only [loadByte]
    split
    · exact raise_inv _ hi
    · exact { hi with mem := ramPut_wf v hi.mem (by simp only [ramBase]; omega) }

end Sys2Proof.Machine
end

