-- ==== Sys2Proof/Laws/Memory.lean ====
section
/-! SUPPORT. The inversion of the two wrappers that every operation goes through, what the mapper, a
memory read and a write come to under an admitted configuration, and the even-port read. -/

namespace Sys2Proof.Machine

/-! ### Wrappers -/

/-- An operation of an unfaulted block goes on. -/
theorem live_none {s : State} {k : Host.Outcome State Fault Refusal} (h : s.faulted = none) :
    live s k = k := by simp [live, h]

/-- An operation that gives a next state started unfaulted. -/
theorem live_next {s t : State} {k : Host.Outcome State Fault Refusal} (h : live s k = .next t) :
    s.faulted = none ∧ k = .next t := by
  unfold live at h
  split at h
  · cases h
  · exact ⟨‹_›, h⟩

/-- An operation of an unfaulted block whose effect is a state gives that state. -/
theorem live_next_eq {s t u : State} (h : live s (.next u) = .next t) :
    s.faulted = none ∧ t = u := by
  obtain ⟨h1, h2⟩ := live_next h
  injection h2 with h2
  exact ⟨h1, h2.symm⟩

/-- A host operation between frames: its effect, or the fault. -/
theorem betweenFrames_next {s t k : State} {code : FaultCode}
    (h : betweenFrames s code k = .next t) :
    s.faulted = none ∧ t = if s.inFrame then raise code s else k := live_next_eq h

/-! ### Addresses as numbers -/

theorem append_toNat {n m : Nat} (x : BitVec n) (y : BitVec m) :
    (x ++ y).toNat = x.toNat * 2 ^ m + y.toNat := by
  rw [BitVec.toNat_append, ← Nat.shiftLeft_add_eq_or_of_lt y.isLt, Nat.shiftLeft_eq]

theorem and_mask_toNat {a m : Addr} {k : Nat} (hm : m.toNat = 2 ^ k - 1) :
    (a &&& m).toNat = a.toNat % 2 ^ k := by
  rw [BitVec.toNat_and, hm, Nat.and_two_pow_sub_one_eq_mod]

theorem bit15_iff (a : Addr) : a.getLsbD 15 = true ↔ 0x8000 ≤ a.toNat := by
  have h := BitVec.msb_eq_decide a
  rw [BitVec.msb_eq_getLsbD_last] at h
  exact (Bool.eq_iff_iff.mp h).trans decide_eq_true_iff

@[simp] theorem normalise_data (a : Addr) : normalise a .data = a := by simp [normalise]

theorem normalise_fetch_high {a : Addr} (h : 0x8000 ≤ a.toNat) :
    (normalise a .m1).toNat = a.toNat % 0x4000 := by
  rw [normalise, if_pos ⟨(bit15_iff a).mpr h, rfl⟩]
  exact and_mask_toNat (k := 14) rfl

theorem normalise_fetch_low {a : Addr} (h : a.toNat < 0x8000) : normalise a .m1 = a := by
  rw [normalise, if_neg]
  intro h'
  exact absurd ((bit15_iff a).mp h'.1) (Nat.not_le.mpr h)

theorem mapAddr_admitted {c : Config} (h : c.admitted = true) (a : Addr) (phase : Phase) :
    mapAddr c a phase = if (normalise a phase).toNat < 0x2000 then descRom
      else if (normalise a phase).toNat < 0x6000 then descRam
      else descUnused := by
  obtain ⟨-, -, h1, h2, -⟩ := admitted_clauses h
  simp only [mapAddr, h1, h2]

theorem regionOffset_rom {a : Addr} (h : a.toNat < 0x2000) :
    regionOffset descRom a = a.toNat := by
  have h0 : a - descRom.base = a := BitVec.sub_zero a
  rw [regionOffset, h0, and_mask_toNat (k := 13) rfl]
  exact Nat.mod_eq_of_lt h

theorem regionOffset_ram {a : Addr} (h1 : 0x2000 ≤ a.toNat) (h2 : a.toNat < 0x6000) :
    regionOffset descRam a = a.toNat - 0x2000 := by
  have h0 : (a - descRam.base).toNat = a.toNat - 0x2000 :=
    BitVec.toNat_sub_of_le (y := 0x2000#16) (BitVec.le_def.mpr h1)
  rw [regionOffset, and_mask_toNat (k := 14) rfl, h0]
  exact Nat.mod_eq_of_lt (Nat.sub_lt_left_of_lt_add h1 h2)

/-- A read's byte, by the normalised address (R50, R52, R56). -/
theorem memByte_admitted {s : State} (h : s.cfg.admitted = true) (a : Addr) (phase : Phase) :
    memByte a phase s
      = if (normalise a phase).toNat < 0x2000 then romByte s (normalise a phase).toNat
        else if (normalise a phase).toNat < 0x6000 then
          ramByte s ((normalise a phase).toNat - 0x2000)
        else Config.unusedFill := by
  simp only [memByte, mapAddr_admitted h]
  split
  · rw [regionOffset_rom ‹_›]; rfl
  split
  · rw [regionOffset_ram (Nat.le_of_not_lt ‹_›) ‹_›]; rfl
  · rfl

/-- A write's effect, by its address (R54, R56). -/
theorem memStore_admitted {s : State} (h : s.cfg.admitted = true) (a : Addr) (v : Byte) :
    memStore a v s
      = if 0x2000 ≤ a.toNat ∧ a.toNat < 0x6000 then ramPut (a.toNat - 0x2000) v s else s := by
  simp only [memStore, mapAddr_admitted h, normalise_data]
  split
  · rw [if_neg (by omega)]; rfl
  split
  · rw [if_pos ⟨by omega, ‹_›⟩, regionOffset_ram (by omega) ‹_›]; rfl
  · rw [if_neg (by omega)]; rfl

/-! ### Fetch addresses -/

theorem normalise_directAddr (a : BitVec 15) : normalise (directAddr a) .m1 = a.setWidth 16 := by
  have h : (directAddr a).toNat = a.toNat := by
    rw [directAddr, append_toNat]
    exact Nat.zero_add _
  rw [normalise_fetch_low (by rw [h]; exact a.isLt)]
  apply BitVec.eq_of_toNat_eq
  rw [h, BitVec.toNat_setWidth, Nat.mod_eq_of_lt (Nat.lt_trans a.isLt (by decide))]

theorem normalise_mirrorAddr (bit14 : BitVec 1) (a : BitVec 14) :
    normalise (mirrorAddr bit14 a) .m1 = a.setWidth 16 := by
  have h : (mirrorAddr bit14 a).toNat = (2 + bit14.toNat) * 0x4000 + a.toNat := by
    rw [mirrorAddr, append_toNat, append_toNat]
    rfl
  have ha : a.toNat < 0x4000 := a.isLt
  have hb : (2 + bit14.toNat) * 0x4000 = 0x8000 + bit14.toNat * 0x4000 := Nat.add_mul _ _ _
  apply BitVec.eq_of_toNat_eq
  rw [normalise_fetch_high (by rw [h]; omega), h, BitVec.toNat_setWidth,
    Nat.mod_eq_of_lt (Nat.lt_trans a.isLt (by decide)), Nat.add_comm, Nat.add_mul_mod_self_right,
    Nat.mod_eq_of_lt ha]

/-- Two reads whose normalised addresses agree return the same byte (R50, R56). -/
theorem memByte_congr (s : State) {a b : Addr} {p q : Phase} (h : normalise a p = normalise b q) :
    memByte a p s = memByte b q s := by
  simp only [memByte, mapAddr, h]

/-! ### The even-port read -/

/-- While NMI is enabled an even-port read has no side effect (R124). -/
theorem portReadEven_enabled {s : State} (row : Byte) (h : s.nmiEnabled = true) :
    portReadEven row s = reply (readValue row s) s := if_pos h

/-- While NMI is disabled an even-port read clears `Ear` and the line counter (R124). -/
theorem portReadEven_disabled {s : State} (row : Byte) (h : ¬s.nmiEnabled = true) :
    portReadEven row s = { reply (readValue row s) s with ear := false, lineCounter := 0 } :=
  if_neg h

/-- Bit `j` of column `i`'s contribution (R122). -/
theorem columnBit_getLsbD {keys pressed : List RawKey} {i j : Nat} (hj : j < 5)
    (hi : i < keys.length) : (columnBit keys pressed i).getLsbD j
      = (decide (i = j) && !decide (keys.getD i 0 ∈ pressed)) := by
  have e : keys[i]? = some (keys.getD i 0) := by simp [List.getD, List.getElem?_eq_getElem hi]
  simp only [columnBit, e]
  by_cases hm : keys.getD i 0 ∈ pressed
  · rw [if_pos hm, decide_eq_true hm]; simp
  · rw [if_neg hm, decide_eq_false hm, BitVec.getLsbD_shiftLeft]
    by_cases hij : i = j
    · subst hij; simp [hj]
    · by_cases hlt : j < i
      · simp [hlt, hij]
      · have : j - i ≠ 0 := by omega
        simp [hij, this]

end Sys2Proof.Machine
end

