-- ==== Sys2Proof/Laws/Congruence.lean ====
section
/-! SUPPORT. Relations between two states that the operations keep: what a relation must be kept by,
and then every operation keeps it, FRAME included; three such relations, for states that differ in
the line counter, in memory, or in the framebuffer. -/

namespace Sys2Proof.Machine

/-- A relation between states that agree in all that decides what happens next, and that the small
updates keep. -/
structure Congruence (R : State → State → Prop) : Prop where
  cfg : ∀ {s u}, R s u → u.cfg = s.cfg
  t : ∀ {s u}, R s u → u.t = s.t
  budget : ∀ {s u}, R s u → u.budget = s.budget
  nextLine : ∀ {s u}, R s u → u.nextLine = s.nextLine
  inFrame : ∀ {s u}, R s u → u.inFrame = s.inFrame
  powered : ∀ {s u}, R s u → u.powered = s.powered
  faulted : ∀ {s u}, R s u → u.faulted = s.faulted
  nmiEnabled : ∀ {s u}, R s u → u.nmiEnabled = s.nmiEnabled
  borderColor : ∀ {s u}, R s u → u.borderColor = s.borderColor
  take : ∀ {s u}, R s u → (takeCpuInstr u).1 = (takeCpuInstr s).1
  taken : ∀ {s u}, R s u → R (takeCpuInstr s).2 (takeCpuInstr u).2
  answer : ∀ {s u} (x : CpuTxn), R s u → R (answer s x) (answer u x)
  requestCycles : ∀ {s u} (n : Nat), R s u → R (requestCycles n s) (requestCycles n u)
  endRun : ∀ {s u} (b e : Nat), R s u → R (endRun b e s) (endRun b e u)
  setT : ∀ {s u} (n : Nat), R s u → R { s with t := n } { u with t := n }
  fbPut : ∀ {s u} (i : Nat) (v : Colour), R s u → R (fbPut i v s) (fbPut i v u)
  nmiPulse : ∀ {s u}, R s u → R (nmiPulse s) (nmiPulse u)
  countLine : ∀ {s u}, R s u → R (countLine s) (countLine u)
  setNextLine : ∀ {s u} (y : Nat), R s u → R (setNextLine y s) (setNextLine y u)
  raise : ∀ {s u} (code : FaultCode), R s u → R (raise code s) (raise code u)
  publish : ∀ {s u}, R s u → R (publish s) (publish u)
  beginFrame : ∀ {s u}, R s u → R (beginFrame s) (beginFrame u)
  endFrame : ∀ {s u}, R s u → R (endFrame s) (endFrame u)

variable {R : State → State → Prop} {s u : State}

theorem Congruence.answerAll (c : Congruence R) (xs : List CpuTxn) (h : R s u) :
    R (answerAll xs s) (answerAll xs u) := by
  induction xs generalizing s u with
  | nil => exact h
  | cons x xs ih => exact ih (c.answer x h)

theorem Congruence.cpuLoop (c : Congruence R) (b fuel done : Nat) (h : R s u) :
    (cpuLoop b fuel done u).1 = (cpuLoop b fuel done s).1 ∧
      R (cpuLoop b fuel done s).2 (cpuLoop b fuel done u).2 := by
  induction fuel generalizing done s u with
  | zero => exact ⟨rfl, h⟩
  | succ fuel ih =>
    have h' := c.answerAll (takeCpuInstr s).1.txns (c.taken h)
    simp only [Machine.cpuLoop, c.take h, c.cfg h]
    split
    · exact ⟨rfl, h'⟩
    · exact ih _ h'

theorem Congruence.spendBudget (c : Congruence R) (h : R s u) :
    R (spendBudget s) (spendBudget u) := by
  simp only [Machine.spendBudget, c.budget h]
  split
  · obtain ⟨h1, h2⟩ := c.cpuLoop s.budget.toNat s.budget.toNat 0 h
    simp only [cpuRun, h1]
    exact c.endRun _ _ h2
  · exact h

theorem Congruence.proceed (c : Congruence R) (n : Nat) (h : R s u) :
    R (proceed n s) (proceed n u) := c.spendBudget (c.requestCycles n h)

theorem Congruence.addTicks (c : Congruence R) (n : Nat) (h : R s u) :
    R (addTicks n s) (addTicks n u) := by
  simp only [Machine.addTicks, c.t h]
  exact c.setT _ h

theorem Congruence.tick (c : Congruence R) (n : Nat) (h : R s u) : R (tick n s) (tick n u) := by
  have h1 := c.addTicks n h
  simp only [Machine.tick, c.t h1]
  split
  · have h2 := c.proceed ((Machine.addTicks n s).t / 2) h1
    rw [c.t h2]
    exact c.setT _ h2
  · exact h1

theorem Congruence.pixel (c : Congruence R) (x : Nat) (col : Colour) (h : R s u) :
    R (pixel x col s) (pixel x col u) := by
  simp only [Machine.pixel, c.cfg h, c.nextLine h]
  exact c.tick 1 (c.fbPut _ _ h)

theorem Congruence.sourceColour (c : Congruence R) (src : Source) (h : R s u) :
    sourceColour src u = sourceColour src s := by
  cases src
  · exact c.borderColor h
  · simp only [Machine.sourceColour, c.cfg h]

theorem Congruence.drawSegment (c : Congruence R) (src : Source) (n x0 : Nat) (h : R s u) :
    R (drawSegment src x0 n s) (drawSegment src x0 n u) := by
  induction n generalizing x0 s u with
  | zero => exact h
  | succ n ih =>
    simp only [Machine.drawSegment, c.sourceColour src h]
    exact ih _ (c.pixel _ _ h)

theorem Congruence.bandPart (c : Congruence R) (b : Band) (h : R s u) :
    R (bandPart b s) (bandPart b u) := by
  cases b <;> simp only [Machine.bandPart, retraceLine, borderLine, activeLine, c.cfg h]
  · exact c.tick _ h
  · exact c.drawSegment _ _ _ h
  · exact c.drawSegment _ _ _ (c.drawSegment _ _ _ (c.drawSegment _ _ _ h))
  · exact c.drawSegment _ _ _ h
  · exact h

theorem Congruence.lineTail (c : Congruence R) (h : R s u) : R (lineTail s) (lineTail u) := by
  simp only [Machine.lineTail, c.cfg h, pulseIfEnabled, c.nmiEnabled h]
  split
  · exact c.tick _ (c.countLine (c.nmiPulse h))
  · exact c.tick _ (c.countLine h)

theorem Congruence.renderLine (c : Congruence R) (y : Nat) (h : R s u) :
    R (renderLine y s) (renderLine y u) := by
  simp only [Machine.renderLine, c.inFrame h, c.nextLine h, c.cfg h]
  split
  · exact c.raise _ h
  · exact c.setNextLine _ (c.lineTail (c.bandPart _ h))

theorem Congruence.renderLines (c : Congruence R) (n y : Nat) (h : R s u) :
    R (renderLines n y s) (renderLines n y u) := by
  induction n generalizing y s u with
  | zero => exact h
  | succ n ih =>
    have h' := c.renderLine y h
    simp only [Machine.renderLines, c.faulted h']
    split
    · exact h'
    · exact ih _ h'

theorem Congruence.frameBody (c : Congruence R) (h : R s u) : R (frameBody s) (frameBody u) := by
  have h' := c.renderLines s.cfg.totalHeight 0 (c.beginFrame h)
  simp only [Machine.frameBody, c.cfg h, c.faulted h']
  split
  · exact h'
  · exact c.endFrame (c.publish h')

/-! ### Three relations -/

/-- The states differ in the line counter only. -/
def LineCounterDiffers (s u : State) : Prop := ∃ v, u = { s with lineCounter := v }

/-- The states differ in memory and in the bytes returned only. -/
def MemoryDiffers (s u : State) : Prop := ∃ m r, u = { s with mem := m, replies := r }

/-- The states differ in the framebuffer and its snapshot only, and agree in the cells of `P`. -/
def PictureDiffers (P : Nat → Prop) (s u : State) : Prop :=
  (∃ f p, u = { s with fb := f, published := p }) ∧ ∀ i, P i → fbCell u i = fbCell s i

theorem lineCounterDiffers_congruence : Congruence LineCounterDiffers where
  cfg := by rintro s _ ⟨v, rfl⟩; rfl
  t := by rintro s _ ⟨v, rfl⟩; rfl
  budget := by rintro s _ ⟨v, rfl⟩; rfl
  nextLine := by rintro s _ ⟨v, rfl⟩; rfl
  inFrame := by rintro s _ ⟨v, rfl⟩; rfl
  powered := by rintro s _ ⟨v, rfl⟩; rfl
  faulted := by rintro s _ ⟨v, rfl⟩; rfl
  nmiEnabled := by rintro s _ ⟨v, rfl⟩; rfl
  borderColor := by rintro s _ ⟨v, rfl⟩; rfl
  take := by rintro s _ ⟨v, rfl⟩; simp only [takeCpuInstr]; split <;> rfl
  taken := by rintro s _ ⟨v, rfl⟩; simp only [takeCpuInstr]; split <;> exact ⟨v, rfl⟩
  answer := by
    rintro s _ x ⟨v, rfl⟩
    cases x with
    | pr a =>
      simp only [answer]
      split
      · exact ⟨v, rfl⟩
      · by_cases hn : s.nmiEnabled = true
        · rw [portReadEven_enabled _ hn, portReadEven_enabled _ (by exact hn)]; exact ⟨v, rfl⟩
        · rw [portReadEven_disabled _ hn, portReadEven_disabled _ (by exact hn)]; exact ⟨0, rfl⟩
    | pw a d => exact ⟨0, rfl⟩
    | mr a phase => exact ⟨v, rfl⟩
    | mw a d => simp only [answer, memStore, regionWrite]; split <;> exact ⟨v, rfl⟩
    | id r => simp only [answer, instrDone]; split <;> exact ⟨v, rfl⟩
    | ip => exact ⟨v, rfl⟩
  requestCycles := by rintro s _ n ⟨v, rfl⟩; exact ⟨v, rfl⟩
  endRun := by rintro s _ b e ⟨v, rfl⟩; exact ⟨v, rfl⟩
  setT := by rintro s _ n ⟨v, rfl⟩; exact ⟨v, rfl⟩
  fbPut := by rintro s _ i c ⟨v, rfl⟩; exact ⟨v, rfl⟩
  nmiPulse := by rintro s _ ⟨v, rfl⟩; exact ⟨v, rfl⟩
  countLine := by rintro s _ ⟨v, rfl⟩; exact ⟨v + 1, rfl⟩
  setNextLine := by rintro s _ y ⟨v, rfl⟩; exact ⟨v, rfl⟩
  raise := by rintro s _ code ⟨v, rfl⟩; exact ⟨v, rfl⟩
  publish := by rintro s _ ⟨v, rfl⟩; exact ⟨v, rfl⟩
  beginFrame := by rintro s _ ⟨v, rfl⟩; exact ⟨v, rfl⟩
  endFrame := by rintro s _ ⟨v, rfl⟩; exact ⟨v, rfl⟩

theorem memoryDiffers_congruence : Congruence MemoryDiffers where
  cfg := by rintro s _ ⟨m, r, rfl⟩; rfl
  t := by rintro s _ ⟨m, r, rfl⟩; rfl
  budget := by rintro s _ ⟨m, r, rfl⟩; rfl
  nextLine := by rintro s _ ⟨m, r, rfl⟩; rfl
  inFrame := by rintro s _ ⟨m, r, rfl⟩; rfl
  powered := by rintro s _ ⟨m, r, rfl⟩; rfl
  faulted := by rintro s _ ⟨m, r, rfl⟩; rfl
  nmiEnabled := by rintro s _ ⟨m, r, rfl⟩; rfl
  borderColor := by rintro s _ ⟨m, r, rfl⟩; rfl
  take := by rintro s _ ⟨m, r, rfl⟩; simp only [takeCpuInstr]; split <;> rfl
  taken := by rintro s _ ⟨m, r, rfl⟩; simp only [takeCpuInstr]; split <;> exact ⟨m, r, rfl⟩
  answer := by
    rintro s _ x ⟨m, r, rfl⟩
    cases x with
    | pr a =>
      simp only [answer]
      split
      · exact ⟨m, _, rfl⟩
      · by_cases hn : s.nmiEnabled = true
        · rw [portReadEven_enabled _ hn, portReadEven_enabled _ (by exact hn)]; exact ⟨m, _, rfl⟩
        · rw [portReadEven_disabled _ hn, portReadEven_disabled _ (by exact hn)]; exact ⟨m, _, rfl⟩
    | pw a d => exact ⟨m, r, rfl⟩
    | mr a phase => exact ⟨m, _, rfl⟩
    | mw a d => simp only [answer, memStore, regionWrite]; split <;> exact ⟨_, r, rfl⟩
    | id r => simp only [answer, instrDone]; split <;> exact ⟨m, _, rfl⟩
    | ip => exact ⟨m, r, rfl⟩
  requestCycles := by rintro s _ n ⟨m, r, rfl⟩; exact ⟨m, r, rfl⟩
  endRun := by rintro s _ b e ⟨m, r, rfl⟩; exact ⟨m, r, rfl⟩
  setT := by rintro s _ n ⟨m, r, rfl⟩; exact ⟨m, r, rfl⟩
  fbPut := by rintro s _ i c ⟨m, r, rfl⟩; exact ⟨m, r, rfl⟩
  nmiPulse := by rintro s _ ⟨m, r, rfl⟩; exact ⟨m, r, rfl⟩
  countLine := by rintro s _ ⟨m, r, rfl⟩; exact ⟨m, r, rfl⟩
  setNextLine := by rintro s _ y ⟨m, r, rfl⟩; exact ⟨m, r, rfl⟩
  raise := by rintro s _ code ⟨m, r, rfl⟩; exact ⟨m, r, rfl⟩
  publish := by rintro s _ ⟨m, r, rfl⟩; exact ⟨m, r, rfl⟩
  beginFrame := by rintro s _ ⟨m, r, rfl⟩; exact ⟨m, r, rfl⟩
  endFrame := by rintro s _ ⟨m, r, rfl⟩; exact ⟨m, r, rfl⟩

theorem pictureDiffers_congruence (P : Nat → Prop) : Congruence (PictureDiffers P) where
  cfg := by rintro s _ ⟨⟨f, p, rfl⟩, -⟩; rfl
  t := by rintro s _ ⟨⟨f, p, rfl⟩, -⟩; rfl
  budget := by rintro s _ ⟨⟨f, p, rfl⟩, -⟩; rfl
  nextLine := by rintro s _ ⟨⟨f, p, rfl⟩, -⟩; rfl
  inFrame := by rintro s _ ⟨⟨f, p, rfl⟩, -⟩; rfl
  powered := by rintro s _ ⟨⟨f, p, rfl⟩, -⟩; rfl
  faulted := by rintro s _ ⟨⟨f, p, rfl⟩, -⟩; rfl
  nmiEnabled := by rintro s _ ⟨⟨f, p, rfl⟩, -⟩; rfl
  borderColor := by rintro s _ ⟨⟨f, p, rfl⟩, -⟩; rfl
  take := by rintro s _ ⟨⟨f, p, rfl⟩, -⟩; simp only [takeCpuInstr]; split <;> rfl
  taken := by
    rintro s _ ⟨⟨f, p, rfl⟩, h⟩
    simp only [takeCpuInstr]
    split <;> exact ⟨⟨f, p, rfl⟩, h⟩
  answer := by
    rintro s _ x ⟨⟨f, p, rfl⟩, h⟩
    cases x with
    | pr a =>
      simp only [answer]
      split
      · exact ⟨⟨f, p, rfl⟩, h⟩
      · by_cases hn : s.nmiEnabled = true
        · rw [portReadEven_enabled _ hn, portReadEven_enabled _ (by exact hn)]; exact ⟨⟨f, p, rfl⟩, h⟩
        · rw [portReadEven_disabled _ hn, portReadEven_disabled _ (by exact hn)]; exact ⟨⟨f, p, rfl⟩, h⟩
    | pw a d => exact ⟨⟨f, p, rfl⟩, h⟩
    | mr a phase => exact ⟨⟨f, p, rfl⟩, h⟩
    | mw a d => simp only [answer, memStore, regionWrite]; split <;> exact ⟨⟨f, p, rfl⟩, h⟩
    | id r => simp only [answer, instrDone]; split <;> exact ⟨⟨f, p, rfl⟩, h⟩
    | ip => exact ⟨⟨f, p, rfl⟩, h⟩
  requestCycles := by rintro s _ n ⟨⟨f, p, rfl⟩, h⟩; exact ⟨⟨f, p, rfl⟩, h⟩
  endRun := by rintro s _ b e ⟨⟨f, p, rfl⟩, h⟩; exact ⟨⟨f, p, rfl⟩, h⟩
  setT := by rintro s _ n ⟨⟨f, p, rfl⟩, h⟩; exact ⟨⟨f, p, rfl⟩, h⟩
  fbPut := by
    rintro s _ j c ⟨⟨f, p, rfl⟩, h⟩
    refine ⟨⟨_, p, rfl⟩, fun i hi => ?_⟩
    rw [fbCell_fbPut, fbCell_fbPut, h i hi]
  nmiPulse := by rintro s _ ⟨⟨f, p, rfl⟩, h⟩; exact ⟨⟨f, p, rfl⟩, h⟩
  countLine := by rintro s _ ⟨⟨f, p, rfl⟩, h⟩; exact ⟨⟨f, p, rfl⟩, h⟩
  setNextLine := by rintro s _ y ⟨⟨f, p, rfl⟩, h⟩; exact ⟨⟨f, p, rfl⟩, h⟩
  raise := by rintro s _ code ⟨⟨f, p, rfl⟩, h⟩; exact ⟨⟨f, p, rfl⟩, h⟩
  publish := by rintro s _ ⟨⟨f, p, rfl⟩, h⟩; exact ⟨⟨f, _, rfl⟩, h⟩
  beginFrame := by rintro s _ ⟨⟨f, p, rfl⟩, h⟩; exact ⟨⟨f, p, rfl⟩, h⟩
  endFrame := by rintro s _ ⟨⟨f, p, rfl⟩, h⟩; exact ⟨⟨f, p, rfl⟩, h⟩

/-- A pixel makes two states agree in the cell it writes. -/
theorem pictureDiffers_pixel {P : Nat → Prop} (x : Nat) (col : Colour) (h : PictureDiffers P s u) :
    PictureDiffers (fun i => P i ∨ i = cellIndex s.cfg s.nextLine x) (pixel x col s)
      (pixel x col u) := by
  have hp := (pictureDiffers_congruence P).pixel x col h
  refine ⟨hp.1, fun i hi => ?_⟩
  by_cases he : i = cellIndex s.cfg s.nextLine x
  · have h1 := (pictureDiffers_congruence P).cfg h
    have h2 := (pictureDiffers_congruence P).nextLine h
    rw [pixel_fbCell, pixel_fbCell, h1, h2, if_pos he, if_pos he]
  · exact hp.2 i (hi.resolve_right he)

end Sys2Proof.Machine
end

