-- ==== Sys2Proof/Laws/CpuRun.lean ====
section
/-! SUPPORT. Which instructions a CPU run takes and what it answers: a front part of the engine's
coming instructions, their transactions answered in order, until their cycles reach the budget. -/

namespace Sys2Proof.Machine

/-! ### Taking instructions -/

@[simp] theorem afterTaking_zero (s : State) : afterTaking 0 s = s := by simp [afterTaking]

@[simp] theorem afterTaking_cfg (k : Nat) (s : State) : (afterTaking k s).cfg = s.cfg := rfl

/-- Taking one instruction takes the next one. -/
theorem takeCpuInstr_eq (s : State) : takeCpuInstr s = (cpuInstrAt s 0, afterTaking 1 s) := by
  unfold takeCpuInstr cpuInstrAt afterTaking
  cases h : s.cpu <;> simp

theorem cpuInstrAt_afterTaking (s : State) (k : Nat) :
    cpuInstrAt (afterTaking 1 s) k = cpuInstrAt s (k + 1) := by
  unfold cpuInstrAt afterTaking
  cases s.cpu <;> simp [Nat.add_comm, Nat.add_left_comm]

theorem afterTaking_afterTaking (s : State) (k : Nat) :
    afterTaking k (afterTaking 1 s) = afterTaking (k + 1) s := by
  unfold afterTaking
  cases s.cpu <;> simp [Nat.add_comm, Nat.add_left_comm]

theorem upcoming_succ (s : State) (k : Nat) :
    upcoming s (k + 1) = cpuInstrAt s 0 :: upcoming (afterTaking 1 s) k := by
  simp [upcoming, List.range_succ_eq_map, cpuInstrAt_afterTaking]

@[simp] theorem txnsOf_cons (i : CpuInstr) (is : List CpuInstr) :
    txnsOf (i :: is) = i.txns ++ txnsOf is := rfl

@[simp] theorem totalCycles_cons (c : Config) (i : CpuInstr) (is : List CpuInstr) :
    totalCycles c (i :: is) = cyclesOf c i + totalCycles c is := by simp [totalCycles]

@[simp] theorem answerAll_append (xs ys : List CpuTxn) (s : State) :
    answerAll (xs ++ ys) s = answerAll ys (answerAll xs s) := List.foldl_append

/-! ### An answer neither reads nor writes what the engine will execute -/

theorem answer_setCpu (x : CpuTxn) (s : State) (is : List CpuInstr) (d : Nat) :
    answer { s with cpu := is, cpuDraws := d } x
      = { answer s x with cpu := is, cpuDraws := d } := by
  cases x with
  | pr a =>
    simp only [answer]
    split
    · rfl
    · cases hn : s.nmiEnabled <;> simp only [portReadEven, readSideEffect, reply, hn] <;> rfl
  | pw a d => rfl
  | mr a phase => rfl
  | mw a d =>
    simp only [answer, memStore, regionWrite]
    split <;> rfl
  | id r => simp only [answer, instrDone]; split <;> rfl
  | ip => rfl

theorem answerAll_setCpu (xs : List CpuTxn) (s : State) (is : List CpuInstr) (d : Nat) :
    answerAll xs { s with cpu := is, cpuDraws := d }
      = { answerAll xs s with cpu := is, cpuDraws := d } := by
  induction xs generalizing s with
  | nil => rfl
  | cons x xs ih =>
    have h : ∀ t, answerAll (x :: xs) t = answerAll xs (answer t x) := fun _ => rfl
    rw [h, h, answer_setCpu, ih]

@[simp] theorem answerAll_cpu (xs : List CpuTxn) (s : State) : (answerAll xs s).cpu = s.cpu :=
  congrArg (·.cpu) (answerAll_setCpu xs s s.cpu s.cpuDraws)

@[simp] theorem answerAll_cpuDraws (xs : List CpuTxn) (s : State) :
    (answerAll xs s).cpuDraws = s.cpuDraws :=
  congrArg (·.cpuDraws) (answerAll_setCpu xs s s.cpu s.cpuDraws)

theorem afterTaking_answerAll (k : Nat) (xs : List CpuTxn) (s : State) :
    afterTaking k (answerAll xs s) = answerAll xs (afterTaking k s) := by
  simp only [afterTaking, answerAll_cpu, answerAll_cpuDraws, answerAll_setCpu]

theorem upcoming_answerAll (k : Nat) (xs : List CpuTxn) (s : State) :
    upcoming (answerAll xs s) k = upcoming s k := by
  simp [upcoming, cpuInstrAt]

/-! ### The run -/

theorem cpuLoop_taken {b : Nat} (fuel done : Nat) (s : State) (hd : done < b)
    (hf : b ≤ done + fuel) : ∃ k, 1 ≤ k ∧
      done + totalCycles s.cfg (upcoming s (k - 1)) < b ∧
      cpuLoop b fuel done s = (done + totalCycles s.cfg (upcoming s k),
        answerAll (txnsOf (upcoming s k)) (afterTaking k s)) := by
  induction fuel generalizing done s with
  | zero => omega
  | succ fuel ih =>
    have hpos := cyclesOf_pos s.cfg (cpuInstrAt s 0)
    simp only [cpuLoop, takeCpuInstr_eq]
    split
    · refine ⟨1, le_rfl, by simpa [upcoming, totalCycles] using hd, ?_⟩
      simp [upcoming, totalCycles, txnsOf]
    · obtain ⟨k, hk, hlt, he⟩ := ih (done + cyclesOf s.cfg (cpuInstrAt s 0))
        (answerAll (cpuInstrAt s 0).txns (afterTaking 1 s)) (by omega) (by omega)
      have hcfg : (answerAll (cpuInstrAt s 0).txns (afterTaking 1 s)).cfg = s.cfg :=
        (answerAll_answered _ _).cfg
      rw [hcfg, upcoming_answerAll] at hlt
      refine ⟨k + 1, by omega, ?_, ?_⟩
      · obtain ⟨j, rfl⟩ : ∃ j, k = j + 1 := ⟨k - 1, by omega⟩
        simp only [Nat.add_sub_cancel] at hlt ⊢
        rw [upcoming_succ, totalCycles_cons]
        omega
      · rw [he, hcfg, upcoming_answerAll, afterTaking_answerAll, afterTaking_afterTaking,
          upcoming_succ, totalCycles_cons, txnsOf_cons, answerAll_append, Nat.add_assoc]

/-- All that `CPU.run(b)` does: it takes a front part of the engine's coming instructions, the first
whose cycles reach the budget, answers their transactions in order, and executes their cycles (R99,
R100). -/
theorem cpuRun_taken {b : Nat} (s : State) (hb : 1 ≤ b) : ∃ k, 1 ≤ k ∧
    totalCycles s.cfg (upcoming s (k - 1)) < b ∧
    cpuRun b s = (totalCycles s.cfg (upcoming s k),
      answerAll (txnsOf (upcoming s k)) (afterTaking k s)) := by
  simpa [cpuRun] using cpuLoop_taken (b := b) b 0 s hb (by omega)

end Sys2Proof.Machine
end

