-- ==== Sys2Proof/Laws/Kept.lean ====
section
/-! SUPPORT. What a line and a frame keep, faulting or not; and what the CPU does over a stretch of
ticks when its listed instructions write no port. -/

namespace Sys2Proof.Machine

/-- What every operation that may run the CPU keeps, whether it faults or not. -/
structure Kept (s s' : State) : Prop where
  cfg : s'.cfg = s.cfg
  flash : s'.flash = s.flash
  powered : s'.powered = s.powered
  pressed : s'.pressed = s.pressed
  inbox : s'.inbox = s.inbox
  rom : ∀ off, off < ramBase → romByte s' off = romByte s off
  trace : s.trace <+: s'.trace
  replies : s.replies <+: s'.replies
  balance : (requested s'.trace : Int) - executed s'.trace - s'.budget
    = requested s.trace - executed s.trace - s.budget

theorem Kept.refl (s : State) : Kept s s := by
  constructor <;> first | rfl | exact fun _ _ => rfl

theorem Kept.trans {a b c : State} (h : Kept a b) (k : Kept b c) : Kept a c where
  cfg := k.cfg.trans h.cfg
  flash := k.flash.trans h.flash
  powered := k.powered.trans h.powered
  pressed := k.pressed.trans h.pressed
  inbox := k.inbox.trans h.inbox
  rom off ho := (k.rom off ho).trans (h.rom off ho)
  trace := h.trace.trans k.trace
  replies := h.replies.trans k.replies
  balance := k.balance.trans h.balance

theorem Ticked.kept {n : Nat} {s s' : State} (h : Ticked n s s') : Kept s s' where
  cfg := h.cfg
  flash := h.flash
  powered := h.powered
  pressed := h.pressed
  inbox := h.inbox
  rom := h.rom
  trace := h.trace
  replies := h.replies
  balance := h.balance

theorem Proceeded.kept {n : Nat} {s s' : State} (h : Proceeded n s s') : Kept s s' where
  cfg := h.cfg
  flash := h.flash
  powered := h.powered
  pressed := h.pressed
  inbox := h.inbox
  rom := h.rom
  trace := h.trace
  replies := h.replies
  balance := h.balance

theorem Answered.kept {s s' : State} (h : Answered s s') : Kept s s' where
  cfg := h.cfg
  flash := h.flash
  powered := h.powered
  pressed := h.pressed
  inbox := h.inbox
  rom := h.rom
  trace := h.trace
  replies := h.replies
  balance := by
    obtain ⟨es, he, hes⟩ := h.events
    simp [he, requested_intLower hes, executed_intLower hes, h.budget]

theorem raise_kept (code : FaultCode) (s : State) : Kept s (raise code s) := { Kept.refl s with }

theorem nmiPulse_kept (s : State) : Kept s (nmiPulse s) :=
  { Kept.refl s with
    trace := List.prefix_append _ _
    balance := by simp [nmiPulse, requested, executed] }

theorem publish_kept (s : State) : Kept s (publish s) :=
  { Kept.refl s with
    trace := List.prefix_append _ _
    balance := by simp [requested, executed] }

/-- What RENDER_LINE keeps, in its order or not. -/
theorem renderLine_kept (y : Nat) (s : State) : Kept s (renderLine y s) := by
  by_cases h : s.inFrame = false ∨ y ≠ s.nextLine ∨ s.cfg.totalHeight ≤ y
  · rw [renderLine, if_pos h]; exact raise_kept _ s
  · simp only [not_or, ne_eq, not_not, not_le, Bool.not_eq_false] at h
    exact (renderLine_ticked h.1 h.2.1 h.2.2).kept

theorem renderLines_kept (n y : Nat) (s : State) : Kept s (renderLines n y s) := by
  induction n generalizing y s with
  | zero => exact .refl s
  | succ n ih =>
    simp only [renderLines]
    split
    · exact renderLine_kept y s
    · exact (renderLine_kept y s).trans (ih _ _)

/-- What FRAME's body keeps. -/
theorem frameBody_kept (s : State) : Kept s (frameBody s) := by
  have h : Kept s (renderLines s.cfg.totalHeight 0 (beginFrame s)) :=
    Kept.trans (b := beginFrame s) { Kept.refl s with } (renderLines_kept _ _ _)
  simp only [frameBody]
  split
  · exact h
  · exact (h.trans (publish_kept _)).trans { Kept.refl _ with }

/-! ### Quiet CPU instructions -/

/-- The CPU instructions listed satisfy `P`, and are enough for `n` ticks on the budget as it stands,
whatever cycles they take. -/
structure Script (P : CpuInstr → Prop) (n : Nat) (s : State) : Prop where
  listed : ∀ i ∈ s.cpu, P i
  enough : s.budget + ((s.t + n) / 2 : Nat) ≤ s.cpu.length

/-- On a budget at rest, one listed instruction for every cycle is enough. -/
theorem Script.ofRest {P : CpuInstr → Prop} {n : Nat} {s : State} (hb : s.budget ≤ 0)
    (hl : ∀ i ∈ s.cpu, P i) (h : (s.t + n) / 2 ≤ s.cpu.length) : Script P n s := ⟨hl, by omega⟩

/-- `P` holds of CPU instructions whose transactions, while the NMI flag is `nmi`, change neither
that flag nor `f`. -/
def Quiet {α : Type} (P : CpuInstr → Prop) (nmi : Bool) (f : State → α) : Prop :=
  ∀ i, P i → ∀ x ∈ i.txns, ∀ s : State, s.nmiEnabled = nmi →
    (answer s x).nmiEnabled = nmi ∧ f (answer s x) = f s

variable {α : Type} {P : CpuInstr → Prop} {nmi : Bool} {f : State → α}

theorem quiet_answerAll {xs : List CpuTxn} (h : ∀ x ∈ xs, ∀ s : State, s.nmiEnabled = nmi →
    (answer s x).nmiEnabled = nmi ∧ f (answer s x) = f s) {s : State} (hn : s.nmiEnabled = nmi) :
    (answerAll xs s).nmiEnabled = nmi ∧ f (answerAll xs s) = f s := by
  induction xs generalizing s with
  | nil => exact ⟨hn, rfl⟩
  | cons x xs ih =>
    obtain ⟨h1, h2⟩ := h x (by simp) s hn
    obtain ⟨h3, h4⟩ := ih (fun y hy => h y (by simp [hy])) h1
    exact ⟨h3, h4.trans h2⟩

/-- A run within the listed instructions uses up a front part of them, and changes neither the NMI
flag nor `f`, if they are quiet. -/
theorem quiet_cpuLoop (hq : Quiet P nmi f)
    (hf : ∀ (s : State) (is : List CpuInstr), f { s with cpu := is } = f s)
    (b fuel done : Nat) (s : State) (hn : s.nmiEnabled = nmi) (hP : ∀ i ∈ s.cpu, P i) (r : Nat)
    (hl : b - done + r ≤ s.cpu.length) (hd : done < b) :
    (cpuLoop b fuel done s).2.nmiEnabled = nmi ∧ f (cpuLoop b fuel done s).2 = f s ∧
      (∀ i ∈ (cpuLoop b fuel done s).2.cpu, P i) ∧ r ≤ (cpuLoop b fuel done s).2.cpu.length := by
  induction fuel generalizing done s with
  | zero => exact ⟨hn, rfl, hP, by simp only [cpuLoop]; omega⟩
  | succ fuel ih =>
    obtain ⟨i, rest, hc⟩ : ∃ i rest, s.cpu = i :: rest := by
      cases h : s.cpu with
      | nil => rw [h, List.length_nil] at hl; omega
      | cons i rest => exact ⟨i, rest, rfl⟩
    have htake : takeCpuInstr s = (i, { s with cpu := rest }) := by simp [takeCpuInstr, hc]
    rw [hc] at hP
    rw [hc, List.length_cons] at hl
    have h := quiet_answerAll (s := { s with cpu := rest }) (hq i (hP i (by simp))) hn
    have hcpu := answerAll_cpu i.txns { s with cpu := rest }
    have hcy := cyclesOf_pos s.cfg i
    simp only [cpuLoop, htake]
    have h2 := h.2.trans (hf s rest)
    split
    · refine ⟨h.1, h2, ?_, ?_⟩ <;> rw [hcpu]
      · exact fun j hj => hP j (by simp [hj])
      · simp only; omega
    · have := ih (done + cyclesOf s.cfg i) (answerAll i.txns { s with cpu := rest }) h.1
        (by rw [hcpu]; exact fun j hj => hP j (by simp [hj])) (by rw [hcpu]; simp only; omega)
        (by omega)
      exact ⟨this.1, this.2.1.trans h2, this.2.2⟩

/-- `f` does not look at what TICK itself writes. -/
structure Blind (f : State → α) : Prop where
  cpu : ∀ (s : State) (is : List CpuInstr), f { s with cpu := is } = f s
  t : ∀ (s : State) (n : Nat), f { s with t := n } = f s
  clock : ∀ (s : State) (tr : List Event) (b : Int) (c : Nat),
    f { s with trace := tr, budget := b, frameCycles := c } = f s

/-- TICK within a quiet script: the script goes on, and neither the NMI flag nor `f` changes. -/
theorem quiet_tick (hq : Quiet P nmi f) (hf : Blind f) {n m : Nat} {s : State}
    (hs : Script P (n + m) s) (hn : s.nmiEnabled = nmi) :
    Script P m (tick n s) ∧ (tick n s).nmiEnabled = nmi ∧ f (tick n s) = f s := by
  have henough := hs.enough
  rcases tick_cases n s with ⟨hlt, h⟩ | ⟨h1, h⟩
  · rw [h]
    exact ⟨⟨hs.listed, by simp only [addTicks_t, addTicks_cpu, addTicks_budget]; omega⟩, hn, hf.t s _⟩
  · rw [h]
    generalize hc : (s.t + n) / 2 = c at h1
    have hreq : f (requestCycles c (addTicks n s)) = f s :=
      (hf.clock (addTicks n s) _ _ _).trans (hf.t s _)
    rcases spendBudget_cases (requestCycles c (addTicks n s)) with
      ⟨hle, hp⟩ | ⟨b, e, s1, hb1, hb, hrun, ha, hp⟩
    · rw [proceed, hp]
      refine ⟨⟨hs.listed, ?_⟩, hn, (hf.t _ _).trans hreq⟩
      simp only [requestCycles_cpu, addTicks_cpu, requestCycles_budget, addTicks_budget]
      omega
    · have hb' : s.budget + (c : Int) = b := hb
      have hloop := quiet_cpuLoop hq hf.cpu b b 0 (requestCycles c (addTicks n s)) hn hs.listed
        (s.cpu.length - b) (by simp only [requestCycles_cpu, addTicks_cpu]; omega) (by omega)
      have hcy := cpuRun_enough b (requestCycles c (addTicks n s))
      rw [cpuRun] at hrun hcy
      rw [hrun] at hloop hcy
      obtain ⟨h3, h4, h5, h6⟩ := hloop
      have h7 : s.cpu.length - b ≤ s1.cpu.length := h6
      rw [proceed, hp]
      refine ⟨⟨h5, ?_⟩, h3, ?_⟩
      · simp only [endRun_cpu, endRun_budget]; omega
      · refine (hf.t _ _).trans ?_
        have : f (endRun b e s1) = f s1 := hf.clock s1 _ _ s1.frameCycles
        rw [this, h4, hreq]

end Sys2Proof.Machine
end

