-- ==== Sys2Proof/Laws/PerInstr.lean ====
section
/-! SUPPORT. One fact per operation: its encoding is a transaction of the format that the format
column of spec/opcode_table.json gives its row. -/

namespace Sys2Proof.Laws.EncodedFormat

/-- The format column of spec/opcode_table.json (R65). -/
def tableFormat : Instr → Format
  | .portReadEven _ _ => .PR
  | .portReadOdd _ => .PR
  | .portWriteNmiOff _ _ => .PW
  | .portWriteNmiOn _ _ => .PW
  | .portWriteOther _ _ _ => .PW
  | .memFetchDirect _ => .MR
  | .memFetchMirror _ _ => .MR
  | .memRead _ => .MR
  | .memWrite _ _ => .MW
  | .instrDoneInt _ _ => .ID
  | .instrDoneNoint _ _ => .ID
  | .instrPre => .IP
  | .frame => .H
  | .renderLineRetrace _ => .S
  | .renderLineUpper _ => .S
  | .renderLineActive _ => .S
  | .renderLineLower _ => .S
  | .renderLineTrailing _ => .S
  | .pixel _ _ => .S
  | .lineTail => .S
  | .nmiPulse => .S
  | .tick _ => .S
  | .proceed _ => .S
  | .publish => .S
  | .powerRaise => .H
  | .powerLower => .H
  | .keyDown _ => .H
  | .keyUp _ => .H
  | .setEar _ => .H
  | .snapshotWrite _ _ _ => .H

/-- Under every configuration the encoding has the row's format. -/
def Statement (i : Instr) : Prop := ∀ c : Config, (encode c i).format = tableFormat i

theorem portReadEven (row : Byte) (low : BitVec 7) :
    Statement (.portReadEven row low) := fun _ => rfl
theorem portReadOdd (high : BitVec 15) : Statement (.portReadOdd high) := fun _ => rfl
theorem portWriteNmiOff (high : Byte) (d : Byte) :
    Statement (.portWriteNmiOff high d) := fun _ => rfl
theorem portWriteNmiOn (high : Byte) (d : Byte) : Statement (.portWriteNmiOn high d) := fun _ => rfl
theorem portWriteOther (high : Byte) (port : Byte) (d : Byte) :
    Statement (.portWriteOther high port d) := fun _ => rfl
theorem memFetchDirect (a : BitVec 15) : Statement (.memFetchDirect a) := fun _ => rfl
theorem memFetchMirror (bit14 : BitVec 1) (a : BitVec 14) :
    Statement (.memFetchMirror bit14 a) := fun _ => rfl
theorem memRead (a : Addr) : Statement (.memRead a) := fun _ => rfl
theorem memWrite (a : Addr) (d : Byte) : Statement (.memWrite a d) := fun _ => rfl
theorem instrDoneInt (bit7 : BitVec 1) (low : BitVec 6) :
    Statement (.instrDoneInt bit7 low) := fun _ => rfl
theorem instrDoneNoint (bit7 : BitVec 1) (low : BitVec 6) :
    Statement (.instrDoneNoint bit7 low) := fun _ => rfl
theorem instrPre : Statement (.instrPre) := fun _ => rfl
theorem frame : Statement (.frame) := fun _ => rfl
theorem renderLineRetrace (y : Nat) : Statement (.renderLineRetrace y) := fun _ => rfl
theorem renderLineUpper (y : Nat) : Statement (.renderLineUpper y) := fun _ => rfl
theorem renderLineActive (y : Nat) : Statement (.renderLineActive y) := fun _ => rfl
theorem renderLineLower (y : Nat) : Statement (.renderLineLower y) := fun _ => rfl
theorem renderLineTrailing (y : Nat) : Statement (.renderLineTrailing y) := fun _ => rfl
theorem pixel (x : Nat) (col : Colour) : Statement (.pixel x col) := fun _ => rfl
theorem lineTail : Statement (.lineTail) := fun _ => rfl
theorem nmiPulse : Statement (.nmiPulse) := fun _ => rfl
theorem tick (n : Nat) : Statement (.tick n) := fun _ => rfl
theorem proceed (n : Nat) : Statement (.proceed n) := fun _ => rfl
theorem publish : Statement (.publish) := fun _ => rfl
theorem powerRaise : Statement (.powerRaise) := fun _ => rfl
theorem powerLower : Statement (.powerLower) := fun _ => rfl
theorem keyDown (k : RawKey) : Statement (.keyDown k) := fun _ => rfl
theorem keyUp (k : RawKey) : Statement (.keyUp k) := fun _ => rfl
theorem setEar (b : Bool) : Statement (.setEar b) := fun _ => rfl
theorem snapshotWrite (region : LoadRegion) (off : Nat) (v : Byte) :
    Statement (.snapshotWrite region off v) := fun _ => rfl

end Sys2Proof.Laws.EncodedFormat
end

