-- ==== Sys2Proof/Tests/Slice0.lean ====
section
/-! SUPPORT. Tests. The expected values are those of spec/95_test_vectors.md, whose vector each test
names, or are worked by hand from the rule it names; the transactions are written out bit by bit from
spec/30_encoding.md and spec/opcode_table.json. The last part shows, for every statement of
Certificates/Slice0/Obligations.lean with hypotheses, a state and operands that meet them. -/

namespace Sys2Proof.Tests

open Sys2Proof.Machine

/-- The state a next outcome holds. -/
def result : Host.Outcome State Fault Refusal → Option State
  | .next t => some t
  | .fault _ => none
  | .refused _ => none

/-- What `f` reads in the state an operation leaves. -/
def seen {α : Type} (i : Instr) (s : State) (f : State → α) : Option α := (result (exec i s)).map f

/-- The block in the TINY configuration right after POWER_RAISE. -/
def idle : State := State.resetOf Config.tiny

/-- The same in a frame, with `NextLine` = `y` and a CPU engine about to execute instructions of one
cycle each, so that every run is exact. -/
def busy (y : Nat) : State :=
  { idle with inFrame := true, nextLine := y, cpu := List.replicate 30 ⟨[], 1⟩ }

/-- The block with the bytes of V-M1. -/
def filled : State :=
  { idle with
    mem := [(0x0000, 0x3E), (0x1FFF, 0xC9), (0x2000, 0x11), (0x3FFF, 0x22), (0x4000, 0x33),
      (0x5FFF, 0x44)] }

/-- Row `r` of the published framebuffer of a TINY block. -/
def row (r : Nat) (s : State) : List Colour := fbCells (s.published.getD []) (8 * r) 8

/-! ### Well-formedness: an ill-formed term for each check -/

theorem test_wf_nmiOn :
    (Instr.portWriteNmiOn 0 0).wellFormed { Config.tiny with nmiOnPort := 0xFD } = false := by decide

theorem test_wf_otherOff : (Instr.portWriteOther 0 0xFD 0).wellFormed Config.tiny = false := by decide

theorem test_wf_otherOn : (Instr.portWriteOther 0 0xFE 0).wellFormed Config.tiny = false := by decide

theorem test_wf_retrace : (Instr.renderLineRetrace 1).wellFormed Config.tiny = false := by decide

theorem test_wf_upper : (Instr.renderLineUpper 2).wellFormed Config.tiny = false := by decide

theorem test_wf_active : (Instr.renderLineActive 3).wellFormed Config.tiny = false := by decide

theorem test_wf_lower : (Instr.renderLineLower 4).wellFormed Config.tiny = false := by decide

theorem test_wf_trailing : (Instr.renderLineTrailing 0).wellFormed Config.tiny = false := by decide

theorem test_wf_pixel : (Instr.pixel 8 0).wellFormed Config.tiny = false := by decide

theorem test_wf_proceed : (Instr.proceed 0).wellFormed Config.tiny = false := by decide

/-! ### Decoding: a transaction of each row -/

/-- `rrrrrrrrxxxxxxx0` with r = 11110111, x = 1111111 (IN 0xF7FE). -/
theorem test_decode_portReadEven : decode Config.ref (.cpu (.pr 0b1111011111111110))
    = .ok (.portReadEven 0b11110111 0b1111111) := by decide

/-- `xxxxxxxxxxxxxxx1` (IN 0xFE01). -/
theorem test_decode_portReadOdd : decode Config.ref (.cpu (.pr 0b1111111000000001))
    = .ok (.portReadOdd 0b111111100000000) := by decide

/-- `xxxxxxxx11111101`. -/
theorem test_decode_portWriteNmiOff : decode Config.ref (.cpu (.pw 0b1010010111111101 0xFF))
    = .ok (.portWriteNmiOff 0b10100101 0xFF) := by decide

/-- `xxxxxxxx11111110` (OUT 0x12FE, 0x08). -/
theorem test_decode_portWriteNmiOn : decode Config.ref (.cpu (.pw 0b0001001011111110 0x08))
    = .ok (.portWriteNmiOn 0b00010010 0x08) := by decide

/-- `xxxxxxxxpppppppp` (OUT 0x1234, 0x00). -/
theorem test_decode_portWriteOther : decode Config.ref (.cpu (.pw 0b0001001000110100 0x00))
    = .ok (.portWriteOther 0b00010010 0b00110100 0x00) := by decide

/-- `0aaaaaaaaaaaaaaa` in phase M1. -/
theorem test_decode_memFetchDirect : decode Config.ref (.cpu (.mr 0b0111111111111111 .m1))
    = .ok (.memFetchDirect 0b111111111111111) := by decide

/-- `1xaaaaaaaaaaaaaa` in phase M1 (FETCH 0xE123). -/
theorem test_decode_memFetchMirror : decode Config.ref (.cpu (.mr 0b1110000100100011 .m1))
    = .ok (.memFetchMirror 1 0b10000100100011) := by decide

/-- `aaaaaaaaaaaaaaaa` in phase DATA. -/
theorem test_decode_memRead : decode Config.ref (.cpu (.mr 0b1110000100100011 .data))
    = .ok (.memRead 0b1110000100100011) := by decide

/-- `aaaaaaaaaaaaaaaa` of a write. -/
theorem test_decode_memWrite : decode Config.ref (.cpu (.mw 0b0010000000000000 0x55))
    = .ok (.memWrite 0x2000 0x55) := by decide

/-- `x0xxxxxx`. -/
theorem test_decode_instrDoneInt : decode Config.ref (.cpu (.id 0b10111110))
    = .ok (.instrDoneInt 1 0b111110) := by decide

/-- `x1xxxxxx`. -/
theorem test_decode_instrDoneNoint : decode Config.ref (.cpu (.id 0b01000001))
    = .ok (.instrDoneNoint 0 0b000001) := by decide

theorem test_decode_instrPre : decode Config.ref (.cpu .ip) = .ok .instrPre := by decide

theorem test_decode_frame : decode Config.ref (.host .frame) = .ok .frame := by decide

/-- V-R4, the retrace lines of REF. -/
theorem test_decode_renderLineRetrace : decode Config.ref (.seq (.renderLine 15))
    = .ok (.renderLineRetrace 15) := by decide

/-- V-R4, the upper border lines of REF. -/
theorem test_decode_renderLineUpper :
    decode Config.ref (.seq (.renderLine 16)) = .ok (.renderLineUpper 16) ∧
    decode Config.ref (.seq (.renderLine 63)) = .ok (.renderLineUpper 63) := by decide

/-- V-R4, the active lines of REF. -/
theorem test_decode_renderLineActive :
    decode Config.ref (.seq (.renderLine 64)) = .ok (.renderLineActive 64) ∧
    decode Config.ref (.seq (.renderLine 255)) = .ok (.renderLineActive 255) := by decide

/-- V-R4, the lower border lines of REF. -/
theorem test_decode_renderLineLower :
    decode Config.ref (.seq (.renderLine 256)) = .ok (.renderLineLower 256) ∧
    decode Config.ref (.seq (.renderLine 311)) = .ok (.renderLineLower 311) := by decide

/-- V-R4, the trailing lines of TINY. -/
theorem test_decode_renderLineTrailing :
    decode Config.tiny (.seq (.renderLine 4)) = .ok (.renderLineTrailing 4) ∧
    decode Config.tiny (.seq (.renderLine 5)) = .ok (.renderLineTrailing 5) := by decide

/-- R82: the last column of TINY is 7. -/
theorem test_decode_pixel : decode Config.tiny (.seq (.pixel 7 5)) = .ok (.pixel 7 5) ∧
    decode Config.tiny (.seq (.pixel 8 5)) = .error .pixelColumn := by decide

theorem test_decode_lineTail : decode Config.ref (.seq .lineTail) = .ok .lineTail := by decide

theorem test_decode_nmiPulse : decode Config.ref (.seq .nmiPulse) = .ok .nmiPulse := by decide

theorem test_decode_tick : decode Config.ref (.seq (.tick 0)) = .ok (.tick 0) := by decide

/-- R74: `n >= 1`. -/
theorem test_decode_proceed : decode Config.ref (.seq (.proceed 1)) = .ok (.proceed 1) ∧
    decode Config.ref (.seq (.proceed 0)) = .error .proceedZero := by decide

theorem test_decode_publish : decode Config.ref (.seq .publish) = .ok .publish := by decide

theorem test_decode_powerRaise : decode Config.ref (.host .powerRaise) = .ok .powerRaise := by decide

theorem test_decode_powerLower : decode Config.ref (.host .powerLower) = .ok .powerLower := by decide

theorem test_decode_keyDown : decode Config.ref (.host (.keyDown 2)) = .ok (.keyDown 2) := by decide

theorem test_decode_keyUp : decode Config.ref (.host (.keyUp 2)) = .ok (.keyUp 2) := by decide

theorem test_decode_setEar : decode Config.ref (.host (.setEar true)) = .ok (.setEar true) := by decide

theorem test_decode_snapshotWrite : decode Config.ref (.host (.snapshotWrite .ram 0x3FFF 0x01))
    = .ok (.snapshotWrite .ram 0x3FFF 0x01) := by decide

/-- Bare patterns of the table, read as log 13 says. -/
theorem test_decodeTableWord :
    decodeTableWord 16 0x0001 = some (.portReadOdd 0) ∧
    decodeTableWord 16 0x00FD = some (.portWriteNmiOff 0 0) ∧
    decodeTableWord 16 0x00FE = some (.portWriteNmiOn 0 0) ∧
    decodeTableWord 16 0x0000 = some (.memFetchDirect 0) ∧
    decodeTableWord 16 0x8000 = some (.memFetchMirror 0 0) ∧
    decodeTableWord 8 0x00 = some (.instrDoneInt 0 0) ∧
    decodeTableWord 8 0x40 = some (.instrDoneNoint 0 0) := by decide

/-- The next step after `withFetchWord` runs the operation of that word. -/
theorem test_withFetchWord : (result (step (State.reset.withFetchWord 8 0x00))).map (·.trace)
    = some [.intLower] := by decide

/-- R132: with no transaction waiting a step changes nothing. -/
theorem test_step_idle : (result (step idle)).map (·.trace) = some [] := by decide

/-! ### Ports and keyboard -/

/-- V-P1, fifth row: the value is composed before the side effect. -/
theorem test_portReadEven_nmiOff :
    seen (.portReadEven 0xF7 0x7F) { idle with pressed := [2], ear := true, lineCounter := 9 }
      (fun t => (t.replies, t.ear, t.lineCounter)) = some ([0xFD], false, 0) := by decide

/-- V-P1, eighth row: columns 0b01100, and no side effect while NMI is on. -/
theorem test_portReadEven_nmiOn :
    seen (.portReadEven 0xF7 0x7F)
      { idle with pressed := [1, 2, 5], nmiEnabled := true, lineCounter := 9 }
      (fun t => (t.replies, t.ear, t.lineCounter)) = some ([0x6C], false, 9) := by decide

/-- V-P2: no side effect even while NMI is off. -/
theorem test_portReadOdd :
    seen (.portReadOdd 0x7BFF) { idle with pressed := [2], ear := true, lineCounter := 9 }
      (fun t => (t.replies, t.ear, t.lineCounter)) = some ([0xFF], true, 9) := by decide

/-- V-P3, third row, with NMI on before. -/
theorem test_portWriteNmiOff :
    seen (.portWriteNmiOff 0xFF 0xFF)
      { idle with nmiEnabled := true, lineCounter := 30, borderColor := 2 }
      (fun t => (t.nmiEnabled, t.mic, t.lineCounter, t.borderColor))
      = some (false, true, 0, 7) := by decide

/-- V-P3, second row: `D[7:3]` is ignored. -/
theorem test_portWriteNmiOn :
    seen (.portWriteNmiOn 0x12 0x08) { idle with lineCounter := 30, borderColor := 2 }
      (fun t => (t.nmiEnabled, t.mic, t.lineCounter, t.borderColor))
      = some (true, true, 0, 0) := by decide

/-- V-P3, fourth row: OUT 0x00FF leaves NMI as it is. -/
theorem test_portWriteOther :
    seen (.portWriteOther 0x00 0xFF 0x03) { idle with lineCounter := 30, borderColor := 2 }
      (fun t => (t.nmiEnabled, t.mic, t.lineCounter, t.borderColor))
      = some (false, true, 0, 3) := by decide

/-! ### Memory -/

/-- V-M1: a fetch at 0x4000, and at 0x6000. -/
theorem test_memFetchDirect :
    seen (.memFetchDirect 0x4000) filled (·.replies) = some [0x33] ∧
    seen (.memFetchDirect 0x6000) filled (·.replies) = some [0xFF] := by decide

/-- V-M1: fetches at 0x9FFF, 0xA000 and 0xFFFF. -/
theorem test_memFetchMirror :
    seen (.memFetchMirror 0 0x1FFF) filled (·.replies) = some [0xC9] ∧
    seen (.memFetchMirror 0 0x2000) filled (·.replies) = some [0x11] ∧
    seen (.memFetchMirror 1 0x3FFF) filled (·.replies) = some [0x22] := by decide

/-- V-M1: a data read is not mirrored. -/
theorem test_memRead :
    seen (.memRead 0xA000) filled (·.replies) = some [0xFF] ∧
    seen (.memRead 0x5FFF) filled (·.replies) = some [0x44] := by decide

/-- V-M2: a write to RAM, stored at its data address. -/
theorem test_memWrite_ram : seen (.memWrite 0x5FFF 0x77) idle (·.mem) = some [(0x5FFF, 0x77)] := by
  decide

/-- V-M2: writes outside RAM are discarded. -/
theorem test_memWrite_discarded :
    seen (.memWrite 0x1FFF 0xAA) idle (·.mem) = some [] ∧
    seen (.memWrite 0x6000 0x12) idle (·.mem) = some [] ∧
    seen (.memWrite 0xA000 0x12) idle (·.mem) = some [] := by decide

/-- R119, V-M3: a byte of ROM, and the last byte of RAM at its data address. -/
theorem test_snapshotWrite :
    seen (.snapshotWrite .rom 3 0x76) idle (·.mem) = some [(3, 0x76)] ∧
    seen (.snapshotWrite .ram 0x3FFF 0x01) idle (·.mem) = some [(0x5FFF, 0x01)] := by decide

/-- V-M3: SNAPSHOT_RANGE. -/
theorem test_snapshotWrite_range :
    seen (.snapshotWrite .ram 0x4000 0x01) idle (·.faulted)
      = some (some (.snapshotRange .ram 0x4000)) ∧
    seen (.snapshotWrite .rom 0x2000 0x76) idle (·.faulted)
      = some (some (.snapshotRange .rom 0x2000)) := by decide

/-! ### Interrupts -/

/-- V-I1: R = 0x80, bit 7 is not tested. -/
theorem test_instrDoneInt : seen (.instrDoneInt 1 0) idle (·.trace) = some [.intLower] := by decide

/-- V-I1: R = 0xFF. -/
theorem test_instrDoneNoint : seen (.instrDoneNoint 1 0x3F) idle (·.trace) = some [] := by decide

/-- V-I2. -/
theorem test_instrPre : seen .instrPre idle (·.trace) = some [] := by decide

/-- R106. -/
theorem test_nmiPulse : seen .nmiPulse idle (·.trace) = some [.nmiLower] := by decide

/-! ### Clock -/

/-- V-C1: tick(7) from T = 1 and tick(4) from T = 1. -/
theorem test_tick :
    seen (.tick 7) { busy 0 with t := 1 } (fun t => (t.t, t.trace))
      = some (0, [.proceed 4, .run 4 4]) ∧
    seen (.tick 4) { busy 0 with t := 1 } (fun t => (t.t, t.trace))
      = some (1, [.proceed 2, .run 2 2]) := by decide

/-- V-C1: tick(1) from T = 0 makes no cycle. -/
theorem test_tick_none : seen (.tick 1) idle (fun t => (t.t, t.trace)) = some (1, []) := by decide

/-- V-C2: Budget -1, PROCEED(2), e = 13. -/
theorem test_proceed_overdraft :
    seen (.proceed 2) { idle with budget := -1, cpu := [⟨[], 13⟩] }
      (fun t => (t.budget, t.frameCycles, t.trace))
      = some (-12, 2, [.proceed 2, .run 1 13]) := by decide

/-- V-C2: Budget -1, PROCEED(1): the CPU is not called on a budget of 0. -/
theorem test_proceed_notCalled :
    seen (.proceed 1) { idle with budget := -1, cpu := [⟨[], 4⟩] }
      (fun t => (t.budget, t.frameCycles, t.trace)) = some (0, 1, [.proceed 1]) := by decide

/-! ### Raster -/

/-- V-R1, line 0. -/
theorem test_renderLineRetrace :
    seen (.renderLineRetrace 0) (busy 0) (fun t => (t.nextLine, t.lineCounter, t.trace))
      = some (1, 1, [.proceed 4, .run 4 4, .proceed 2, .run 2 2]) := by decide

/-- V-R1, line 1, with the border 7 of V-R2: eight pixels of the border colour. -/
theorem test_renderLineUpper :
    seen (.renderLineUpper 1) { busy 1 with borderColor := 7 }
      (fun t => (fbCells t.fb 0 9, t.trace))
      = some ([7, 7, 7, 7, 7, 7, 7, 7, 0], [.proceed 1, .run 1 1, .proceed 1, .run 1 1,
        .proceed 1, .run 1 1, .proceed 1, .run 1 1, .proceed 2, .run 2 2]) := by decide

/-- V-R2, line 2: the video segment is not the border's. -/
theorem test_renderLineActive :
    seen (.renderLineActive 2) { busy 2 with borderColor := 7 } (fun t => fbCells t.fb 8 8)
      = some [7, 7, 0, 0, 0, 0, 7, 7] := by decide

/-- V-R6: a port write in the run after pixel 1 changes the border from pixel 2 on. -/
theorem test_renderLineLower :
    seen (.renderLineLower 3) { busy 3 with cpu := [⟨[.pw 0xFDFE 0xFD], 11⟩] }
      (fun t => fbCells t.fb 16 8) = some [0, 0, 5, 5, 5, 5, 5, 5] := by decide

/-- V-S12: a trailing line pulses NMI before its tail's PROCEED. -/
theorem test_renderLineTrailing :
    seen (.renderLineTrailing 4) { busy 4 with nmiEnabled := true }
      (fun t => (t.nextLine, t.lineCounter, t.trace))
      = some (5, 1, [.nmiLower, .proceed 2, .run 2 2]) := by decide

/-- V-R7: RENDER_LINE out of its order, and past the last line. -/
theorem test_renderLine_order :
    seen (.renderLineLower 3) (busy 2) (·.faulted) = some (some (.renderOrder 3 2)) ∧
    seen (.renderLineTrailing 6) (busy 6) (·.faulted) = some (some (.renderOrder 6 6)) := by decide

/-- V-R5: PIXEL(3, 0) at line 2 with T = 1. -/
theorem test_pixel :
    seen (.pixel 3 0) { busy 2 with t := 1, fb := [(11, 4)] } (fun t => (t.fb, t.t, t.trace))
      = some ([], 0, [.proceed 1, .run 1 1]) := by decide

/-- V-R5: PIXEL(0, 5) at line 1. -/
theorem test_pixel_first : seen (.pixel 0 5) (busy 1) (·.fb) = some [(0, 5)] := by decide

/-- R89: the counter wraps modulo 2^16 (R22). -/
theorem test_lineTail :
    seen .lineTail { busy 1 with nmiEnabled := true, lineCounter := 0xFFFF }
      (fun t => (t.lineCounter, t.trace))
      = some (0, [.nmiLower, .proceed 2, .run 2 2]) := by decide

/-- R90. -/
theorem test_publish : seen .publish { idle with fb := [(3, 5)] } (fun t => (t.published, t.trace))
    = some (some [(3, 5)], [.publish]) := by decide

/-! ### Frames: programs P1 and P3 of 95_test_vectors.md, first frame each -/

/-- The CPU instructions of program P1's first frame. -/
def programP1 : List CpuInstr :=
  [ ⟨[.mr 0x0000 .m1, .mr 0x0001 .data, .id 0x40], 7⟩,
    ⟨[.mr 0x0002 .m1, .mr 0x0003 .data, .pw 0x07FE 0x07, .id 0x40], 11⟩,
    ⟨[.mr 0x0004 .m1, .mr 0x0005 .data, .id 0x40], 12⟩ ]

/-- P1, end of frame 1. -/
theorem test_frame_P1 :
    seen .frame { idle with cpu := programP1 }
      (fun t => (t.nmiEnabled, t.borderColor, t.lineCounter, t.budget, t.frameCycles))
      = some (true, 7, 5, -2, 28) ∧
    seen .frame { idle with cpu := programP1 } (fun t => (row 0 t, row 1 t, row 2 t))
      = some ([0, 0, 0, 0, 7, 7, 7, 7], [7, 7, 0, 0, 0, 0, 7, 7], [7, 7, 7, 7, 7, 7, 7, 7]) := by
  decide

/-- The bytes of program P3 as ROM. -/
def romP3 : List Host.Cell :=
  [(0, 0x3E), (1, 0xF7), (2, 0xDB), (3, 0xFE), (4, 0xD3), (5, 0xFE)]

/-- The CPU instructions of program P3. -/
def programP3 : List CpuInstr :=
  [ ⟨[.mr 0x0000 .m1, .mr 0x0001 .data, .id 0x01], 7⟩,
    ⟨[.mr 0x0002 .m1, .mr 0x0003 .data, .pr 0xF7FE, .id 0x02], 11⟩,
    ⟨[.mr 0x0004 .m1, .mr 0x0005 .data, .pw 0xFDFE 0xFD, .id 0x03], 11⟩ ]

/-- The block before program P3's frame. -/
def beforeP3 : State :=
  { idle with cpu := programP3, mem := romP3, pressed := [2], ear := true }

/-- P3, end state. -/
theorem test_frame_P3 :
    seen .frame beforeP3 (fun t => (t.nmiEnabled, t.borderColor, t.ear, t.lineCounter, t.budget))
      = some (true, 5, false, 3, -1) ∧
    seen .frame beforeP3 (fun t => (t.replies, pulses t.trace, row 1 t, row 2 t))
      = some ([0x3E, 0xF7, 0xDB, 0xFE, 0xFD, 0xD3, 0xFE], 3, [0, 0, 0, 0, 0, 0, 0, 0],
        [0, 0, 5, 5, 5, 5, 5, 5]) := by decide

/-! ### Host operations and lifecycle -/

/-- V-M3 and V-H3: a load is lost, the press set survives. -/
theorem test_powerRaise :
    seen .powerRaise { filled with pressed := [2], budget := -3, nextLine := 6, mic := true }
      (fun t => (t.mem, t.pressed, t.budget, t.nextLine, t.mic))
      = some ([], [2], 0, 0, false) := by decide

/-- R131. -/
theorem test_powerLower : seen .powerLower idle (·.powered) = some false := by decide

/-- V-H1: FRAME while unpowered. -/
theorem test_frame_notPowered :
    seen .frame { idle with powered := false } (·.faulted) = some (some (.notPowered .frame)) := by
  decide

/-- V-P4: a key already down. -/
theorem test_keyDown : seen (.keyDown 2) { idle with pressed := [2] } (·.pressed) = some [2] := by
  decide

/-- V-P4: a key that is not down. -/
theorem test_keyUp : seen (.keyUp 3) { idle with pressed := [2] } (·.pressed) = some [2] := by
  decide

/-- V-P4. -/
theorem test_setEar : seen (.setEar true) idle (·.ear) = some true ∧
    seen (.setEar true) (busy 1) (·.faulted) = some (some (.hostInFrame (.setEar true))) := by decide

/-- V-H2: three of the refused configurations, each with its clause. -/
theorem test_construct :
    (construct { Config.tiny with ticksPerCycle := 1 } idle).faulted
      = some (.configInvalid .ticksPerCycle) ∧
    (construct { Config.tiny with totalHeight := 3 } idle).faulted
      = some (.configInvalid .bandSum) ∧
    (construct { Config.tiny with ramEnd := 0x8000 } idle).faulted
      = some (.configInvalid .fixedLayout) := by decide

/-- R138: a frame still waiting, a frame in flight and a fault are no good end. -/
theorem test_endedWell :
    endedWell idle = true ∧ endedWell { idle with inbox := [.host .frame] } = false ∧
    endedWell (busy 0) = false ∧
    endedWell { idle with faulted := some (.notPowered .frame) } = false := by decide

/-- A TINY block at the start of a run (R20, R138). -/
theorem tiny_runStart (ops : List HostOp) : runStart Config.tiny idle [] ops
    = { idle with powered := false, inbox := ops.map Transaction.host } := by
  rw [runStart, construct, firstBroken_of_admitted tiny_admitted]
  rfl

/-- R138, R131: after POWER_LOWER a frame faults, and the run does not come to an operation after it. -/
theorem test_hostRun :
    (result (hostRun Config.tiny idle [] [.powerRaise, .powerLower, .frame])).map endedWell
      = some false ∧
    result (hostRun Config.tiny idle [] [.powerRaise, .powerLower, .frame, .keyDown 2]) = none := by
  simp only [hostRun, tiny_runStart]
  exact ⟨rfl, rfl⟩

/-! ### Witnesses: states and operands that meet the hypotheses of the statements -/

/-- A faulted block. -/
def stuckBlock : State := { idle with faulted := some (.notPowered .frame) }

/-- A block before a frame whose CPU engine reads odd ports only. -/
def quietFrame : State := { idle with cpu := List.replicate 28 ⟨[.pr 0x00FF], 1⟩ }

/-- A block before a frame with NMI enabled, whose CPU engine reads even ports. -/
def pulsingFrame : State :=
  { idle with nmiEnabled := true, cpu := List.replicate 28 ⟨[.pr 0xF7FE], 1⟩ }

/-- The reference configuration at line `y` of a frame, with one instruction for every cycle of a band
part. -/
def refLine (y : Nat) : State :=
  { State.reset with inFrame := true, nextLine := y, cpu := List.replicate 176 ⟨[.pr 0x00FF], 1⟩ }

theorem refLine_length (y : Nat) : (refLine y).cpu.length = 176 := List.length_replicate

theorem refLine_quiet (y : Nat) : ∀ i ∈ (refLine y).cpu, noPortWrite i = true := by
  intro i hi
  rw [List.eq_of_mem_replicate hi]
  decide

/-- A block at line 2 of a frame, with a transaction waiting. -/
def inFrameInv : State :=
  { busy 2 with
    t := 1
    budget := -12
    mem := [(0x0000, 0x3E), (0x5FFF, 0x44)]
    fb := [(0, 5), (23, 7)]
    pressed := [2, 65]
    trace := [.proceed 4, .run 4 7, .nmiLower]
    inbox := [.seq (.pixel 3 4)] }

/-- Both values of the NMI flag. -/
theorem witness_EvenPortReadAnswersThenResets :
    idle.faulted = none ∧ idle.nmiEnabled = false ∧
    { idle with nmiEnabled := true }.faulted = none :=
  ⟨rfl, rfl, rfl⟩

/-- The bounds of the three ranges. -/
theorem witness_EvenPortReadByteLayout : 0 < 8 ∧ 4 < 8 ∧ 5 < 8 ∧ 6 < 8 ∧ 7 < 8 := by decide

/-- An unmapped row and a mapped one. -/
theorem witness_KeyColumnsAreActiveLow :
    keyRow idle.cfg 0x00 = none ∧ keyRow idle.cfg 0xF7 = some [1, 2, 3, 4, 5] ∧
    [1, 2, 3, 4, 5].length = 5 ∧ 0 < 5 ∧ 4 < 5 := by decide

/-- V-P1's unmapped row 0xF6. -/
theorem witness_OnlyEightRowSelectsAreMapped :
    idle.cfg.keyRows = Config.keyRowsStandard ∧
    0xF6#8 ∉ [0xFE#8, 0xFD#8, 0xFB#8, 0xF7#8, 0xEF#8, 0xDF#8, 0xBF#8, 0x7F#8] := by decide

theorem witness_OddPortReadReturnsOnes : idle.faulted = none := rfl

/-- The ports beside the two NMI ports. -/
theorem witness_PortWriteEffects :
    idle.faulted = none ∧ idle.cfg.nmiOnPort ≠ idle.cfg.nmiOffPort ∧
    0xFF#8 ≠ idle.cfg.nmiOffPort ∧ 0xFF#8 ≠ idle.cfg.nmiOnPort ∧
    0xFC#8 ≠ idle.cfg.nmiOffPort ∧ 0xFC#8 ≠ idle.cfg.nmiOnPort := by decide

/-- An NMI port, POWER_RAISE in a frame, another operation. -/
theorem witness_NmiFlagWrittenOnlyByItsPortsAndReset :
    (runsCpu (.portWriteNmiOn 0 0) = false ∧
      (Instr.portWriteNmiOn 0 0).wellFormed idle.cfg = true ∧
      ∃ t, exec (.portWriteNmiOn 0 0) idle = .next t) ∧
    (runsCpu .powerRaise = false ∧ Instr.powerRaise.wellFormed (busy 0).cfg = true ∧
      ∃ t, exec .powerRaise (busy 0) = .next t) ∧
    (runsCpu .publish = false ∧ Instr.publish.wellFormed idle.cfg = true ∧
      ∃ t, exec .publish idle = .next t) :=
  ⟨⟨rfl, by decide, _, rfl⟩, ⟨rfl, rfl, _, rfl⟩, rfl, rfl, _, rfl⟩

/-- The addresses where the clauses meet. -/
theorem witness_MapperNormalisesThenClassifies :
    idle.cfg.admitted = true ∧ 0x8000 ≤ (0x8000#16).toNat ∧ ¬0x8000 ≤ (0x7FFF#16).toNat ∧
    (normalise 0x9FFF .m1).toNat < 0x2000 ∧ ¬(normalise 0xA000 .m1).toNat < 0x2000 ∧
    (normalise 0x5FFF .data).toNat < 0x6000 ∧ ¬(normalise 0x6000 .data).toNat < 0x6000 :=
  ⟨tiny_admitted, by decide⟩

/-- The addresses where the clauses meet. -/
theorem witness_EffectiveViewOfReads :
    idle.cfg.admitted = true ∧ (0x1FFF#16).toNat < 0x2000 ∧
    ¬(0x2000#16).toNat < 0x2000 ∧ (0x5FFF#16).toNat < 0x6000 ∧ ¬(0x6000#16).toNat < 0x6000 ∧
    (0x7FFF#16).toNat < 0x8000 ∧ ¬(0x8000#16).toNat < 0x8000 ∧ ¬(0xE000#16).toNat < 0xE000 :=
  ⟨tiny_admitted, by decide⟩

theorem witness_ReadsAndFetchesReturnTheByte : filled.faulted = none := rfl

/-- The bounds of RAM. -/
theorem witness_WriteStoresOnlyInRam :
    idle.faulted = none ∧ idle.cfg.admitted = true ∧ (0x1FFF#16).toNat < 0x2000 ∧
    0x6000 ≤ (0x6000#16).toNat ∧ (0x2000#16).toNat = 0x2000 + 0 ∧
    (0x5FFF#16).toNat = 0x2000 + 0x3FFF :=
  ⟨rfl, tiny_admitted, by decide⟩

/-- A store read through the mirror and directly. -/
theorem witness_StoreSeenAtOnceByReadsAndFetches :
    idle.cfg.admitted = true ∧ (∃ t, exec (.memWrite 0x2000 0x55) idle = .next t) ∧
    normalise 0xE000 .m1 = 0x2000 ∧ normalise 0x2000 .data = 0x2000 :=
  ⟨tiny_admitted, ⟨_, rfl⟩, by decide⟩

/-- A faulted block, a block in a frame, and at the bounds of each region. -/
theorem witness_SnapshotWriteStoresInItsRegion :
    stuckBlock.faulted = some (.notPowered .frame) ∧
    (busy 0).faulted = none ∧ (busy 0).inFrame = true ∧
    idle.faulted = none ∧ idle.inFrame = false ∧ idle.cfg.admitted = true ∧
    0x1FFF < 0x2000 ∧ 0x2000 ≤ 0x2000 ∧ 0x3FFF < 0x4000 ∧ 0x4000 ≤ 0x4000 :=
  ⟨rfl, rfl, rfl, rfl, rfl, tiny_admitted, by decide⟩

/-- A write to the last ROM address, and POWER_RAISE between frames. -/
theorem witness_RomChangesOnlyBySnapshotOrPower :
    0x1FFF < 0x2000 ∧ (∃ t, exec (.memWrite 0x1FFF 0xAA) idle = .next t) ∧
    (∀ o v, Instr.memWrite 0x1FFF 0xAA ≠ .snapshotWrite .rom o v) ∧
    Instr.memWrite 0x1FFF 0xAA ≠ .powerRaise ∧
    (∃ t, exec .powerRaise idle = .next t) ∧ idle.inFrame = false ∧ idle.cfg.admitted = true :=
  ⟨by decide, ⟨_, rfl⟩, fun _ _ h => (nomatch h), fun h => (nomatch h), ⟨_, rfl⟩, rfl,
    tiny_admitted⟩

theorem witness_InterruptOperationsEmitTheirEvents : idle.faulted = none := rfl

/-- The last `n` without a cycle and the first with one. -/
theorem witness_TickMakesTwoTicksOneCycle :
    idle.faulted = none ∧ idle.t + 1 < 2 ∧ 2 ≤ idle.t + 2 := by decide

/-- Both rest values. -/
theorem witness_HalvingLaw : idle.t ≤ 1 ∧ { idle with t := 1 }.t ≤ 1 := by decide

/-- V-C2, fourth and fifth rows: a budget of exactly 0, and of 1. -/
theorem witness_ProceedRunsTheCpuOnItsBudget :
    { idle with budget := -1 }.faulted = none ∧
    { idle with budget := -1 }.budget + ((1 : Nat) : Int) ≤ 0 ∧
    0 < { idle with budget := -1 }.budget + ((2 : Nat) : Int) ∧ 1 ≤ idle.cfg.maxOverrun := by
  decide

/-- The lowest budget of MAX_OVERRUN = 13. -/
theorem witness_BudgetStaysInItsBound :
    (∃ t, exec (.proceed 2) { idle with budget := -12 } = .next t) ∧
    -(idle.cfg.maxOverrun : Int) < -12 ∧ (-12 : Int) ≤ 0 ∧ idle.budget ≤ 0 :=
  ⟨⟨_, rfl⟩, by decide⟩

theorem witness_DriftIsTheBudget :
    Instr.proceed 4 ≠ .powerRaise ∧ ∃ t, exec (.proceed 4) (busy 0) = .next t :=
  ⟨fun h => (nomatch h), _, rfl⟩

/-- The first and the last cell of TINY. -/
theorem witness_PixelWritesItsCellThenTicks :
    ((busy 1).faulted = none ∧ (busy 1).cfg.vretraceLines ≤ (busy 1).nextLine ∧
      (busy 1).nextLine - (busy 1).cfg.vretraceLines < rasterHeight (busy 1).cfg ∧
      0 < rasterWidth (busy 1).cfg) ∧
    ((busy 3).faulted = none ∧ (busy 3).cfg.vretraceLines ≤ (busy 3).nextLine ∧
      (busy 3).nextLine - (busy 3).cfg.vretraceLines < rasterHeight (busy 3).cfg ∧
      7 < rasterWidth (busy 3).cfg) := by decide

theorem witness_LineTailPulsesCountsThenTicks : (busy 0).faulted = none := rfl

/-- V-R7, each of the three causes of RENDER_ORDER, and a line of each band in its order. -/
theorem witness_RenderLineIsBandPartThenTail :
    (idle.faulted = none ∧ idle.inFrame = false) ∧
    ((busy 2).faulted = none ∧ 3 ≠ (busy 2).nextLine ∧ 1 ≠ (busy 2).nextLine) ∧
    ((busy 6).faulted = none ∧ (busy 6).cfg.totalHeight ≤ 6) ∧
    (∀ y, y < 6 → (busy y).faulted = none ∧ (busy y).inFrame = true ∧
      y = (busy y).nextLine ∧ y < (busy y).cfg.totalHeight) ∧
    bandOf (busy 0).cfg 0 = .retrace ∧ bandOf (busy 1).cfg 1 = .upper ∧
    bandOf (busy 2).cfg 2 = .active ∧ bandOf (busy 3).cfg 3 = .lower ∧
    bandOf (busy 4).cfg 4 = .trailing ∧ bandOf (busy 5).cfg 5 = .trailing :=
  ⟨by decide, by decide, by decide, fun _ h => ⟨rfl, rfl, rfl, h⟩, by decide⟩

/-- A drawn line and a trailing one. -/
theorem witness_LineAddsItsTicks :
    (busy 2).faulted = none ∧ (busy 2).inFrame = true ∧ 2 = (busy 2).nextLine ∧
    2 < (busy 2).cfg.totalHeight ∧ (busy 2).t ≤ 1 ∧
    (busy 5).faulted = none ∧ (busy 5).inFrame = true ∧ 5 = (busy 5).nextLine ∧
    5 < (busy 5).cfg.totalHeight ∧ (busy 5).t ≤ 1 := by decide

theorem witness_RetraceAndTrailingLinesDrawNothing :
    (∃ t, exec (.renderLineRetrace 0) (busy 0) = .next t) ∧
    ∃ t, exec (.renderLineTrailing 5) (busy 5) = .next t :=
  ⟨⟨_, rfl⟩, _, rfl⟩

/-- The first and the last column of a segment, and the first and the last cell of TINY. -/
theorem witness_SegmentReadsItsSourceForEveryPixel :
    0 < 8 ∧ 7 < 8 ∧
    ((busy 1).faulted = none ∧ (busy 1).cfg.vretraceLines ≤ (busy 1).nextLine ∧
      (busy 1).nextLine - (busy 1).cfg.vretraceLines < rasterHeight (busy 1).cfg ∧
      0 < rasterWidth (busy 1).cfg) ∧
    ((busy 3).faulted = none ∧ (busy 3).cfg.vretraceLines ≤ (busy 3).nextLine ∧
      (busy 3).nextLine - (busy 3).cfg.vretraceLines < rasterHeight (busy 3).cfg ∧
      7 < rasterWidth (busy 3).cfg) := by decide

/-- REF's last upper border line, its CPU running: one listed instruction for each of the 176 cycles
of the band part, and a budget at rest. -/
theorem witness_BorderLineFillsItsRow_running :
    (refLine 63).faulted = none ∧ (refLine 63).inFrame = true ∧ 63 = (refLine 63).nextLine ∧
    63 < (refLine 63).cfg.totalHeight ∧ bandOf (refLine 63).cfg 63 = .upper ∧
    (refLine 63).budget + ((((refLine 63).t + rasterWidth (refLine 63).cfg) / 2 : Nat) : Int)
      ≤ ((refLine 63).cpu.length : Int) ∧
    (∀ i ∈ (refLine 63).cpu, noPortWrite i = true) ∧
    0 < rasterWidth (refLine 63).cfg ∧ 351 < rasterWidth (refLine 63).cfg :=
  ⟨rfl, rfl, rfl, by decide, by decide, by rw [refLine_length]; decide, refLine_quiet 63, by decide⟩

/-- Both borders, and an overdraft just enough. -/
theorem witness_BorderLineFillsItsRow :
    ((busy 1).faulted = none ∧ (busy 1).inFrame = true ∧ 1 = (busy 1).nextLine ∧
      1 < (busy 1).cfg.totalHeight ∧ bandOf (busy 1).cfg 1 = .upper) ∧
    ((busy 3).faulted = none ∧ (busy 3).inFrame = true ∧ 3 = (busy 3).nextLine ∧
      3 < (busy 3).cfg.totalHeight ∧ bandOf (busy 3).cfg 3 = .lower) ∧
    { busy 1 with budget := -4 }.budget + ((((busy 1).t + rasterWidth (busy 1).cfg) / 2 : Nat) : Int)
      ≤ 0 ∧ 0 < rasterWidth (busy 1).cfg ∧ 7 < rasterWidth (busy 1).cfg := by decide

/-- REF's first active line, its CPU running as above, at the columns where the segments meet. -/
theorem witness_ActiveLineFillsItsVideoSegment_running :
    (refLine 64).faulted = none ∧ (refLine 64).inFrame = true ∧ 64 = (refLine 64).nextLine ∧
    64 < (refLine 64).cfg.totalHeight ∧ bandOf (refLine 64).cfg 64 = .active ∧
    (refLine 64).budget + ((((refLine 64).t + rasterWidth (refLine 64).cfg) / 2 : Nat) : Int)
      ≤ ((refLine 64).cpu.length : Int) ∧
    (∀ i ∈ (refLine 64).cpu, noPortWrite i = true) ∧
    segmentOf (refLine 64).cfg 47 ≠ .video ∧ segmentOf (refLine 64).cfg 48 = .video ∧
    segmentOf (refLine 64).cfg 303 = .video ∧ segmentOf (refLine 64).cfg 304 ≠ .video ∧
    304 < rasterWidth (refLine 64).cfg :=
  ⟨rfl, rfl, rfl, by decide, by decide, by rw [refLine_length]; decide, refLine_quiet 64, by decide⟩

/-- The columns where the segments meet. -/
theorem witness_ActiveLineFillsItsVideoSegment :
    ((busy 2).faulted = none ∧ (busy 2).inFrame = true ∧ 2 = (busy 2).nextLine ∧
      2 < (busy 2).cfg.totalHeight ∧ bandOf (busy 2).cfg 2 = .active) ∧
    segmentOf (busy 2).cfg 1 ≠ .video ∧ segmentOf (busy 2).cfg 2 = .video ∧
    segmentOf (busy 2).cfg 5 = .video ∧ segmentOf (busy 2).cfg 6 ≠ .video ∧
    6 < rasterWidth (busy 2).cfg ∧
    { busy 2 with budget := -4 }.budget + ((((busy 2).t + rasterWidth (busy 2).cfg) / 2 : Nat) : Int)
      ≤ 0 := by decide

/-- A faulted block, an unpowered one, one in a frame, and one that may start a frame. -/
theorem witness_FrameIsItsLinesThenPublish :
    stuckBlock.faulted = some (.notPowered .frame) ∧
    ({ idle with powered := false }.faulted = none ∧
      { idle with powered := false }.powered = false) ∧
    ((busy 0).faulted = none ∧ (busy 0).powered = true ∧ (busy 0).inFrame = true) ∧
    (idle.faulted = none ∧ idle.powered = true ∧ idle.inFrame = false) := by decide

theorem witness_FrameCompletes :
    idle.faulted = none ∧ idle.powered = true ∧ idle.inFrame = false := by decide

/-- At rest, and at the bounds. -/
theorem witness_FrameRequestsItsCycles :
    CleanEntry idle ∧ CleanEntry { idle with t := 1, budget := -12 } :=
  ⟨⟨tiny_admitted, rfl, rfl, rfl, by decide, by decide, by decide⟩,
    tiny_admitted, rfl, rfl, rfl, by decide, by decide, by decide⟩

/-- A framebuffer that is not empty. -/
theorem witness_FrameOverwritesTheFramebuffer :
    CleanEntry idle ∧ (∃ t, exec .frame idle = .next t) ∧
    ∃ t, exec .frame { idle with fb := [(0, 5), (23, 7)] } = .next t :=
  ⟨witness_FrameRequestsItsCycles.1, ⟨_, rfl⟩, _, rfl⟩

/-- 28 instructions that read an odd port, for 28 cycles. -/
theorem witness_LineCounterCountsTheLinesOfAFrame :
    CleanEntry quietFrame ∧ scripted quietFrame ((quietFrame.t + frameTicks quietFrame.cfg) / 2) ∧
    (∀ i ∈ quietFrame.cpu,
      noPortReset i = true ∨ (quietFrame.nmiEnabled = true ∧ noPortWrite i = true)) ∧
    ∃ t, exec .frame quietFrame = .next t :=
  ⟨⟨tiny_admitted, rfl, rfl, rfl, by decide, by decide, by decide⟩, by unfold scripted; decide,
    by decide, _, rfl⟩

/-- The second case: 28 instructions that read an even port while NMI is enabled. -/
theorem witness_LineCounterCountsTheLinesOfAFrame_evenReads :
    CleanEntry pulsingFrame ∧
    scripted pulsingFrame ((pulsingFrame.t + frameTicks pulsingFrame.cfg) / 2) ∧
    (∀ i ∈ pulsingFrame.cpu, noPortReset i = false ∧ (noPortReset i = true ∨
      (pulsingFrame.nmiEnabled = true ∧ noPortWrite i = true))) ∧
    ∃ t, exec .frame pulsingFrame = .next t :=
  ⟨⟨tiny_admitted, rfl, rfl, rfl, by decide, by decide, by decide⟩, by unfold scripted; decide,
    by decide, _, rfl⟩

/-- NMI disabled. -/
theorem witness_OnePulsePerLineWhileEnabled_disabled :
    CleanEntry quietFrame ∧ scripted quietFrame ((quietFrame.t + frameTicks quietFrame.cfg) / 2) ∧
    (∀ i ∈ quietFrame.cpu, noPortWrite i = true) ∧ quietFrame.nmiEnabled = false ∧
    ∃ t, exec .frame quietFrame = .next t :=
  ⟨⟨tiny_admitted, rfl, rfl, rfl, by decide, by decide, by decide⟩, by unfold scripted; decide,
    by decide, rfl, _, rfl⟩

/-- 28 instructions that read an even port while NMI is enabled. -/
theorem witness_OnePulsePerLineWhileEnabled :
    CleanEntry pulsingFrame ∧
    scripted pulsingFrame ((pulsingFrame.t + frameTicks pulsingFrame.cfg) / 2) ∧
    (∀ i ∈ pulsingFrame.cpu, noPortWrite i = true) ∧ pulsingFrame.nmiEnabled = true ∧
    ∃ t, exec .frame pulsingFrame = .next t :=
  ⟨⟨tiny_admitted, rfl, rfl, rfl, by decide, by decide, by decide⟩, by unfold scripted; decide,
    by decide, rfl, _, rfl⟩

/-- PUBLISH, and another operation. -/
theorem witness_PublishCopiesTheFramebuffer :
    idle.faulted = none ∧ (∃ t, exec .powerRaise idle = .next t) ∧
    Instr.powerRaise ≠ .publish ∧ Instr.powerRaise ≠ .frame :=
  ⟨rfl, ⟨_, rfl⟩, fun h => (nomatch h), fun h => (nomatch h)⟩

/-- A faulted block, a block in a frame, and memory that is not empty. -/
theorem witness_PowerRaiseResets :
    stuckBlock.faulted = some (.notPowered .frame) ∧
    (busy 0).faulted = none ∧ (busy 0).inFrame = true ∧
    filled.faulted = none ∧ filled.inFrame = false ∧ filled.cfg.admitted = true :=
  ⟨rfl, rfl, rfl, rfl, rfl, tiny_admitted⟩

theorem witness_PowerOperationsAreIdempotent :
    filled.inFrame = false ∧ (∃ t, exec .powerRaise filled = .next t) ∧
    ∃ t, exec .powerLower filled = .next t :=
  ⟨rfl, ⟨_, rfl⟩, _, rfl⟩

/-- A faulted block, a block in a frame, and one between frames. -/
theorem witness_PowerLowerClearsPowered :
    stuckBlock.faulted = some (.notPowered .frame) ∧
    (busy 0).faulted = none ∧ (busy 0).inFrame = true ∧
    idle.faulted = none ∧ idle.inFrame = false := by decide

/-- A faulted block, a block in a frame, and one between frames with a key held down. -/
theorem witness_HostInputsSetTheirElement :
    stuckBlock.faulted = some (.notPowered .frame) ∧
    (busy 0).faulted = none ∧ (busy 0).inFrame = true ∧
    { idle with pressed := [2] }.faulted = none ∧ { idle with pressed := [2] }.inFrame = false := by
  decide

/-- POWER_RAISE on an unpowered block, and a frame at the bounds of the premise. -/
theorem witness_FramesKeepTheCleanEntry :
    idle.cfg.admitted = true ∧ idle.inFrame = false ∧
    (∃ t, exec .powerRaise { idle with powered := false } = .next t) ∧
    CleanEntry { idle with t := 1, budget := -12 } ∧
    ∃ t, exec .frame { idle with t := 1, budget := -12 } = .next t :=
  ⟨tiny_admitted, rfl, ⟨_, rfl⟩, witness_FrameRequestsItsCycles.2, _, rfl⟩

/-- Another operation, and POWER_RAISE, with the flag set. -/
theorem witness_PressSetAndFlashHaveTheirOwnWriters :
    (∃ t, exec .publish { idle with flash := true } = .next t) ∧
    (∀ k, Instr.publish ≠ .keyDown k) ∧ (∀ k, Instr.publish ≠ .keyUp k) ∧
    Instr.publish ≠ .powerRaise ∧
    (∃ t, exec .powerRaise { idle with flash := true } = .next t) ∧
    { idle with flash := true }.inFrame = false :=
  ⟨⟨_, rfl⟩, fun _ h => (nomatch h), fun _ h => (nomatch h), fun h => (nomatch h), ⟨_, rfl⟩, rfl⟩

theorem witness_FaultIsFinal : stuckBlock.faulted = some (.notPowered .frame) := rfl

theorem witness_EveryCpuTransactionIsAnswered : idle.faulted = none := rfl

theorem witness_ConstructionThenPowerRaiseIsReset :
    Config.ref.admitted = true ∧ Config.tiny.admitted = true :=
  ⟨ref_admitted, tiny_admitted⟩

/-- The bounds of the regions. -/
theorem witness_ResetValues : 0 < 0x2000 ∧ 0x1FFF < 0x2000 ∧ 0x3FFF < 0x4000 := by decide

/-- V-H2's first configuration, and TINY. -/
theorem witness_ConstructionRefusesBadConfigurations :
    { Config.tiny with ticksPerCycle := 1 }.admitted = false ∧ Config.tiny.admitted = true ∧
    0x1FFF < 0x2000 :=
  ⟨rfl, tiny_admitted, by decide⟩

/-- A waiting transaction, and none. -/
theorem witness_StepRunsTheDecodedOperation :
    { idle with inbox := [.cpu .ip] }.faulted = none ∧
    { idle with inbox := [.cpu .ip] }.inbox = .cpu .ip :: [] ∧
    decode idle.cfg (.cpu .ip) = .ok .instrPre ∧ idle.faulted = none ∧ idle.inbox = [] := by decide

/-- The operations with a condition, at its bound. -/
theorem witness_DecodeOfEncodeIsTheOperation :
    (Instr.portWriteOther 0xFF 0xFC 0xFF).wellFormed Config.ref = true ∧
    (Instr.portWriteNmiOn 0xFF 0xFF).wellFormed Config.ref = true ∧
    (Instr.pixel 351 7).wellFormed Config.ref = true ∧
    (Instr.proceed 1).wellFormed Config.ref = true ∧
    (Instr.renderLineLower 311).wellFormed Config.ref = true := by decide

theorem witness_EncodeOfDecodeIsTheTransaction :
    decode Config.ref (.cpu (.mr 0xFFFF .m1)) = .ok (.memFetchMirror 1 0x3FFF) ∧
    Config.ref.nmiOnPort ≠ Config.ref.nmiOffPort := by decide

/-- A state in the middle of a frame, with a step before it. -/
theorem witness_EveryStepKeepsTheInvariant :
    MachineInv inFrameInv ∧ ∃ t, step inFrameInv = .next t :=
  ⟨⟨tiny_admitted, by decide, by decide, by decide, by decide, by decide, by decide,
    fun m h => (nomatch h), by decide, by decide⟩, _, rfl⟩

theorem witness_ConfigurationFixedAndTraceGrows : ∃ t, step inFrameInv = .next t := ⟨_, rfl⟩

theorem witness_LineCounterDecidesNothing :
    (∃ t, exec .frame idle = .next t) ∧ ∃ t, exec (.portReadEven 0 0) idle = .next t :=
  ⟨⟨_, rfl⟩, _, rfl⟩

theorem witness_MemoryReachesNoPixelAndNoEventForFixedCpuInstructions :
    (∃ t, exec .frame filled = .next t) ∧ ∃ t, exec (.memRead 0) filled = .next t :=
  ⟨⟨_, rfl⟩, _, rfl⟩

/-- A run that goes on; loads at the last offsets of their regions; and an admitted configuration. -/
theorem witness_RunsEndWellAfterPowerRaise :
    (∃ t, hostRun Config.tiny idle [] [.keyDown 2] = .next t) ∧ Config.tiny.admitted = true ∧
    HostOp.powerLower ∉ [HostOp.snapshotWrite .rom 0x1FFF 1, .snapshotWrite .ram 0x3FFF 1] ∧
    (∀ off v, HostOp.snapshotWrite .rom off v ∈
      [HostOp.snapshotWrite .rom 0x1FFF 1, .snapshotWrite .ram 0x3FFF 1] → off < 0x2000) ∧
    (∀ off v, HostOp.snapshotWrite .ram off v ∈
      [HostOp.snapshotWrite .rom 0x1FFF 1, .snapshotWrite .ram 0x3FFF 1] → off < 0x4000) := by
  refine ⟨by rw [hostRun, tiny_runStart]; exact ⟨_, rfl⟩, tiny_admitted, by decide, ?_, ?_⟩ <;>
    · intro off v h
      simp only [List.mem_cons, HostOp.snapshotWrite.injEq, reduceCtorEq, List.not_mem_nil,
        false_and, true_and, or_false, false_or] at h
      rw [h.1]
      decide

end Sys2Proof.Tests
end

/-! Lemmas about configurations (R11), the block as constructed (R20) and the faulted block (R141),
and the obligation about construction that rests on them. -/

namespace Sys2Proof.Machine

/-! ### The clauses of R11 -/

/-- R11, clause by clause, in the order of the rule. -/
theorem admitted_iff (c : Config) :
    c.admitted = true ↔ c.ticksPerCycle = 2 ∧
      c.vretraceLines + c.upperBorderLines + c.activeLines + c.lowerBorderLines ≤ c.totalHeight ∧
      1 ≤ c.totalHeight ∧ 0 < c.romEnd ∧ c.romEnd ≤ c.ramEnd ∧ c.ramEnd ≤ 0x10000 ∧
      c.romEnd = 0x2000 ∧ c.ramEnd = 0x6000 ∧ c.nmiOnPort ≠ c.nmiOffPort ∧
      (∀ r ∈ c.keyRows, r.2.length = 5) ∧ c.romImage.length = c.romEnd ∧
      c.borderDefault < 8 ∧ c.activeFill < 8 ∧ c.totalHeight < 2 ^ 16 ∧ 1 ≤ c.maxOverrun := by
  simp only [Config.admitted, Config.clauses, List.all_cons, List.all_nil, Bool.and_eq_true,
    decide_eq_true_eq, Bool.and_true, List.all_eq_true, beq_iff_eq, and_assoc, Nat.reducePow]

/-- A refused configuration has a first broken clause, and it is one of R11's clauses that fails. -/
theorem firstBroken_of_not_admitted {c : Config} (h : c.admitted = false) :
    ∃ clause, (clause, false) ∈ c.clauses ∧ c.firstBroken = some clause := by
  have hne : ¬∀ p ∈ c.clauses, p.2 = true := fun hall =>
    Bool.eq_false_iff.mp h (List.all_eq_true.mpr hall)
  cases hfind : c.clauses.find? (fun p => !p.2) with
  | none => exact absurd (by simpa using List.find?_eq_none.mp hfind) hne
  | some p =>
    obtain ⟨clause, holds⟩ := p
    have hbroken : holds = false := by simpa using List.find?_some hfind
    exact ⟨clause, hbroken ▸ List.mem_of_find?_eq_some hfind, by simp [Config.firstBroken, hfind]⟩

/-! ### The faulted block -/

/-- A faulted block is stuck, whatever the operation would have done (R141). -/
theorem live_some {s : State} {k : Host.Outcome State Fault Refusal} {code : FaultCode}
    (h : s.faulted = some code) : live s k = .fault (.stuck code) := by simp [live, h]

/-- Every operation asks first whether the block is faulted (R141, R144). -/
theorem exec_eq_live (i : Instr) (s : State) : ∃ k, exec i s = live s k := by
  cases i <;> exact ⟨_, rfl⟩

/-- No operation goes on in a faulted block (R141). -/
theorem exec_stuck {s : State} {code : FaultCode} (h : s.faulted = some code) (i : Instr) :
    exec i s = .fault (.stuck code) := by
  obtain ⟨k, hk⟩ := exec_eq_live i s
  rw [hk, live_some h]

/-! ### The block as constructed -/

/-- A key that is not listed reads as the unlisted value. -/
theorem sparseGet_of_not_listed {α : Type} (d : Nat → α) {m : List (Nat × α)} {a : Nat}
    (h : ∀ p ∈ m, p.1 ≠ a) : sparseGet d m a = d a := by
  induction m with
  | nil => rfl
  | cons p m ih =>
    rw [sparseGet, if_neg (h p List.mem_cons_self)]
    exact ih fun q hq => h q (List.mem_cons_of_mem p hq)

/-- Under an admitted configuration an unlisted ROM address reads as the byte of `ROM_IMAGE`. -/
theorem romImage_eq_unlisted {c : Config} (h : c.admitted = true) {off : Nat}
    (hoff : off < 0x2000) : c.romImage[off]? = some (unlisted c off) := by
  obtain ⟨-, -, -, -, -, -, hend, -, -, -, hlen, -⟩ := (admitted_iff c).mp h
  have hrom : off < c.romImage.length := by omega
  simp [unlisted, show off < c.romEnd by omega, hrom]

/-- Construction lists no ROM address, so that ROM is as the configuration has it (R20). -/
theorem romByte_construct (c : Config) (u : State) {off : Nat} (h : off < c.romEnd) :
    romByte (construct c u) off = unlisted c off :=
  sparseGet_of_not_listed _ fun p hp => by
    have hkept : c.romEnd ≤ p.1 := by simpa using (List.mem_filter.mp hp).2
    omega

/-- Construction records the first clause of R11 that the configuration breaks. -/
@[simp] theorem construct_faulted (c : Config) (u : State) :
    (construct c u).faulted = c.firstBroken.map FaultCode.configInvalid := rfl

/-- Settles O46: the clauses as an equivalence, the recorded clause with the stuck block of a refused
configuration, and the construction values of an admitted one. -/
theorem constructionRefusesBadConfigurations :
    Obligations.ConstructionRefusesBadConfigurations := by
  intro c u
  refine ⟨admitted_iff c, fun hrefused => ?_, fun hadmitted => ?_⟩
  · obtain ⟨clause, hmem, hfirst⟩ := firstBroken_of_not_admitted hrefused
    have hfault : (construct c u).faulted = some (.configInvalid clause) := by
      simp [hfirst]
    exact ⟨clause, hmem, hfault, exec_stuck hfault⟩
  · have hfault : (construct c u).faulted = none := by
      simp [firstBroken_of_admitted hadmitted]
    obtain ⟨-, -, hend, -⟩ := admitted_clauses hadmitted
    refine ⟨hfault, rfl, rfl, fun off hoff => ?_⟩
    rw [romByte_construct c u (hend ▸ hoff)]
    exact romImage_eq_unlisted hadmitted hoff

end Sys2Proof.Machine

/-! What an operation keeps that is not a host input, whether it runs the CPU or not; and the
obligation about the ROM bytes (R38), for which the host inputs remain. -/

namespace Sys2Proof.Machine

/-- The host operations that a frame in flight turns into a fault (R136): all but FRAME. -/
def hostInput : Instr → Bool
  | .powerRaise | .powerLower | .keyDown _ | .keyUp _ | .setEar _ | .snapshotWrite _ _ _ => true
  | _ => false

variable {s t u : State}

/-! ### The operations that are no host input -/

/-- An operation keeps what its effect keeps. -/
theorem live_kept (h : live s (.next u) = .next t) (hk : Kept s u) : Kept s t := by
  obtain ⟨-, rfl⟩ := live_next_eq h
  exact hk

/-- What a RENDER_LINE row keeps, in its order or not. -/
theorem renderLineAs_kept {b : Band} {y : Nat} (h : renderLineAs b y s = .next t) : Kept s t := by
  obtain ⟨-, hk⟩ := live_next h
  split at hk
  · cases hk; exact renderLine_kept y s
  · cases hk

/-- What PIXEL keeps. -/
theorem execPixel_kept {x : Nat} {c : Colour} (h : execPixel x c s = .next t) : Kept s t := by
  obtain ⟨-, hk⟩ := live_next h
  split at hk
  · cases hk; exact (pixel_ticked x c s).kept
  · cases hk

/-- What FRAME keeps, admitted or not. -/
theorem execFrame_kept (h : execFrame s = .next t) : Kept s t := by
  refine live_kept h ?_
  split
  · exact raise_kept _ s
  split
  · exact raise_kept _ s
  · exact frameBody_kept s

/-- What every operation keeps that is no host input. -/
theorem exec_kept {i : Instr} (hi : hostInput i = false) (h : exec i s = .next t) : Kept s t := by
  cases i with
  | portReadEven row =>
    exact live_kept h ((reply_answered _ s).trans (readSideEffect_answered _)).kept
  | portReadOdd => exact live_kept h (reply_answered _ s).kept
  | portWriteNmiOff | portWriteNmiOn | portWriteOther =>
    exact live_kept h (portWriteEffect_answered _ _ s).kept
  | memFetchDirect | memFetchMirror | memRead => exact live_kept h (reply_answered _ s).kept
  | memWrite a d => exact live_kept h (memStore_answered a d s).kept
  | instrDoneInt | instrDoneNoint => exact live_kept h (instrDone_answered _ s).kept
  | instrPre => exact live_kept h (.refl s)
  | frame => exact execFrame_kept h
  | renderLineRetrace | renderLineUpper | renderLineActive | renderLineLower
  | renderLineTrailing => exact renderLineAs_kept h
  | pixel => exact execPixel_kept h
  | lineTail => exact live_kept h (lineTail_ticked s).kept
  | nmiPulse => exact live_kept h (nmiPulse_kept s)
  | tick n => exact live_kept h (tick_ticked n s).kept
  | proceed n => exact live_kept h (proceed_proceeded n s).kept
  | publish => exact live_kept h (publish_kept s)
  | powerRaise | powerLower | keyDown | keyUp | setEar | snapshotWrite => cases hi

/-! ### The ROM bytes -/

/-- POWER_RAISE makes ROM what an unlisted address reads as (R130). -/
@[simp] theorem romByte_powerRaise (s : State) (off : Nat) :
    romByte (powerRaise s) off = unlisted s.cfg off := rfl

/-- A load into RAM changes no ROM byte, in its range or not (R119). -/
theorem romByte_loadByte_ram (o : Nat) (v : Byte) (s : State) {off : Nat} (hoff : off < ramBase) :
    romByte (loadByte .ram o v s) off = romByte s off := by
  simp only [loadByte]
  split
  · rfl
  · rw [romByte_ramPut, if_neg (by omega)]

/-- A host input keeps the ROM bytes that its effect keeps: the fault in a frame changes none. -/
theorem betweenFrames_romByte {k : State} {code : FaultCode} {off : Nat}
    (h : betweenFrames s code k = .next t) (hk : romByte k off = romByte s off) :
    romByte t off = romByte s off := by
  obtain ⟨-, rfl⟩ := betweenFrames_next h
  split
  · rfl
  · exact hk

/-- Every operation but SNAPSHOT_WRITE to ROM and POWER_RAISE keeps the ROM bytes (R38). -/
theorem exec_romByte {i : Instr} {off : Nat} (h : exec i s = .next t) (hoff : off < ramBase)
    (hsnap : ∀ o v, i ≠ .snapshotWrite .rom o v) (hpower : i ≠ .powerRaise) :
    romByte t off = romByte s off := by
  cases i with
  | powerRaise => exact absurd rfl hpower
  | powerLower | keyDown | keyUp | setEar => exact betweenFrames_romByte h rfl
  | snapshotWrite region o v =>
    cases region with
    | rom => exact absurd rfl (hsnap o v)
    | ram => exact betweenFrames_romByte h (romByte_loadByte_ram o v s hoff)
  | _ => exact (exec_kept rfl h).rom off hoff

/-- Settles O14: the frame of an answer for the CPU transactions, the frame of every operation that
is no host input with the host inputs one by one, and the unlisted byte for POWER_RAISE. -/
theorem romChangesOnlyBySnapshotOrPower : Obligations.RomChangesOnlyBySnapshotOrPower := by
  intro s off hoff
  refine ⟨fun x => (answer_answered x s).rom off hoff,
    fun i t h hsnap hpower => exec_romByte h hoff hsnap hpower, fun t h hframe hadmitted => ?_⟩
  obtain ⟨-, rfl⟩ := betweenFrames_next h
  rw [hframe, if_neg Bool.false_ne_true, romByte_powerRaise]
  exact romImage_eq_unlisted hadmitted hoff

end Sys2Proof.Machine

/-! The mapper as a function of numbers (R49 to R51), and the obligation about it. -/

namespace Sys2Proof.Machine

/-- Normalisation as a number, in both phases: only an opcode fetch from the upper half loses its two
top bits (R49). -/
theorem normalise_toNat (a : Addr) (phase : Phase) :
    (normalise a phase).toNat
      = if 0x8000 ≤ a.toNat ∧ phase = .m1 then a.toNat % 0x4000 else a.toNat := by
  cases phase with
  | data => simp
  | m1 =>
    by_cases hhigh : 0x8000 ≤ a.toNat
    · rw [normalise_fetch_high hhigh, if_pos ⟨hhigh, rfl⟩]
    · rw [normalise_fetch_low (Nat.lt_of_not_le hhigh), if_neg fun h => hhigh h.1]

/-- Settles O8: normalisation phase by phase, then the classification of the address that is left
under the region ends of an admitted configuration. -/
theorem mapperNormalisesThenClassifies : Obligations.MapperNormalisesThenClassifies :=
  fun _ a phase hadmitted => ⟨normalise_toNat a phase, mapAddr_admitted hadmitted a phase⟩

end Sys2Proof.Machine

/-! Lemmas about the byte of an even-port read, bit by bit (R67, R123), and about the row of
RENDER_LINE (R72), with the two obligations that rest on them. -/

namespace Sys2Proof.Machine

/-! ### The byte of an even-port read -/

/-- A flag stands in its own bit of the byte and leaves every other bit clear. -/
theorem flagBit_getLsbD (b : Bool) {i j : Nat} (hj : j < 8) :
    (flagBit b i).getLsbD j = (b && decide (j = i)) := by
  cases b with
  | false => simp [flagBit]
  | true =>
    have hbit : (!decide (j < i) && decide (j - i = 0)) = decide (j = i) := by grind
    simpa [flagBit, hj] using hbit

/-- Bit `i` of the byte is the disjunction of the columns, the two fixed bits and Ear, each in its
own place (R123). -/
theorem readValue_getLsbD (row : Byte) (s : State) {i : Nat} (hi : i < 8) :
    (readValue row s).getLsbD i
      = ((keyColumns row s).getLsbD i || decide (i = 5) || decide (i = 6)
          || (s.ear && decide (i = 7))) := by
  simp only [readValue, BitVec.getLsbD_or, BitVec.getLsbD_setWidth, flagBit_getLsbD _ hi, hi,
    Config.readBit5, Config.readBit6, decide_true, Bool.true_and]

/-- Settles O2: below bit 5 only the columns reach the byte, and from bit 5 on, where there is no
column, the one flag that stands there. -/
theorem evenPortReadByteLayout : Obligations.EvenPortReadByteLayout := by
  intro s row i hi
  rw [readValue_getLsbD row s hi]
  by_cases hcol : i < 5
  · have h5 : i ≠ 5 := by omega
    have h6 : i ≠ 6 := by omega
    have h7 : i ≠ 7 := by omega
    simp [hcol, h5, h6, h7]
  · have hnone : (keyColumns row s).getLsbD i = false := BitVec.getLsbD_of_ge _ _ (by omega)
    rw [hnone]
    obtain rfl | rfl | rfl : i = 5 ∨ i = 6 ∨ i = 7 := by omega
    all_goals simp

/-! ### The row of RENDER_LINE -/

/-- The decoder's row of RENDER_LINE(y), one branch for each of the four thresholds (R72, R79). -/
theorem decodeRenderLine_eq_thresholds (c : Config) (y : Nat) :
    decodeRenderLine c y =
      if y < c.vretraceLines then .renderLineRetrace y
      else if y < c.vretraceLines + c.upperBorderLines then .renderLineUpper y
      else if y < c.vretraceLines + c.upperBorderLines + c.activeLines then .renderLineActive y
      else if y < c.vretraceLines + c.upperBorderLines + c.activeLines + c.lowerBorderLines then
        .renderLineLower y
      else .renderLineTrailing y := by
  unfold decodeRenderLine bandOf
  split_ifs <;> rfl

/-- Settles O24: a RENDER_LINE is never rejected, and its row is the one of its thresholds. -/
theorem renderLineRowByThresholds : Obligations.RenderLineRowByThresholds :=
  fun c y => congrArg Except.ok (decodeRenderLine_eq_thresholds c y)

end Sys2Proof.Machine

/-! PIXEL and SEGMENT as operations on the state (R82, R83), with the two obligations about them. -/

namespace Sys2Proof.Machine

/-! ### PIXEL -/

/-- PIXEL of an unfaulted block, where its cell is a cell of the framebuffer, is the pixel write. -/
theorem exec_pixel {s : State} {x : Nat} (col : Colour) (hfault : s.faulted = none)
    (hfirst : s.cfg.vretraceLines ≤ s.nextLine)
    (hrow : s.nextLine - s.cfg.vretraceLines < rasterHeight s.cfg) (hx : x < rasterWidth s.cfg) :
    exec (.pixel x col) s = .next (pixel x col s) := by
  have hin : inRaster s.cfg s.nextLine x = true := decide_eq_true ⟨hfirst, hrow, hx⟩
  exact (live_none hfault).trans (if_pos hin)

/-- A PIXEL that gives a next state gives the pixel write. -/
theorem execPixel_next {s t : State} {x : Nat} {col : Colour} (h : execPixel x col s = .next t) :
    t = pixel x col s := by
  obtain ⟨-, hk⟩ := live_next h
  split at hk <;> cases hk
  rfl

/-- Settles O21: the middle state is the one with the cell put; the tick after it leaves the
framebuffer alone. -/
theorem pixelWritesItsCellThenTicks : Obligations.PixelWritesItsCellThenTicks := by
  intro s x col hfault hfirst hrow hx
  exact ⟨fbPut (cellIndex s.cfg s.nextLine x) col s, pixel x col s,
    exec_pixel col hfault hfirst hrow hx, rfl, rfl, fun i => fbCell_fbPut s _ i col,
    tick_fb 1 _, tick_t 1 _, tick_frameCycles 1 _, pixel_nextLine x col s,
    (pixel_ticked x col s).toCpuFrame⟩

/-! ### SEGMENT -/

/-- A segment is its pixels in turn, each with the source's colour in the state before it (R83). -/
theorem drawSegment_eq_foldl (src : Source) (n x0 : Nat) (s : State) :
    drawSegment src x0 n s
      = (List.range' x0 n).foldl (fun u x => pixel x (sourceColour src u) u) s := by
  induction n generalizing x0 s with
  | zero => rfl
  | succ n ih => rw [drawSegment, ih, List.range'_succ, List.foldl_cons]

/-- Column `x0 + i` keeps the colour its source had once the first `i` pixels were drawn: its own
pixel writes that colour, and the pixels after it write other cells (R83). -/
theorem drawSegment_fbCell (src : Source) (n x0 i : Nat) (s : State) (hi : i < n) :
    fbCell (drawSegment src x0 n s) (cellIndex s.cfg s.nextLine (x0 + i))
      = sourceColour src (drawSegment src x0 i s) := by
  induction n generalizing x0 i s with
  | zero => omega
  | succ n ih =>
    cases i with
    | zero =>
      have hlater : ∀ x, x0 + 1 ≤ x → x < x0 + 1 + n →
          cellIndex s.cfg s.nextLine x0 ≠ cellIndex s.cfg s.nextLine x := fun x hx _ => by
        simp only [cellIndex]
        omega
      simp only [drawSegment, Nat.add_zero]
      rw [drawSegment_fbCell_outside _ _ _ _ _
          (by simpa only [pixel_cfg, pixel_nextLine] using hlater), pixel_fbCell, if_pos rfl]
    | succ i =>
      have hrest := ih (x0 + 1) i (pixel x0 (sourceColour src s) s) (by omega)
      rw [pixel_cfg, pixel_nextLine, Nat.add_right_comm, Nat.add_assoc] at hrest
      rw [drawSegment, drawSegment, hrest]

/-- Settles O56: the segment as a fold, the colour each of its columns ends with, and the pixel
write as the meaning of PIXEL. The fill is read in a later state, whose configuration is the same. -/
theorem segmentReadsItsSourceForEveryPixel : Obligations.SegmentReadsItsSourceForEveryPixel := by
  intro src x0 n s
  refine ⟨drawSegment_eq_foldl src n x0 s, fun i hi => ?_, fun x col => exec_pixel col⟩
  have hcell := drawSegment_fbCell src n x0 i s hi
  cases src with
  | border => exact hcell
  | fill => rwa [sourceColour, (drawSegment_ticked .fill i x0 s).cfg] at hcell

end Sys2Proof.Machine

/-! RENDER_LINE, its tail and FRAME as equations of states (R80, R81, R84 to R89), with the three
obligations about them. -/

namespace Sys2Proof.Machine

variable {s : State} {y : Nat}

/-! ### The tail of a line -/

/-- The pulse is one more event in the trace, or nothing. -/
theorem pulseIfEnabled_eq (s : State) :
    pulseIfEnabled s
      = { s with trace := if s.nmiEnabled then s.trace ++ [.nmiLower] else s.trace } := by
  unfold pulseIfEnabled
  split <;> rfl

/-- Settles O22: the tail's own definition, with the pulse as a trace. -/
theorem lineTailPulsesCountsThenTicks : Obligations.LineTailPulsesCountsThenTicks := by
  intro s hfault
  have hlive : exec .lineTail s = .next (lineTail s) := live_none hfault
  rw [hlive, lineTail, pulseIfEnabled_eq]
  rfl

/-! ### RENDER_LINE -/

/-- RENDER_LINE out of its order raises RENDER_ORDER and draws nothing (R81). -/
theorem renderLine_outOfOrder
    (h : s.inFrame = false ∨ y ≠ s.nextLine ∨ s.cfg.totalHeight ≤ y) :
    renderLine y s = raise (.renderOrder y s.nextLine) s := if_pos h

/-- A RENDER_LINE row of the line's own band is RENDER_LINE (R79, R81). -/
theorem renderLineAs_of_band {b : Band} (hfault : s.faulted = none) (hb : bandOf s.cfg y = b) :
    renderLineAs b y s = .next (renderLine y s) := (live_none hfault).trans (if_pos hb)

/-- A RENDER_LINE row that gives a next state gives that of RENDER_LINE. -/
theorem renderLineAs_next {b : Band} {t : State} (h : renderLineAs b y s = .next t) :
    t = renderLine y s := by
  obtain ⟨-, hk⟩ := live_next h
  split at hk <;> cases hk
  rfl

/-- The row that the decoder picks for a line is RENDER_LINE of that line, whatever its band. -/
theorem exec_decodeRenderLine (y : Nat) (hfault : s.faulted = none) :
    exec (decodeRenderLine s.cfg y) s = .next (renderLine y s) := by
  unfold decodeRenderLine
  cases hb : bandOf s.cfg y <;> exact renderLineAs_of_band hfault hb

/-- A row of the line's own band, in its order, is the band part, the tail and the advance (R81). -/
theorem renderLineAs_inOrder {b : Band} (hfault : s.faulted = none) (hf : s.inFrame = true)
    (hy : y = s.nextLine) (ht : y < s.cfg.totalHeight) (hb : bandOf s.cfg y = b) :
    renderLineAs b y s = .next (setNextLine (y + 1) (lineTail (bandPart b s))) := by
  rw [renderLineAs_of_band hfault hb, renderLine_inOrder hf hy ht, hb]

/-- Settles O23: the fault of the decoder's row out of order, and in order the rows band by band. -/
theorem renderLineIsBandPartThenTail : Obligations.RenderLineIsBandPartThenTail := by
  intro s y hfault
  refine ⟨fun hout => ?_, fun hf hy ht => ?_⟩
  · rw [exec_decodeRenderLine y hfault, renderLine_outOfOrder hout]
    rfl
  · have hrow {b : Band} := renderLineAs_inOrder (b := b) hfault hf hy ht
    exact ⟨hrow, hrow, hrow, hrow, hrow⟩

/-! ### FRAME -/

/-- The lines of a frame in their order are a fold of RENDER_LINE: none of them faults, so that the
loop is never left early (R80, R141). -/
theorem renderLines_eq_foldl (n y : Nat) (s : State) (hf : s.inFrame = true) (hy : s.nextLine = y)
    (hfault : s.faulted = none) (ht : y + n ≤ s.cfg.totalHeight) :
    renderLines n y s = (List.range' y n).foldl (fun u y => renderLine y u) s := by
  induction n generalizing y s with
  | zero => rfl
  | succ n ih =>
    have hline := renderLine_ticked (y := y) hf hy.symm (by omega)
    have hnext : (renderLine y s).nextLine = y + 1 := by
      rw [renderLine_inOrder hf hy.symm (by omega), setNextLine_nextLine]
    have hok : (renderLine y s).faulted = none := hline.faulted.trans hfault
    have hrest := ih (y + 1) (renderLine y s) (hline.inFrame.trans hf) hnext hok
      (by rw [hline.cfg]; omega)
    simp [renderLines, hok, hrest, List.range'_succ]

/-- FRAME of an unfaulted block is the state its checks, in their order, pick (R80). -/
theorem exec_frame (hfault : s.faulted = none) :
    exec .frame s = .next
      (if s.powered = false then raise (.notPowered .frame) s
       else if s.inFrame then raise (.frameInFlight .frame) s
       else frameBody s) := live_none hfault

/-- Settles O29: the checks in their order, then the frame's body, whose lines are a fold. -/
theorem frameIsItsLinesThenPublish : Obligations.FrameIsItsLinesThenPublish := by
  intro s
  refine ⟨fun code h => exec_stuck h .frame, fun hfault hpower => ?_, fun hfault hpower hf => ?_,
    fun hfault hpower hf => ?_⟩
  · rw [exec_frame hfault, if_pos hpower]
    rfl
  · rw [exec_frame hfault, if_neg (ne_false_of_eq_true hpower), if_pos hf]
    rfl
  · rw [exec_frame hfault, if_neg (ne_false_of_eq_true hpower), if_neg (ne_true_of_eq_false hf),
      frameBody_eq hfault, renderLines_eq_foldl _ 0 (beginFrame s) rfl rfl hfault (by simp),
      List.range_eq_range']
    rfl

end Sys2Proof.Machine

/-! The snapshot (R90, R134): which operations leave it alone, and the obligation about it. -/

namespace Sys2Proof.Machine

variable {s t u : State}

/-- An operation leaves the snapshot alone if its effect does. -/
theorem live_published (h : live s (.next u) = .next t) (hu : u.published = s.published) :
    t.published = s.published := by
  obtain ⟨-, rfl⟩ := live_next_eq h
  exact hu

/-- A host input leaves the snapshot alone if its effect does: so does the fault in a frame. -/
theorem betweenFrames_published {code : FaultCode} (h : betweenFrames s code u = .next t)
    (hu : u.published = s.published) : t.published = s.published := by
  refine live_published h ?_
  split
  · rfl
  · exact hu

/-- The loader's write leaves the snapshot alone, in its range or not (R119). -/
@[simp] theorem loadByte_published (region : LoadRegion) (off : Nat) (v : Byte) (s : State) :
    (loadByte region off v s).published = s.published := by
  cases region with
  | rom | ram => simp only [loadByte]; split <;> rfl

/-- RENDER_LINE leaves the snapshot alone, in its order or not (R81). -/
@[simp] theorem renderLine_published (y : Nat) (s : State) :
    (renderLine y s).published = s.published := by
  by_cases hout : s.inFrame = false ∨ y ≠ s.nextLine ∨ s.cfg.totalHeight ≤ y
  · rw [renderLine_outOfOrder hout]
    rfl
  · simp only [not_or, ne_eq, not_not, not_le, Bool.not_eq_false] at hout
    obtain ⟨hf, hy, ht⟩ := hout
    exact (renderLine_ticked hf hy ht).published

/-- Every operation but PUBLISH and FRAME leaves the snapshot alone (R134). -/
theorem exec_published {i : Instr} (h : exec i s = .next t) (hpublish : i ≠ .publish)
    (hframe : i ≠ .frame) : t.published = s.published := by
  cases i with
  | publish => exact absurd rfl hpublish
  | frame => exact absurd rfl hframe
  | portReadEven row =>
    exact live_published h ((reply_answered _ s).trans (readSideEffect_answered _)).published
  | portReadOdd | memFetchDirect | memFetchMirror | memRead => exact live_published h rfl
  | portWriteNmiOff | portWriteNmiOn | portWriteOther => exact live_published h rfl
  | memWrite a d => exact live_published h (memStore_answered a d s).published
  | instrDoneInt | instrDoneNoint => exact live_published h (instrDone_answered _ s).published
  | instrPre | nmiPulse => exact live_published h rfl
  | renderLineRetrace | renderLineUpper | renderLineActive | renderLineLower
  | renderLineTrailing => rw [renderLineAs_next h, renderLine_published]
  | pixel x col => rw [execPixel_next h, (pixel_ticked x col s).published]
  | lineTail => exact live_published h (lineTail_ticked s).published
  | tick n => exact live_published h (tick_ticked n s).published
  | proceed n => exact live_published h (proceed_proceeded n s).published
  | powerRaise | powerLower | keyDown | keyUp | setEar => exact betweenFrames_published h rfl
  | snapshotWrite region off v =>
    exact betweenFrames_published h (loadByte_published region off v s)

/-- Settles O35: PUBLISH by its definition, and every other operation but FRAME one by one. -/
theorem publishCopiesTheFramebuffer : Obligations.PublishCopiesTheFramebuffer :=
  ⟨fun _ hfault => live_none hfault, fun _ _ _ => exec_published⟩

end Sys2Proof.Machine

/-! TICK by the number of whole cycles it makes (R95), and the obligation about it. -/

namespace Sys2Proof.Machine

variable {s : State} {n : Nat}

/-- With fewer than two ticks, TICK only adds them (R95). -/
theorem tick_of_lt (h : s.t + n < 2) : tick n s = { s with t := s.t + n } := by
  rcases tick_cases n s with ⟨-, htick⟩ | ⟨hwhole, -⟩
  · exact htick
  · omega

/-- With two ticks or more, TICK is PROCEED of the whole cycles and keeps the odd tick (R95). -/
theorem tick_of_ge (h : 2 ≤ s.t + n) :
    tick n s
      = { proceed ((s.t + n) / 2) { s with t := s.t + n } with t := (s.t + n) % 2 } := by
  rcases tick_cases n s with ⟨hless, -⟩ | ⟨-, htick⟩
  · omega
  · exact htick

/-- With two ticks or more, the PROCEED of the whole cycles is TICK's first event (R95). -/
theorem proceed_prefix_tick_trace (h : 2 ≤ s.t + n) :
    s.trace ++ [.proceed ((s.t + n) / 2)] <+: (tick n s).trace := by
  rw [tick_of_ge h]
  exact (proceed_proceeded _ { s with t := s.t + n }).first

/-- Settles O16: the two cases of TICK by their equations, and what both of them keep. -/
theorem tickMakesTwoTicksOneCycle : Obligations.TickMakesTwoTicksOneCycle := by
  intro s n hfault
  exact ⟨tick n s, live_none hfault, tick_of_lt,
    fun h => ⟨tick_of_ge h, proceed_prefix_tick_trace h⟩, tick_t n s, tick_frameCycles n s,
    tick_fb n s, tick_nextLine n s, (tick_ticked n s).toCpuFrame⟩

end Sys2Proof.Machine

/-! INSTR_DONE by bit 6 of the refresh value (R107), and the obligation about the interrupt outputs
(R106 to R108). -/

namespace Sys2Proof.Machine

variable {s : State} {r : Byte}

/-- The mask 0x40 asks for bit 6, the bit that the decoder picks the row by (R70, R107). -/
theorem and_intRMask_eq_zero_iff (r : Byte) :
    r &&& Config.intRMask = 0 ↔ r.getLsbD 6 = false := by
  have hmask : Config.intRMask = BitVec.twoPow 8 6 := rfl
  rw [hmask, BitVec.and_twoPow]
  cases r.getLsbD 6 <;> decide

/-- With bit 6 clear, INSTR_DONE lowers the INT line. -/
theorem instrDone_of_bit6_clear (h : r.getLsbD 6 = false) : instrDone r s = emit .intLower s :=
  if_pos ((and_intRMask_eq_zero_iff r).mpr h)

/-- With bit 6 set, INSTR_DONE does nothing. -/
theorem instrDone_of_bit6_set (h : r.getLsbD 6 = true) : instrDone r s = s :=
  if_neg fun hzero => Bool.eq_false_iff.mp ((and_intRMask_eq_zero_iff r).mp hzero) h

/-- Bit 6 of a refresh value put together from its fields is the middle one. -/
theorem refreshValue_bit6 (bit7 bit6 : BitVec 1) (low : BitVec 6) :
    (refreshValue bit7 bit6 low).getLsbD 6 = bit6.getLsbD 0 := by
  rw [refreshValue, getLsbD_append_high _ _ (by decide), getLsbD_append_low _ _ (by decide)]

/-- INSTR_DONE_INT lowers the INT line, whatever the bits it ignores. -/
theorem exec_instrDoneInt (hfault : s.faulted = none) (bit7 : BitVec 1) (low : BitVec 6) :
    exec (.instrDoneInt bit7 low) s = .next (emit .intLower s) :=
  (live_none hfault).trans
    (congrArg _ (instrDone_of_bit6_clear (refreshValue_bit6 bit7 0#1 low)))

/-- INSTR_DONE_NOINT does nothing, whatever the bits it ignores. -/
theorem exec_instrDoneNoint (hfault : s.faulted = none) (bit7 : BitVec 1) (low : BitVec 6) :
    exec (.instrDoneNoint bit7 low) s = .next s :=
  (live_none hfault).trans
    (congrArg _ (instrDone_of_bit6_set (refreshValue_bit6 bit7 1#1 low)))

/-- The row that the decoder picks for a refresh value is INSTR_DONE of that value. -/
theorem exec_decodeInstrDone (hfault : s.faulted = none) (r : Byte) :
    exec (decodeInstrDone r) s = .next (instrDone r s) := by
  unfold decodeInstrDone
  split
  next hset => rw [exec_instrDoneNoint hfault, instrDone_of_bit6_set hset]
  next hclear =>
    rw [exec_instrDoneInt hfault, instrDone_of_bit6_clear (Bool.eq_false_iff.mpr hclear)]

/-- Settles O15: the two rows of INSTR_DONE, the row the decoder picks as INSTR_DONE itself, and the
other two operations by their definitions. -/
theorem interruptOperationsEmitTheirEvents : Obligations.InterruptOperationsEmitTheirEvents :=
  fun _ hfault =>
    ⟨fun bit7 low => ⟨exec_instrDoneInt hfault bit7 low, exec_instrDoneNoint hfault bit7 low⟩,
      exec_decodeInstrDone hfault, live_none hfault, live_none hfault⟩

end Sys2Proof.Machine

/-! The writes of memory by their checks: MEM_WRITE (R117) and SNAPSHOT_WRITE (R119), with the two
obligations about them. -/

namespace Sys2Proof.Machine

variable {s : State} {off : Nat} {v : Byte}

/-! ### MEM_WRITE -/

/-- A write outside RAM is discarded (R54, R117). -/
theorem memStore_outside_ram (hadmitted : s.cfg.admitted = true) {a : Addr}
    (h : a.toNat < 0x2000 ∨ 0x6000 ≤ a.toNat) : memStore a v s = s := by
  rw [memStore_admitted hadmitted, if_neg (by omega)]

/-- A write changes memory only. -/
theorem memStore_eq (hadmitted : s.cfg.admitted = true) (a : Addr) (v : Byte) :
    memStore a v s = { s with mem := (memStore a v s).mem } := by
  rw [memStore_admitted hadmitted]
  split <;> rfl

/-- Of the RAM bytes, a write changes the one at its own address (R51, R117). -/
theorem ramByte_memStore (hadmitted : s.cfg.admitted = true) (a : Addr) (v : Byte)
    (hoff : off < 0x4000) :
    ramByte (memStore a v s) off = if a.toNat = 0x2000 + off then v else ramByte s off := by
  rw [memStore_admitted hadmitted]
  split
  next hram =>
    rw [ramByte_ramPut]
    exact if_congr (by omega) rfl rfl
  next hdiscarded => rw [if_neg (by omega)]

/-- Settles O11: the next state is the mapper's store; it keeps ROM, as every answer to the CPU
engine does (R38). -/
theorem writeStoresOnlyInRam : Obligations.WriteStoresOnlyInRam := by
  intro s a d hfault hadmitted
  exact ⟨memStore a d s, live_none hfault, memStore_eq hadmitted a d,
    memStore_outside_ram hadmitted, (memStore_answered a d s).rom,
    fun _ => ramByte_memStore hadmitted a d⟩

/-! ### SNAPSHOT_WRITE -/

/-- A host operation that a frame turns into a fault stops in a faulted block and in a frame (R136,
R144). -/
theorem stopsInFrame_of_betweenFrames {i : Instr} {code : FaultCode} {k : State → State}
    (h : ∀ s, exec i s = betweenFrames s code (k s)) : StopsInFrame i code := by
  refine fun s => ⟨fun _ hstuck => exec_stuck hstuck i, fun hfault hframe => ?_⟩
  rw [h, betweenFrames, live_none hfault, if_pos hframe]
  rfl

/-- Between frames SNAPSHOT_WRITE is the loader's write (R119). -/
theorem exec_snapshotWrite (hfault : s.faulted = none) (hframe : s.inFrame = false)
    (region : LoadRegion) (off : Nat) (v : Byte) :
    exec (.snapshotWrite region off v) s = .next (loadByte region off v s) :=
  (live_none hfault).trans (congrArg _ (if_neg (ne_true_of_eq_false hframe)))

/-- The loader's write to ROM, by its range check. -/
theorem loadByte_rom (hadmitted : s.cfg.admitted = true) (off : Nat) (v : Byte) :
    loadByte .rom off v s
      = if 0x2000 ≤ off then raise (.snapshotRange .rom off) s else romPut off v s := by
  obtain ⟨-, -, hromEnd, -⟩ := admitted_clauses hadmitted
  rw [loadByte, hromEnd]

/-- The loader's write to RAM, by its range check. -/
theorem loadByte_ram (hadmitted : s.cfg.admitted = true) (off : Nat) (v : Byte) :
    loadByte .ram off v s
      = if 0x4000 ≤ off then raise (.snapshotRange .ram off) s else ramPut off v s := by
  obtain ⟨-, -, hromEnd, hramEnd, -⟩ := admitted_clauses hadmitted
  rw [loadByte, hromEnd, hramEnd]

/-- Settles O13: the two stops of a host operation, then the range check of either region. ROM and
RAM do not meet in memory, since RAM begins where ROM's offsets end. -/
theorem snapshotWriteStoresInItsRegion : Obligations.SnapshotWriteStoresInItsRegion := by
  refine ⟨fun region off v => stopsInFrame_of_betweenFrames (k := loadByte region off v)
    fun _ => rfl, fun s off v hfault hframe hadmitted => ?_⟩
  have hrom := loadByte_rom hadmitted off v
  have hram := loadByte_ram hadmitted off v
  simp only [exec_snapshotWrite hfault hframe]
  refine ⟨fun hin => ?_, fun hout => ?_, fun hin => ?_, fun hout => ?_⟩
  · rw [hrom, if_neg (by omega)]
    refine ⟨romPut off v s, rfl, rfl, fun i _ => romByte_romPut s off i v, fun i _ => ?_⟩
    rw [ramByte_romPut, if_neg (by simp only [ramBase]; omega)]
  · rw [hrom, if_pos hout]
    rfl
  · rw [hram, if_neg (by omega)]
    refine ⟨ramPut off v s, rfl, rfl, fun i _ => ?_, fun i _ => ramByte_ramPut s off i v⟩
    rw [romByte_ramPut, if_neg (by simp only [ramBase]; omega)]
  · rw [hram, if_pos hout]
    rfl

end Sys2Proof.Machine

/-! The port accesses as equations of states (R120 to R125), the key columns bit by bit (R122) and the
host's inputs between frames (R126 to R128), with the five obligations that rest on them. -/

namespace Sys2Proof.Machine

variable {s : State} {row port : Byte}

/-! ### The key columns -/

/-- A row that `KEY_ROWS` does not hold reads as five ones (R71, R122). -/
theorem keyColumns_of_unmapped (h : keyRow s.cfg row = none) : keyColumns row s = 0b11111#5 := by
  simp [keyColumns, h]

/-- A row that `KEY_ROWS` holds is the union of its five columns (R122). -/
theorem keyColumns_of_mapped {keys : List RawKey} (h : keyRow s.cfg row = some keys) :
    keyColumns row s = columnBit keys s.pressed 0 ||| columnBit keys s.pressed 1
      ||| columnBit keys s.pressed 2 ||| columnBit keys s.pressed 3
      ||| columnBit keys s.pressed 4 := by
  simp only [keyColumns, h]

/-- Bit `i` of a row of five keys comes from column `i` alone, active low (R122). -/
theorem keyColumns_getLsbD {keys : List RawKey} (h : keyRow s.cfg row = some keys)
    (hlen : keys.length = 5) {i : Nat} (hi : i < 5) :
    (keyColumns row s).getLsbD i = !decide (keys.getD i 0 ∈ s.pressed) := by
  have hcol : ∀ j < 5, (columnBit keys s.pressed j).getLsbD i
      = (decide (j = i) && !decide (keys.getD j 0 ∈ s.pressed)) :=
    fun j hj => columnBit_getLsbD hi (hlen ▸ hj)
  simp only [keyColumns_of_mapped h, BitVec.getLsbD_or, hcol, Nat.reduceLT]
  obtain rfl | rfl | rfl | rfl | rfl : i = 0 ∨ i = 1 ∨ i = 2 ∨ i = 3 ∨ i = 4 := by omega
  all_goals simp

/-- Settles O3: the row that is not mapped by the lookup, and the row of five keys bit by bit. -/
theorem keyColumnsAreActiveLow : Obligations.KeyColumnsAreActiveLow :=
  fun _ _ => ⟨keyColumns_of_unmapped, fun _ h hlen _ hi => keyColumns_getLsbD h hlen hi⟩

/-! ### The host's inputs -/

/-- A host operation of an unfaulted block outside a frame has its effect (R136). -/
theorem betweenFrames_outside {code : FaultCode} {k : State} (hfault : s.faulted = none)
    (hframe : s.inFrame = false) : betweenFrames s code k = .next k :=
  (live_none hfault).trans (congrArg _ (if_neg (ne_true_of_eq_false hframe)))

/-- Settles O39: the two stops of a host operation for each of the three, then each one's effect
between frames, with what is in the press set after it. -/
theorem hostInputsSetTheirElement : Obligations.HostInputsSetTheirElement := by
  refine ⟨fun k => ?_, fun k => ?_, fun b => ?_, fun s k b hfault hframe => ⟨?_, ?_, ?_⟩⟩
  · exact stopsInFrame_of_betweenFrames (k := fun s => { s with pressed := keyInsert k s.pressed })
      fun _ => rfl
  · exact stopsInFrame_of_betweenFrames (k := fun s => { s with pressed := keyRemove k s.pressed })
      fun _ => rfl
  · exact stopsInFrame_of_betweenFrames (k := fun s => { s with ear := b }) fun _ => rfl
  · exact ⟨_, betweenFrames_outside hfault hframe, rfl, fun _ => mem_keyInsert⟩
  · exact ⟨_, betweenFrames_outside hfault hframe, rfl, fun _ => mem_keyRemove⟩
  · exact betweenFrames_outside hfault hframe

/-! ### The port reads -/

/-- An even-port read as an update of the state: the byte of the state before it, then the two
elements that it clears only while NMI is disabled (R120, R124). -/
theorem portReadEven_eq (row : Byte) (s : State) :
    portReadEven row s = { s with
      replies := s.replies ++ [readValue row s]
      ear := if s.nmiEnabled then s.ear else false
      lineCounter := if s.nmiEnabled then s.lineCounter else 0 } := by
  by_cases hnmi : s.nmiEnabled = true
  · rw [portReadEven_enabled row hnmi, if_pos hnmi, if_pos hnmi]
    rfl
  · rw [portReadEven_disabled row hnmi, if_neg hnmi, if_neg hnmi]
    rfl

/-- Settles O1: the read of an unfaulted block, by both values of the NMI flag. -/
theorem evenPortReadAnswersThenResets : Obligations.EvenPortReadAnswersThenResets :=
  fun s row _ hfault => (live_none hfault).trans (congrArg _ (portReadEven_eq row s))

/-- Settles O5: the reply of an odd port is the only change, as PORT_READ_ODD is defined. -/
theorem oddPortReadReturnsOnes : Obligations.OddPortReadReturnsOnes :=
  fun _ _ hfault => live_none hfault

/-! ### The port writes -/

/-- A write to the NMI-off port clears the NMI flag (R68). -/
theorem nmiAfterWrite_off (c : Config) (nmi : Bool) :
    nmiAfterWrite c c.nmiOffPort nmi = false := if_pos rfl

/-- A write to the NMI-on port sets the NMI flag, where it is another port than the NMI-off port
(R68). -/
theorem nmiAfterWrite_on {c : Config} (h : c.nmiOnPort ≠ c.nmiOffPort) (nmi : Bool) :
    nmiAfterWrite c c.nmiOnPort nmi = true := (if_neg h).trans (if_pos rfl)

/-- A write to any other port leaves the NMI flag (R68). -/
theorem nmiAfterWrite_other {c : Config} (hoff : port ≠ c.nmiOffPort) (hon : port ≠ c.nmiOnPort)
    (nmi : Bool) : nmiAfterWrite c port nmi = nmi := (if_neg hoff).trans (if_neg hon)

/-- A port write of an unfaulted block as an update of the state, by what its port does to the NMI
flag (R125). -/
theorem live_portWrite {nmi : Bool} (hfault : s.faulted = none)
    (hnmi : nmiAfterWrite s.cfg port s.nmiEnabled = nmi) (d : Byte) :
    live s (.next (portWrite port d s)) = .next { s with
      nmiEnabled := nmi, mic := true, lineCounter := 0, borderColor := d.extractLsb' 0 3 } := by
  rw [live_none hfault, ← hnmi]
  rfl

/-- Settles O6: the three rows by the NMI flag after them; the flag that another port leaves is the
one before the write. -/
theorem portWriteEffects : Obligations.PortWriteEffects := by
  intro s high port d hfault
  refine ⟨?_, fun hne => ?_, fun hoff hon => ?_⟩
  · exact live_portWrite hfault (nmiAfterWrite_off _ _) d
  · exact live_portWrite hfault (nmiAfterWrite_on hne _) d
  · exact live_portWrite hfault (nmiAfterWrite_other hoff hon _) d

end Sys2Proof.Machine

/-! POWER_RAISE and POWER_LOWER (R130, R131): what RAM reads as after a reset, and the two
obligations about the power operations' own rules. -/

namespace Sys2Proof.Machine

/-- Under an admitted configuration an unlisted RAM address reads as the reset fill 0x00. -/
theorem unlisted_ram {c : Config} (h : c.admitted = true) {off : Nat} (hoff : off < 0x4000) :
    unlisted c (ramBase + off) = 0x00 := by
  obtain ⟨-, -, hrom, hram, -⟩ := admitted_clauses h
  have hbase : ramBase = 0x2000 := rfl
  rw [unlisted, if_neg (by omega), if_pos (by omega)]
  rfl

/-- POWER_RAISE makes RAM what an unlisted address reads as (R130). -/
@[simp] theorem ramByte_powerRaise (s : State) (off : Nat) :
    ramByte (powerRaise s) off = unlisted s.cfg (ramBase + off) := rfl

/-- POWER_RAISE makes every framebuffer cell 0 (R130). -/
@[simp] theorem fbCell_powerRaise (s : State) (i : Nat) : fbCell (powerRaise s) i = 0 := rfl

/-- Settles O36: the stops of every host operation, then the reset state, whose ROM and RAM are what
unlisted addresses read as under an admitted configuration. -/
theorem powerRaiseResets : Obligations.PowerRaiseResets := by
  refine ⟨stopsInFrame_of_betweenFrames (k := powerRaise) fun _ => rfl,
    fun s hfault hframe hadmitted => ?_⟩
  refine ⟨powerRaise s, betweenFrames_outside hfault hframe, rfl, fbCell_powerRaise s,
    fun off hoff => ?_, fun off hoff => ?_⟩
  · rw [romByte_powerRaise]
    exact romImage_eq_unlisted hadmitted hoff
  · rw [ramByte_powerRaise]
    exact unlisted_ram hadmitted hoff

/-- Settles O38: the stops of every host operation, then the one write of POWER_LOWER. -/
theorem powerLowerClearsPowered : Obligations.PowerLowerClearsPowered :=
  ⟨stopsInFrame_of_betweenFrames (k := fun s => { s with powered := false }) fun _ => rfl,
    fun _ hfault hframe => betweenFrames_outside hfault hframe⟩

end Sys2Proof.Machine

/-! The step and the end of a run in a faulted block (R141, R138), and the obligation that a fault is
final. -/

namespace Sys2Proof.Machine

variable {s : State} {code : FaultCode}

/-- A faulted block takes no transaction, whatever is waiting (R141). -/
theorem fetch_stuck (h : s.faulted = some code) : fetch s = .stuck code := by simp [fetch, h]

/-- A faulted block takes no step (R141). -/
theorem step_stuck (h : s.faulted = some code) : step s = .fault (.stuck code) := by
  simp [step, fetch_stuck h]

/-- A run ends well exactly when nothing is waiting, no frame is in flight and no fault is recorded
(R138). -/
theorem endedWell_iff (s : State) :
    endedWell s = true ↔ s.inbox = [] ∧ s.inFrame = false ∧ s.faulted = none := by
  simp [endedWell, and_assoc]

/-- A faulted block is no good end of a run (R138, R141). -/
theorem endedWell_of_faulted (h : s.faulted = some code) : endedWell s = false := by
  refine Bool.eq_false_iff.mpr fun hwell => ?_
  obtain ⟨-, -, hnone⟩ := (endedWell_iff s).mp hwell
  cases h.symm.trans hnone

/-- Settles O42: `raise` writes `Faulted` alone; operations and steps ask for `Faulted` before they do
anything, and a good end of a run has none. -/
theorem faultIsFinal : Obligations.FaultIsFinal :=
  ⟨fun _ _ => rfl, fun _ _ h => ⟨exec_stuck h, step_stuck h, endedWell_of_faulted h⟩⟩

end Sys2Proof.Machine


/-! The decoder and the encoder as inverses, field by field (R66 to R74, R79), with the two
obligations about them. -/

namespace Sys2Proof

open Sys2Proof.Machine

variable {c : Config}

/-! ### The fields of an encoded operation -/

/-- A port number written is the port number read (R66). -/
@[simp] theorem portOf_writePort (high port : Byte) : portOf (writePort high port) = port :=
  BitVec.extractLsb'_append_eq_right

/-- The high byte of a port write is the one it was put together from (R66). -/
@[simp] theorem rowOf_writePort (high port : Byte) : rowOf (writePort high port) = high :=
  BitVec.extractLsb'_append_eq_left

/-- Bit 0 tells an even port from an odd one (R66). -/
theorem evenPort_bit0 (row : Byte) (low : BitVec 7) : (evenPort row low).getLsbD 0 = false :=
  getLsbD_append_low _ _ (by decide)

theorem oddPort_bit0 (high : BitVec 15) : (oddPort high).getLsbD 0 = true :=
  getLsbD_append_low _ _ (by decide)

/-- The row select of an even port is the one it was put together from (R66). -/
@[simp] theorem rowOf_evenPort (row : Byte) (low : BitVec 7) : rowOf (evenPort row low) = row := by
  rw [rowOf, evenPort, extractLsb'_append_high _ _ (by decide)]
  exact BitVec.extractLsb'_append_eq_left

theorem decodePortRead_evenPort (row : Byte) (low : BitVec 7) :
    decodePortRead (evenPort row low) = .portReadEven row low := by
  have hlow : (evenPort row low).extractLsb' 1 7 = low := by
    rw [evenPort, extractLsb'_append_high _ _ (by decide)]
    exact BitVec.extractLsb'_append_eq_right
  rw [decodePortRead, if_neg (ne_true_of_eq_false (evenPort_bit0 row low)), rowOf_evenPort, hlow]

theorem decodePortRead_oddPort (high : BitVec 15) :
    decodePortRead (oddPort high) = .portReadOdd high := by
  have hhigh : (oddPort high).extractLsb' 1 15 = high := BitVec.extractLsb'_append_eq_left
  rw [decodePortRead, if_pos (oddPort_bit0 high), hhigh]

theorem decodeMemRead_directAddr (a : BitVec 15) :
    decodeMemRead (directAddr a) .m1 = .memFetchDirect a := by
  have hbit : (directAddr a).getLsbD 15 = false := getLsbD_append_high _ _ (by decide)
  have hlow : (directAddr a).extractLsb' 0 15 = a := BitVec.extractLsb'_append_eq_right
  simp only [decodeMemRead, hbit, hlow, Bool.false_eq_true, if_false]

theorem decodeMemRead_mirrorAddr (bit14 : BitVec 1) (a : BitVec 14) :
    decodeMemRead (mirrorAddr bit14 a) .m1 = .memFetchMirror bit14 a := by
  have hbit : (mirrorAddr bit14 a).getLsbD 15 = true := by
    rw [mirrorAddr, getLsbD_append_high _ _ (by decide)]
    exact getLsbD_append_high _ _ (by decide)
  have h14 : (mirrorAddr bit14 a).extractLsb' 14 1 = bit14 := by
    rw [mirrorAddr, extractLsb'_append_high _ _ (by decide)]
    exact BitVec.extractLsb'_append_eq_right
  have hlow : (mirrorAddr bit14 a).extractLsb' 0 14 = a := BitVec.extractLsb'_append_eq_right
  simp only [decodeMemRead, hbit, h14, hlow, if_true]

/-- The row of a refresh value put together from its fields goes by the middle one (R70). -/
theorem decodeInstrDone_refreshValue (bit7 bit6 : BitVec 1) (low : BitVec 6) :
    decodeInstrDone (refreshValue bit7 bit6 low)
      = if bit6.getLsbD 0 then .instrDoneNoint bit7 low else .instrDoneInt bit7 low := by
  have h7 : (refreshValue bit7 bit6 low).extractLsb' 7 1 = bit7 := by
    rw [refreshValue, extractLsb'_append_high _ _ (by decide)]
    exact BitVec.extractLsb'_append_eq_left
  have hlow : (refreshValue bit7 bit6 low).extractLsb' 0 6 = low :=
    BitVec.extractLsb'_append_eq_right
  rw [decodeInstrDone, refreshValue_bit6, h7, hlow]

theorem decodePortWrite_off (high d : Byte) :
    decodePortWrite c (writePort high c.nmiOffPort) d = .portWriteNmiOff high d := by
  simp [decodePortWrite]

theorem decodePortWrite_on (hne : c.nmiOnPort ≠ c.nmiOffPort) (high d : Byte) :
    decodePortWrite c (writePort high c.nmiOnPort) d = .portWriteNmiOn high d := by
  simp [decodePortWrite, hne]

theorem decodePortWrite_other {port : Byte} (hoff : port ≠ c.nmiOffPort) (hon : port ≠ c.nmiOnPort)
    (high d : Byte) : decodePortWrite c (writePort high port) d = .portWriteOther high port d := by
  simp [decodePortWrite, hoff, hon]

/-- Settles O49: row by row, the fields of the encoded transaction are the operation's operands, and
the condition that picks the row is the operation's well-formedness. -/
theorem decodeOfEncodeIsTheOperation : Obligations.DecodeOfEncodeIsTheOperation := by
  intro c i hwf
  cases i with
  | portReadEven row low => exact congrArg Except.ok (decodePortRead_evenPort row low)
  | portReadOdd high => exact congrArg Except.ok (decodePortRead_oddPort high)
  | portWriteNmiOff high d => exact congrArg Except.ok (decodePortWrite_off high d)
  | portWriteNmiOn high d =>
    exact congrArg Except.ok (decodePortWrite_on (of_decide_eq_true hwf) high d)
  | portWriteOther high port d =>
    obtain ⟨hoff, hon⟩ := of_decide_eq_true hwf
    exact congrArg Except.ok (decodePortWrite_other hoff hon high d)
  | memFetchDirect a => exact congrArg Except.ok (decodeMemRead_directAddr a)
  | memFetchMirror bit14 a => exact congrArg Except.ok (decodeMemRead_mirrorAddr bit14 a)
  | instrDoneInt bit7 low => exact congrArg Except.ok (decodeInstrDone_refreshValue bit7 0#1 low)
  | instrDoneNoint bit7 low => exact congrArg Except.ok (decodeInstrDone_refreshValue bit7 1#1 low)
  | renderLineRetrace y | renderLineUpper y | renderLineActive y | renderLineLower y
  | renderLineTrailing y =>
    have hband := of_decide_eq_true hwf
    simp only [encode, decode, decodeSeq, decodeRenderLine, hband]
  | pixel x col => exact if_pos (of_decide_eq_true hwf)
  | proceed n => exact if_pos (of_decide_eq_true hwf)
  | memRead | memWrite | instrPre | frame | lineTail | nmiPulse | tick | publish | powerRaise
  | powerLower | keyDown | keyUp | setEar | snapshotWrite => rfl

/-! ### A transaction put together again from the fields of its operation -/

/-- A field of one bit is that bit. -/
theorem extractLsb'_bit {n : Nat} (x : BitVec n) (k : Nat) :
    x.extractLsb' k 1 = BitVec.ofBool (x.getLsbD k) := by
  apply BitVec.eq_of_getLsbD_eq
  intro i hi
  obtain rfl : i = 0 := by omega
  simp

theorem evenPort_fields {a : Addr} (h : a.getLsbD 0 = false) :
    evenPort (rowOf a) (a.extractLsb' 1 7) = a := by
  have hbit : a.extractLsb' 0 1 = 0#1 := by rw [extractLsb'_bit, h]; rfl
  rw [evenPort, rowOf,
    BitVec.extractLsb'_append_extractLsb'_eq_extractLsb' (show 8 = 1 + 7 from rfl), ← hbit]
  exact append_extractLsb' (n := 15) (m := 1) a

theorem oddPort_fields {a : Addr} (h : a.getLsbD 0 = true) : oddPort (a.extractLsb' 1 15) = a := by
  have hbit : a.extractLsb' 0 1 = 1#1 := by rw [extractLsb'_bit, h]; rfl
  rw [oddPort, ← hbit]
  exact append_extractLsb' (n := 15) (m := 1) a

@[simp] theorem writePort_fields (a : Addr) : writePort (rowOf a) (portOf a) = a :=
  append_extractLsb' (n := 8) (m := 8) a

theorem directAddr_fields {a : Addr} (h : a.getLsbD 15 = false) :
    directAddr (a.extractLsb' 0 15) = a := by
  have hbit : a.extractLsb' 15 1 = 0#1 := by rw [extractLsb'_bit, h]; rfl
  rw [directAddr, ← hbit]
  exact append_extractLsb' (n := 1) (m := 15) a

theorem mirrorAddr_fields {a : Addr} (h : a.getLsbD 15 = true) :
    mirrorAddr (a.extractLsb' 14 1) (a.extractLsb' 0 14) = a := by
  have hbit : a.extractLsb' 15 1 = 1#1 := by rw [extractLsb'_bit, h]; rfl
  rw [mirrorAddr, ← hbit,
    BitVec.extractLsb'_append_extractLsb'_eq_extractLsb' (show 15 = 14 + 1 from rfl)]
  exact append_extractLsb' (n := 2) (m := 14) a

theorem refreshValue_fields {r : Byte} {bit6 : BitVec 1} (h : r.extractLsb' 6 1 = bit6) :
    refreshValue (r.extractLsb' 7 1) bit6 (r.extractLsb' 0 6) = r := by
  rw [refreshValue, ← h,
    BitVec.extractLsb'_append_extractLsb'_eq_extractLsb' (show 7 = 6 + 1 from rfl)]
  exact append_extractLsb' (n := 2) (m := 6) r

theorem encode_decodePortRead (a : Addr) : encode c (decodePortRead a) = .cpu (.pr a) := by
  unfold decodePortRead
  split
  next hodd => rw [encode, oddPort_fields hodd]
  next heven => rw [encode, evenPort_fields (Bool.eq_false_iff.mpr heven)]

theorem encode_decodePortWrite (a : Addr) (d : Byte) :
    encode c (decodePortWrite c a d) = .cpu (.pw a d) := by
  unfold decodePortWrite
  split
  next hoff => rw [encode, ← hoff, writePort_fields]
  split
  next hon => rw [encode, ← hon, writePort_fields]
  next hon => rw [encode, writePort_fields]

theorem encode_decodeMemRead (a : Addr) (phase : Phase) :
    encode c (decodeMemRead a phase) = .cpu (.mr a phase) := by
  cases phase with
  | data => rfl
  | m1 =>
    simp only [decodeMemRead]
    split
    next hhigh => rw [encode, mirrorAddr_fields hhigh]
    next hlow => rw [encode, directAddr_fields (Bool.eq_false_iff.mpr hlow)]

theorem encode_decodeInstrDone (r : Byte) : encode c (decodeInstrDone r) = .cpu (.id r) := by
  unfold decodeInstrDone
  split
  next hset => rw [encode, refreshValue_fields (by rw [extractLsb'_bit, hset]; rfl)]
  next hclear =>
    rw [encode, refreshValue_fields (by rw [extractLsb'_bit, Bool.eq_false_iff.mpr hclear]; rfl)]

theorem encode_decodeCpu (x : CpuTxn) : encode c (decodeCpu c x) = .cpu x := by
  cases x with
  | pr a => exact encode_decodePortRead a
  | pw a d => exact encode_decodePortWrite a d
  | mr a phase => exact encode_decodeMemRead a phase
  | mw a d => rfl
  | id r => exact encode_decodeInstrDone r
  | ip => rfl

theorem encode_decodeHost (o : HostOp) : encode c (decodeHost o) = .host o := by
  cases o <;> rfl

theorem encode_decodeRenderLine (y : Nat) :
    encode c (decodeRenderLine c y) = .seq (.renderLine y) := by
  unfold decodeRenderLine
  split <;> rfl

/-- A sequencer step that is not rejected keeps its operands. -/
theorem encode_of_decodeSeq {p : SeqStep} {i : Instr} (h : decodeSeq c p = .ok i) :
    encode c i = .seq p := by
  cases p with
  | renderLine y => cases h; exact encode_decodeRenderLine y
  | pixel x col => simp only [decodeSeq] at h; split at h <;> cases h; rfl
  | proceed n => simp only [decodeSeq] at h; split at h <;> cases h; rfl
  | lineTail | nmiPulse | tick n | publish => cases h; rfl

/-! ### What a transaction decodes to is well-formed -/

theorem wellFormed_decodePortWrite (hne : c.nmiOnPort ≠ c.nmiOffPort) (a : Addr) (d : Byte) :
    (decodePortWrite c a d).wellFormed c = true := by
  unfold decodePortWrite
  split
  · rfl
  split
  · exact decide_eq_true hne
  · exact decide_eq_true ⟨‹_›, ‹_›⟩

theorem wellFormed_decodeCpu (hne : c.nmiOnPort ≠ c.nmiOffPort) (x : CpuTxn) :
    (decodeCpu c x).wellFormed c = true := by
  cases x with
  | pr a => simp only [decodeCpu, decodePortRead]; split <;> rfl
  | pw a d => exact wellFormed_decodePortWrite hne a d
  | mr a phase =>
    cases phase with
    | data => rfl
    | m1 => simp only [decodeCpu, decodeMemRead]; split <;> rfl
  | mw a d => rfl
  | id r => simp only [decodeCpu, decodeInstrDone]; split <;> rfl
  | ip => rfl

theorem wellFormed_decodeHost (o : HostOp) : (decodeHost o).wellFormed c = true := by
  cases o <;> rfl

theorem wellFormed_decodeRenderLine (y : Nat) : (decodeRenderLine c y).wellFormed c = true := by
  unfold decodeRenderLine
  cases hb : bandOf c y <;> exact decide_eq_true hb

theorem wellFormed_of_decodeSeq {p : SeqStep} {i : Instr} (h : decodeSeq c p = .ok i) :
    i.wellFormed c = true := by
  cases p with
  | renderLine y => cases h; exact wellFormed_decodeRenderLine y
  | pixel x col => simp only [decodeSeq] at h; split at h <;> cases h; exact decide_eq_true ‹_›
  | proceed n => simp only [decodeSeq] at h; split at h <;> cases h; exact decide_eq_true ‹_›
  | lineTail | nmiPulse | tick n | publish => cases h; rfl

/-- A transaction that is not rejected decodes to a well-formed operation, where the two NMI ports
differ (R68, R72, R74, R82, R97). -/
theorem wellFormed_of_decode (hne : c.nmiOnPort ≠ c.nmiOffPort) {x : Transaction} {i : Instr}
    (h : decode c x = .ok i) : i.wellFormed c = true := by
  cases x with
  | cpu x => cases h; exact wellFormed_decodeCpu hne x
  | host o => cases h; exact wellFormed_decodeHost o
  | seq p => exact wellFormed_of_decodeSeq h

/-- Settles O50: by format, each decoded field goes back to its place, and the test that picked the
row is its well-formedness. -/
theorem encodeOfDecodeIsTheTransaction : Obligations.EncodeOfDecodeIsTheTransaction := by
  intro c x i h
  refine ⟨?_, fun hne => wellFormed_of_decode hne h⟩
  cases x with
  | cpu x => cases h; exact encode_decodeCpu x
  | host o => cases h; exact encode_decodeHost o
  | seq p => exact encode_of_decodeSeq h

end Sys2Proof

/-! The step as the operation of the next transaction (R79, log 3), what the host inputs leave
alone, and the obligations about what every operation and every step keeps. -/

namespace Sys2Proof.Machine

variable {s t u : State} {i : Instr}

/-! ### The wrappers, for any property of the next state -/

/-- The next state has every property of the operation's effect. -/
theorem live_next_of {P : State → Prop} (h : live s (.next u) = .next t) (hu : P u) : P t := by
  obtain ⟨-, rfl⟩ := live_next_eq h
  exact hu

/-- The next state has every property that both the fault in a frame and the effect have. -/
theorem betweenFrames_next_of {P : State → Prop} {code : FaultCode}
    (h : betweenFrames s code u = .next t) (hraise : P (raise code s)) (hu : P u) : P t := by
  obtain ⟨-, rfl⟩ := betweenFrames_next h
  split
  · exact hraise
  · exact hu

/-- An operation that gives a next state started unfaulted. -/
theorem exec_next_unfaulted (h : exec i s = .next t) : s.faulted = none := by
  obtain ⟨k, hk⟩ := exec_eq_live i s
  exact (live_next (hk ▸ h)).1

/-! ### The step -/

theorem fetch_idle (hfault : s.faulted = none) (hbox : s.inbox = []) : fetch s = .idle := by
  simp [fetch, hfault, hbox]

theorem fetch_noRow {x : Transaction} {rest : List Transaction} {e : DecodeError}
    (hfault : s.faulted = none) (hbox : s.inbox = x :: rest) (hdec : decode s.cfg x = .error e) :
    fetch s = .noRow e := by simp [fetch, hfault, hbox, hdec]

theorem fetch_ready {x : Transaction} {rest : List Transaction} (hfault : s.faulted = none)
    (hbox : s.inbox = x :: rest) (hdec : decode s.cfg x = .ok i) :
    fetch s = .ready i { s with inbox := rest } := by simp [fetch, hfault, hbox, hdec]

/-- With no transaction waiting a step changes nothing (log 3). -/
theorem step_idle (hfault : s.faulted = none) (hbox : s.inbox = []) : step s = .next s := by
  rw [step, fetch_idle hfault hbox]

/-- A step is the operation of the next transaction, on the state without it (R79). -/
theorem step_ready {x : Transaction} {rest : List Transaction} (hfault : s.faulted = none)
    (hbox : s.inbox = x :: rest) (hdec : decode s.cfg x = .ok i) :
    step s = exec i { s with inbox := rest } := by
  rw [step, fetch_ready hfault hbox hdec]

/-- A step that gives a next state started unfaulted. -/
theorem step_next_unfaulted (h : step s = .next t) : s.faulted = none := by
  by_contra hne
  obtain ⟨code, hcode⟩ := Option.ne_none_iff_exists'.mp hne
  cases (step_stuck hcode).symm.trans h

/-- A step that gives a next state was idle, or performed the operation of the next transaction. -/
theorem step_next (h : step s = .next t) : t = s ∨ ∃ x rest i, s.inbox = x :: rest ∧
    decode s.cfg x = .ok i ∧ exec i { s with inbox := rest } = .next t := by
  have hfault := step_next_unfaulted h
  cases hbox : s.inbox with
  | nil => cases (step_idle hfault hbox).symm.trans h; exact .inl rfl
  | cons x rest =>
    cases hdec : decode s.cfg x with
    | error e => rw [step, fetch_noRow hfault hbox hdec] at h; cases h
    | ok i => exact .inr ⟨x, rest, i, rfl, hdec, (step_ready hfault hbox hdec).symm.trans h⟩

/-- Settles O47: the step by what it fetches. -/
theorem stepRunsTheDecodedOperation : Obligations.StepRunsTheDecodedOperation :=
  fun _ hfault => ⟨fun _ _ _ => step_ready hfault, step_idle hfault⟩

/-! ### The host inputs -/

/-- The loader's write is a fault or a change of memory only (R119). -/
theorem loadByte_cases (region : LoadRegion) (off : Nat) (v : Byte) (s : State) :
    loadByte region off v s = raise (.snapshotRange region off) s ∨
      ∃ m, loadByte region off v s = { s with mem := m } := by
  cases region with
  | rom | ram =>
    simp only [loadByte]
    split
    · exact .inl rfl
    · exact .inr ⟨_, rfl⟩

/-- What a host input leaves alone: the configuration, the trace, what is waiting and whether a
frame is in flight; all but POWER_RAISE `Flash` and `Budget` too, all but KEY_DOWN and KEY_UP the
press set. -/
structure InputKept (i : Instr) (s t : State) : Prop where
  cfg : t.cfg = s.cfg
  trace : t.trace = s.trace
  inbox : t.inbox = s.inbox
  inFrame : t.inFrame = s.inFrame
  flash : i ≠ .powerRaise → t.flash = s.flash
  budget : i ≠ .powerRaise → t.budget = s.budget
  pressed : (∀ k, i ≠ .keyDown k) → (∀ k, i ≠ .keyUp k) → t.pressed = s.pressed

theorem exec_inputKept (hi : hostInput i = true) (h : exec i s = .next t) : InputKept i s t := by
  have hsame : ∀ i, InputKept i s s := fun i =>
    ⟨rfl, rfl, rfl, rfl, fun _ => rfl, fun _ => rfl, fun _ _ => rfl⟩
  cases i with
  | powerRaise =>
    exact betweenFrames_next_of h { hsame _ with }
      { hsame _ with flash := fun hne => absurd rfl hne, budget := fun hne => absurd rfl hne }
  | keyDown k =>
    exact betweenFrames_next_of h { hsame _ with }
      { hsame _ with pressed := fun hne _ => absurd rfl (hne k) }
  | keyUp k =>
    exact betweenFrames_next_of h { hsame _ with }
      { hsame _ with pressed := fun _ hne => absurd rfl (hne k) }
  | powerLower | setEar => exact betweenFrames_next_of h { hsame _ with } { hsame _ with }
  | snapshotWrite region off v =>
    refine betweenFrames_next_of h { hsame _ with } ?_
    obtain hload | ⟨m, hload⟩ := loadByte_cases region off v s
    · rw [hload]; exact { hsame _ with }
    · rw [hload]; exact { hsame _ with }
  | _ => cases hi

/-! ### What every operation keeps -/

/-- No operation changes the configuration, and each one's trace goes on from the trace before. -/
theorem exec_cfg_trace (h : exec i s = .next t) : t.cfg = s.cfg ∧ s.trace <+: t.trace := by
  cases hi : hostInput i with
  | false => exact ⟨(exec_kept hi h).cfg, (exec_kept hi h).trace⟩
  | true =>
    have hk := exec_inputKept hi h
    exact ⟨hk.cfg, hk.trace ▸ List.prefix_refl _⟩

/-- Settles O53: an idle step keeps the state, any other is an operation, which takes nothing but
its transaction first. -/
theorem configurationFixedAndTraceGrows : Obligations.ConfigurationFixedAndTraceGrows := by
  intro s t h
  obtain rfl | ⟨x, rest, i, -, -, hexec⟩ := step_next h
  · exact ⟨rfl, List.prefix_refl _⟩
  · exact exec_cfg_trace (s := { s with inbox := rest }) hexec

/-- Settles O20: the balance of every operation that is no host input, and the host inputs but
POWER_RAISE keep both the trace and the budget. -/
theorem driftIsTheBudget : Obligations.DriftIsTheBudget := by
  intro i s t hpower h
  cases hi : hostInput i with
  | false => exact (exec_kept hi h).balance
  | true => rw [(exec_inputKept hi h).trace, (exec_inputKept hi h).budget hpower]

/-- Settles O41: the frame of every operation that is no host input, the host inputs one by one, and
the effect of POWER_RAISE. -/
theorem pressSetAndFlashHaveTheirOwnWriters : Obligations.PressSetAndFlashHaveTheirOwnWriters := by
  intro i s t h
  refine ⟨fun hdown hup => ?_, fun hpower => ?_, fun hpower hframe => ?_⟩
  · cases hi : hostInput i with
    | false => exact (exec_kept hi h).pressed
    | true => exact (exec_inputKept hi h).pressed hdown hup
  · cases hi : hostInput i with
    | false => exact (exec_kept hi h).flash
    | true => exact (exec_inputKept hi h).flash hpower
  · subst hpower
    obtain ⟨-, rfl⟩ := betweenFrames_next h
    rw [hframe, if_neg Bool.false_ne_true, powerRaise_flash]

/-! ### The invariant -/

/-- A pixel that is not refused keeps the invariant. -/
theorem execPixel_inv {x : Nat} {col : Colour} (hinv : MachineInv s)
    (h : execPixel x col s = .next t) : MachineInv t := by
  obtain ⟨-, hk⟩ := live_next h
  split at hk
  next hin =>
    cases hk
    obtain ⟨-, hrow, hx⟩ := of_decide_eq_true hin
    exact pixel_inv col hinv hrow hx
  next => cases hk

/-- FRAME keeps the invariant, admitted or not. -/
theorem execFrame_inv (hinv : MachineInv s) (h : execFrame s = .next t) : MachineInv t := by
  refine live_next_of h ?_
  split
  · exact raise_inv _ hinv
  split
  · exact raise_inv _ hinv
  · exact frameBody_inv hinv

/-- Every well-formed operation keeps the invariant. -/
theorem exec_inv (hinv : MachineInv s) (hwf : i.wellFormed s.cfg = true)
    (h : exec i s = .next t) : MachineInv t := by
  cases i with
  | portReadEven row =>
    exact live_next_of h (((reply_answered _ s).trans (readSideEffect_answered _)).inv hinv)
  | portReadOdd | memFetchDirect | memFetchMirror | memRead =>
    exact live_next_of h ((reply_answered _ s).inv hinv)
  | portWriteNmiOff | portWriteNmiOn | portWriteOther =>
    exact live_next_of h ((portWriteEffect_answered _ _ s).inv hinv)
  | memWrite a d => exact live_next_of h ((memStore_answered a d s).inv hinv)
  | instrDoneInt | instrDoneNoint => exact live_next_of h ((instrDone_answered _ s).inv hinv)
  | instrPre => exact live_next_of h hinv
  | frame => exact execFrame_inv hinv h
  | renderLineRetrace y | renderLineUpper y | renderLineActive y | renderLineLower y
  | renderLineTrailing y => rw [renderLineAs_next h]; exact renderLine_inv y hinv
  | pixel => exact execPixel_inv hinv h
  | lineTail => exact live_next_of h (lineTail_inv hinv)
  | nmiPulse => exact live_next_of h (emit_inv rfl hinv)
  | tick n => exact live_next_of h (tick_inv n hinv)
  | proceed n => exact live_next_of h (proceed_inv (of_decide_eq_true hwf) hinv)
  | publish => exact live_next_of h (publish_inv hinv)
  | powerRaise => exact betweenFrames_next_of h (raise_inv _ hinv) (powerRaise_inv hinv)
  | powerLower | setEar => exact betweenFrames_next_of h (raise_inv _ hinv) { hinv with }
  | keyDown k =>
    exact betweenFrames_next_of h (raise_inv _ hinv)
      { hinv with pressed := keyInsert_wf k hinv.pressed }
  | keyUp k =>
    exact betweenFrames_next_of h (raise_inv _ hinv)
      { hinv with pressed := keyRemove_wf k hinv.pressed }
  | snapshotWrite region off v =>
    exact betweenFrames_next_of h (raise_inv _ hinv) (loadByte_inv region off v hinv)

/-- Settles O52: under an admitted configuration a step's operation is well-formed, and every
well-formed operation keeps the invariant. -/
theorem everyStepKeepsTheInvariant : Obligations.EveryStepKeepsTheInvariant := by
  intro s t hinv h
  obtain rfl | ⟨x, rest, i, -, hdec, hexec⟩ := step_next h
  · exact hinv
  · obtain ⟨-, -, -, -, hports, -⟩ := admitted_clauses hinv.admitted
    exact exec_inv (s := { s with inbox := rest }) { hinv with } (wellFormed_of_decode hports hdec)
      hexec

end Sys2Proof.Machine

/-! A relation that the block's updates keep is kept by every operation, so that two related states
go on alike; the two noninterference obligations are this for the line counter (R22) and for memory
(R118). -/

namespace Sys2Proof.Machine

variable {R : State → State → Prop} {s t u k l : State} {i : Instr}

/-- A relation that the writes of the host inputs keep as well. -/
structure HostCongruence (R : State → State → Prop) : Prop extends Congruence R where
  powerRaise : ∀ {s u}, R s u → R (powerRaise s) (powerRaise u)
  powerLower : ∀ {s u}, R s u → R { s with powered := false } { u with powered := false }
  keyDown : ∀ {s u} (k : RawKey), R s u →
    R { s with pressed := keyInsert k s.pressed } { u with pressed := keyInsert k u.pressed }
  keyUp : ∀ {s u} (k : RawKey), R s u →
    R { s with pressed := keyRemove k s.pressed } { u with pressed := keyRemove k u.pressed }
  setEar : ∀ {s u} (b : Bool), R s u → R { s with ear := b } { u with ear := b }
  loadByte : ∀ {s u} (region : LoadRegion) (off : Nat) (v : Byte), R s u →
    R (loadByte region off v s) (loadByte region off v u)

/-! ### The wrappers -/

/-- Related states go on to related effects. -/
theorem Congruence.live (c : Congruence R) (hR : R s u) (hkl : R k l)
    (h : live s (.next k) = .next t) : ∃ t', live u (.next l) = .next t' ∧ R t t' := by
  obtain ⟨hfault, rfl⟩ := live_next_eq h
  exact ⟨l, live_none ((c.faulted hR).trans hfault), hkl⟩

/-- Related states go on to related effects between frames, and to the same fault in one. -/
theorem Congruence.betweenFrames (c : Congruence R) {code : FaultCode} (hR : R s u) (hkl : R k l)
    (h : betweenFrames s code k = .next t) :
    ∃ t', betweenFrames u code l = .next t' ∧ R t t' := by
  refine c.live hR ?_ h
  rw [c.inFrame hR]
  split
  · exact c.raise code hR
  · exact hkl

/-! ### The operations -/

/-- An even-port read answers a transaction of the CPU engine (R120). -/
theorem answer_evenPort (row : Byte) (low : BitVec 7) (s : State) :
    answer s (.pr (evenPort row low)) = portReadEven row s := by
  rw [answer, if_neg (ne_true_of_eq_false (evenPort_bit0 row low)), rowOf_evenPort]

/-- An odd-port read answers a transaction of the CPU engine (R121). -/
theorem answer_oddPort (high : BitVec 15) (s : State) :
    answer s (.pr (oddPort high)) = portReadOdd s := if_pos (oddPort_bit0 high)

/-- A port write answers a transaction of the CPU engine (R125). -/
theorem answer_writePort (high port d : Byte) (s : State) :
    answer s (.pw (writePort high port) d) = portWrite port d s := by
  rw [answer, portOf_writePort]

theorem Congruence.portReadEven (c : Congruence R) (row : Byte) (hR : R s u) :
    R (portReadEven row s) (portReadEven row u) := by
  simpa only [answer_evenPort] using c.answer (.pr (evenPort row 0)) hR

theorem Congruence.portReadOdd (c : Congruence R) (hR : R s u) :
    R (portReadOdd s) (portReadOdd u) := by
  simpa only [answer_oddPort] using c.answer (.pr (oddPort 0)) hR

theorem Congruence.portWrite (c : Congruence R) (port d : Byte) (hR : R s u) :
    R (portWrite port d s) (portWrite port d u) := by
  simpa only [answer_writePort] using c.answer (.pw (writePort 0 port) d) hR

/-- A RENDER_LINE row of related states. -/
theorem Congruence.renderLineAs (c : Congruence R) {b : Band} {y : Nat} (hR : R s u)
    (h : renderLineAs b y s = .next t) : ∃ t', renderLineAs b y u = .next t' ∧ R t t' := by
  obtain ⟨hfault, hk⟩ := live_next h
  split at hk
  next hb =>
    cases hk
    exact ⟨_, renderLineAs_of_band ((c.faulted hR).trans hfault) (c.cfg hR ▸ hb),
      c.renderLine y hR⟩
  next => cases hk

/-- PIXEL of related states. -/
theorem Congruence.execPixel (c : Congruence R) {x : Nat} {col : Colour} (hR : R s u)
    (h : execPixel x col s = .next t) : ∃ t', execPixel x col u = .next t' ∧ R t t' := by
  obtain ⟨hfault, hk⟩ := live_next h
  split at hk
  next hin =>
    cases hk
    refine ⟨Machine.pixel x col u, (live_none ((c.faulted hR).trans hfault)).trans (if_pos ?_),
      c.pixel x col hR⟩
    rw [c.cfg hR, c.nextLine hR]
    exact hin
  next => cases hk

/-- FRAME of related states, admitted or not. -/
theorem Congruence.execFrame (c : Congruence R) (hR : R s u) (h : execFrame s = .next t) :
    ∃ t', execFrame u = .next t' ∧ R t t' := by
  refine c.live hR ?_ h
  rw [c.powered hR, c.inFrame hR]
  split
  · exact c.raise _ hR
  split
  · exact c.raise _ hR
  · exact c.frameBody hR

/-- Every operation of related states goes on alike, to related states. -/
theorem HostCongruence.exec (c : HostCongruence R) (hR : R s u) (h : exec i s = .next t) :
    ∃ t', exec i u = .next t' ∧ R t t' := by
  cases i with
  | portReadEven row => exact c.live hR (c.portReadEven row hR) h
  | portReadOdd => exact c.live hR (c.portReadOdd hR) h
  | portWriteNmiOff high d => exact c.live hR (c.cfg hR ▸ c.portWrite s.cfg.nmiOffPort d hR) h
  | portWriteNmiOn high d => exact c.live hR (c.cfg hR ▸ c.portWrite s.cfg.nmiOnPort d hR) h
  | portWriteOther high port d => exact c.live hR (c.portWrite port d hR) h
  | memFetchDirect a => exact c.live hR (c.answer (.mr (directAddr a) .m1) hR) h
  | memFetchMirror bit14 a => exact c.live hR (c.answer (.mr (mirrorAddr bit14 a) .m1) hR) h
  | memRead a => exact c.live hR (c.answer (.mr a .data) hR) h
  | memWrite a d => exact c.live hR (c.answer (.mw a d) hR) h
  | instrDoneInt bit7 low => exact c.live hR (c.answer (.id (refreshValue bit7 0#1 low)) hR) h
  | instrDoneNoint bit7 low => exact c.live hR (c.answer (.id (refreshValue bit7 1#1 low)) hR) h
  | instrPre => exact c.live hR hR h
  | frame => exact c.execFrame hR h
  | renderLineRetrace | renderLineUpper | renderLineActive | renderLineLower
  | renderLineTrailing => exact c.renderLineAs hR h
  | pixel => exact c.execPixel hR h
  | lineTail => exact c.live hR (c.lineTail hR) h
  | nmiPulse => exact c.live hR (c.nmiPulse hR) h
  | tick n => exact c.live hR (c.tick n hR) h
  | proceed n => exact c.live hR (c.proceed n hR) h
  | publish => exact c.live hR (c.publish hR) h
  | powerRaise => exact c.betweenFrames hR (c.powerRaise hR) h
  | powerLower => exact c.betweenFrames hR (c.powerLower hR) h
  | keyDown k => exact c.betweenFrames hR (c.keyDown k hR) h
  | keyUp k => exact c.betweenFrames hR (c.keyUp k hR) h
  | setEar b => exact c.betweenFrames hR (c.setEar b hR) h
  | snapshotWrite region off v => exact c.betweenFrames hR (c.loadByte region off v hR) h

/-! ### The line counter and memory -/

theorem lineCounterDiffers_hostCongruence : HostCongruence LineCounterDiffers where
  toCongruence := lineCounterDiffers_congruence
  powerRaise := by rintro s _ ⟨v, rfl⟩; exact ⟨0, rfl⟩
  powerLower := by rintro s _ ⟨v, rfl⟩; exact ⟨v, rfl⟩
  keyDown := by rintro s _ k ⟨v, rfl⟩; exact ⟨v, rfl⟩
  keyUp := by rintro s _ k ⟨v, rfl⟩; exact ⟨v, rfl⟩
  setEar := by rintro s _ b ⟨v, rfl⟩; exact ⟨v, rfl⟩
  loadByte := by
    rintro s _ region off b ⟨v, rfl⟩
    cases region with
    | rom | ram => simp only [Machine.loadByte]; split <;> exact ⟨v, rfl⟩

theorem memoryDiffers_hostCongruence : HostCongruence MemoryDiffers where
  toCongruence := memoryDiffers_congruence
  powerRaise := by rintro s _ ⟨m, r, rfl⟩; exact ⟨[], r, rfl⟩
  powerLower := by rintro s _ ⟨m, r, rfl⟩; exact ⟨m, r, rfl⟩
  keyDown := by rintro s _ k ⟨m, r, rfl⟩; exact ⟨m, r, rfl⟩
  keyUp := by rintro s _ k ⟨m, r, rfl⟩; exact ⟨m, r, rfl⟩
  setEar := by rintro s _ b ⟨m, r, rfl⟩; exact ⟨m, r, rfl⟩
  loadByte := by
    rintro s _ region off b ⟨m, r, rfl⟩
    cases region with
    | rom | ram => simp only [Machine.loadByte]; split <;> exact ⟨_, r, rfl⟩

/-- Settles O54: to differ in the line counter only is a relation that every operation keeps. -/
theorem lineCounterDecidesNothing : Obligations.LineCounterDecidesNothing := by
  intro i s t v h
  obtain ⟨_, hexec, w, rfl⟩ := lineCounterDiffers_hostCongruence.exec ⟨v, rfl⟩ h
  exact ⟨w, hexec⟩

/-- Settles O55: to differ in memory and returned bytes only is a relation that every operation
keeps. -/
theorem memoryReachesNoPixelAndNoEventForFixedCpuInstructions :
    Obligations.MemoryReachesNoPixelAndNoEventForFixedCpuInstructions := by
  intro i s t m h
  obtain ⟨_, hexec, m', r', rfl⟩ := memoryDiffers_hostCongruence.exec ⟨m, s.replies, rfl⟩ h
  exact ⟨m', r', hexec⟩

end Sys2Proof.Machine

/-! The CPU engine's transactions by their rows (R75, R100), the byte of a read by its address (R55,
R63, R116) and the writers of the NMI flag (R23), with the five obligations about them. -/

namespace Sys2Proof.Machine

variable {s t : State}

/-! ### The rows of the CPU engine's transactions -/

/-- The row of a port read answers it (R120, R121). -/
theorem exec_decodePortRead (hfault : s.faulted = none) (a : Addr) :
    exec (decodePortRead a) s = .next (answer s (.pr a)) := by
  simp only [decodePortRead, answer]
  split <;> exact live_none hfault

/-- The row of a port write answers it: the two NMI rows name the port number they stand for
(R125). -/
theorem exec_decodePortWrite (hfault : s.faulted = none) (a : Addr) (d : Byte) :
    exec (decodePortWrite s.cfg a d) s = .next (answer s (.pw a d)) := by
  unfold decodePortWrite
  split
  next hoff => rw [answer, hoff]; exact live_none hfault
  split
  next hon => rw [answer, hon]; exact live_none hfault
  next => exact live_none hfault

/-- The row of a memory read answers it: a fetch row holds all the bits of its address (R115,
R116). -/
theorem exec_decodeMemRead (hfault : s.faulted = none) (a : Addr) (phase : Phase) :
    exec (decodeMemRead a phase) s = .next (answer s (.mr a phase)) := by
  cases phase with
  | data => exact live_none hfault
  | m1 =>
    simp only [decodeMemRead]
    split
    next hhigh =>
      refine (live_none hfault).trans ?_
      rw [mirrorAddr_fields hhigh, answer]
    next hlow =>
      refine (live_none hfault).trans ?_
      rw [directAddr_fields (Bool.eq_false_iff.mpr hlow), answer]

/-- Settles O43: the answer of each transaction's row, format by format; an answer raises no fault.
-/
theorem everyCpuTransactionIsAnswered : Obligations.EveryCpuTransactionIsAnswered := by
  intro s x hfault
  refine ⟨?_, (answer_answered x s).faulted.trans hfault⟩
  cases x with
  | pr a => exact exec_decodePortRead hfault a
  | pw a d => exact exec_decodePortWrite hfault a d
  | mr a phase => exact exec_decodeMemRead hfault a phase
  | id r => exact exec_decodeInstrDone hfault r
  | mw | ip => exact live_none hfault

/-! ### The byte of a read -/

/-- A data read's byte by its address (R55). -/
theorem memByte_data (hadmitted : s.cfg.admitted = true) (a : Addr) :
    memByte a .data s = if a.toNat < 0x2000 then romByte s a.toNat
      else if a.toNat < 0x6000 then ramByte s (a.toNat - 0x2000) else Config.unusedFill := by
  rw [memByte_admitted hadmitted, normalise_data]

/-- An opcode fetch below 0x8000 reads as a data read does (R49). -/
theorem memByte_fetch_low {a : Addr} (h : a.toNat < 0x8000) :
    memByte a .m1 s = memByte a .data s :=
  memByte_congr s ((normalise_fetch_low h).trans (normalise_data a).symm)

/-- An opcode fetch from 0x8000 on reads ROM and the first 0x2000 bytes of RAM (R49, R55). -/
theorem memByte_fetch_high (hadmitted : s.cfg.admitted = true) {a : Addr} (h : 0x8000 ≤ a.toNat) :
    memByte a .m1 s = if a.toNat % 0x4000 < 0x2000 then romByte s (a.toNat % 0x4000)
      else ramByte s (a.toNat % 0x4000 - 0x2000) := by
  rw [memByte_admitted hadmitted, normalise_fetch_high h,
    if_pos (show a.toNat % 0x4000 < 0x6000 by omega)]

/-- Settles O9: below 0x8000 a fetch reads as a data read does, and above it each quarter of the
upper half is the first or the second half of what is left of the address. -/
theorem effectiveViewOfReads : Obligations.EffectiveViewOfReads := by
  intro s a hadmitted
  refine ⟨memByte_data hadmitted a, ?_⟩
  by_cases hlow : a.toNat < 0x8000
  · rw [memByte_fetch_low hlow, memByte_data hadmitted, if_pos hlow]
    rfl
  · have ha : a.toNat < 0x10000 := a.isLt
    rw [memByte_fetch_high hadmitted (Nat.le_of_not_lt hlow)]
    obtain ⟨hq, hmod⟩ | ⟨hq, hmod⟩ | ⟨hq, hmod⟩ | ⟨hq, hmod⟩ :
        (a.toNat < 0xA000 ∧ a.toNat % 0x4000 = a.toNat - 0x8000) ∨
        ((0xA000 ≤ a.toNat ∧ a.toNat < 0xC000) ∧ a.toNat % 0x4000 = a.toNat - 0x8000) ∨
        ((0xC000 ≤ a.toNat ∧ a.toNat < 0xE000) ∧ a.toNat % 0x4000 = a.toNat - 0xC000) ∨
        (0xE000 ≤ a.toNat ∧ a.toNat % 0x4000 = a.toNat - 0xC000) := by omega
    all_goals simp (disch := omega) only [hmod, if_pos, if_neg, Nat.sub_sub, Nat.reduceAdd]

/-- Settles O10: each read is its reply, and a fetch's address and the data address of its row's
bits are normalised alike. -/
theorem readsAndFetchesReturnTheByte : Obligations.ReadsAndFetchesReturnTheByte := by
  intro s hfault
  refine ⟨fun a => live_none hfault, fun a => ?_, fun bit14 a => ?_⟩
  · have hbyte := memByte_congr s
      ((normalise_directAddr a).trans (normalise_data (a.setWidth 16)).symm)
    rw [← hbyte]
    exact live_none hfault
  · have hbyte := memByte_congr s
      ((normalise_mirrorAddr bit14 a).trans (normalise_data (a.setWidth 16)).symm)
    rw [← hbyte]
    exact live_none hfault

/-- A store to RAM changes the byte of its own address only, as a read of either phase sees it
(R63). -/
theorem memByte_ramPut (hadmitted : s.cfg.admitted = true) {a : Addr} (hlow : 0x2000 ≤ a.toNat)
    (hhigh : a.toNat < 0x6000) (d : Byte) (b : Addr) (phase : Phase) :
    memByte b phase (ramPut (a.toNat - 0x2000) d s)
      = if normalise b phase = a then d else memByte b phase s := by
  have hbase : ramBase = 0x2000 := rfl
  have hkept : (ramPut (a.toNat - 0x2000) d s).cfg.admitted = true := by
    rw [ramPut_cfg, hadmitted]
  rw [memByte_admitted hkept, memByte_admitted hadmitted, romByte_ramPut,
    ramByte_ramPut]
  by_cases hb : normalise b phase = a
  · rw [hb, if_neg (by omega), if_pos hhigh, if_pos rfl, if_pos rfl]
  · have hne : (normalise b phase).toNat ≠ a.toNat := mt BitVec.eq_of_toNat_eq hb
    rw [if_neg hb]
    split
    · rw [if_neg (by omega)]
    split
    · rw [if_neg (by omega)]
    · rfl

/-- Settles O12: a store to RAM shows in the reads that resolve to its address, and a discarded one
nowhere. -/
theorem storeSeenAtOnceByReadsAndFetches : Obligations.StoreSeenAtOnceByReadsAndFetches := by
  intro s t a d hadmitted h b phase
  obtain ⟨-, rfl⟩ := live_next_eq h
  by_cases hram : 0x2000 ≤ a.toNat ∧ a.toNat < 0x6000
  · rw [memStore_admitted hadmitted, if_pos hram, memByte_ramPut hadmitted hram.1 hram.2]
    exact if_congr (by simp [hram]) rfl rfl
  · rw [memStore_outside_ram hadmitted (by omega), if_neg fun h => hram ⟨h.1, h.2.1⟩]

/-! ### The NMI flag -/

/-- A memory write leaves the NMI flag. -/
@[simp] theorem memStore_nmiEnabled (a : Addr) (d : Byte) (s : State) :
    (memStore a d s).nmiEnabled = s.nmiEnabled := by
  obtain h | ⟨off, -, h⟩ := memStore_cases a d s
  · rw [h]
  · rw [h, ramPut_nmiEnabled]

/-- INSTR_DONE leaves the NMI flag. -/
@[simp] theorem instrDone_nmiEnabled (r : Byte) (s : State) :
    (instrDone r s).nmiEnabled = s.nmiEnabled := by
  unfold instrDone
  split <;> rfl

/-- An even-port read leaves the NMI flag (R124). -/
@[simp] theorem portReadEven_nmiEnabled (row : Byte) (s : State) :
    (portReadEven row s).nmiEnabled = s.nmiEnabled := by
  rw [portReadEven_eq]

/-- The loader's write leaves the NMI flag. -/
@[simp] theorem loadByte_nmiEnabled (region : LoadRegion) (off : Nat) (v : Byte) (s : State) :
    (loadByte region off v s).nmiEnabled = s.nmiEnabled := by
  obtain h | ⟨m, h⟩ := loadByte_cases region off v s
  · rw [h, raise_nmiEnabled]
  · rw [h]

/-- The NMI flag after an operation is that of its effect. -/
theorem live_nmiEnabled {u : State} {b : Bool} (h : live s (.next u) = .next t)
    (hu : u.nmiEnabled = b) : t.nmiEnabled = b := by
  obtain ⟨-, rfl⟩ := live_next_eq h
  exact hu

/-- A host input leaves the NMI flag if its effect does: so does the fault in a frame. -/
theorem betweenFrames_nmiEnabled {u : State} {code : FaultCode}
    (h : betweenFrames s code u = .next t) (hu : u.nmiEnabled = s.nmiEnabled) :
    t.nmiEnabled = s.nmiEnabled := by
  refine live_nmiEnabled h ?_
  split
  · rfl
  · exact hu

/-- Settles O7: the three port writes by their port number, POWER_RAISE by whether it faults, and
every other operation's effect leaves the flag. -/
theorem nmiFlagWrittenOnlyByItsPortsAndReset :
    Obligations.NmiFlagWrittenOnlyByItsPortsAndReset := by
  intro i s t hcpu hwf h
  cases i with
  | portWriteNmiOff high d => exact live_nmiEnabled h (nmiAfterWrite_off _ _)
  | portWriteNmiOn high d => exact live_nmiEnabled h (nmiAfterWrite_on (of_decide_eq_true hwf) _)
  | portWriteOther high port d =>
    obtain ⟨hoff, hon⟩ := of_decide_eq_true hwf
    exact live_nmiEnabled h (nmiAfterWrite_other hoff hon _)
  | powerRaise =>
    obtain ⟨-, rfl⟩ := betweenFrames_next h
    cases hframe : s.inFrame with
    | false => rfl
    | true => simp
  | portReadEven row => exact live_nmiEnabled h (portReadEven_nmiEnabled row s)
  | memWrite a d => exact live_nmiEnabled h (memStore_nmiEnabled a d s)
  | instrDoneInt | instrDoneNoint => exact live_nmiEnabled h (instrDone_nmiEnabled _ s)
  | portReadOdd | memFetchDirect | memFetchMirror | memRead | instrPre | nmiPulse | publish =>
    exact live_nmiEnabled h rfl
  | powerLower | keyDown | keyUp | setEar => exact betweenFrames_nmiEnabled h rfl
  | snapshotWrite region off v =>
    exact betweenFrames_nmiEnabled h (loadByte_nmiEnabled region off v s)
  | frame | renderLineRetrace | renderLineUpper | renderLineActive | renderLineLower
  | renderLineTrailing | pixel | lineTail | tick | proceed => cases hcpu

end Sys2Proof.Machine

/-! The reset state: what POWER_RAISE makes of the constructed block and of itself (R135, R160), its
values (R20) and the invariant there; with them the standard row selects (R71) and written
transactions (R66 to R72). -/

namespace Sys2Proof.Machine

variable {s t : State}

/-! ### The power operations -/

/-- POWER_RAISE between frames that gives a next state gives its writes. -/
theorem exec_powerRaise_next (hframe : s.inFrame = false) (h : exec .powerRaise s = .next t) :
    s.faulted = none ∧ t = powerRaise s := by
  obtain ⟨hfault, rfl⟩ := betweenFrames_next h
  exact ⟨hfault, if_neg (ne_true_of_eq_false hframe)⟩

/-- POWER_LOWER between frames that gives a next state clears `Powered`. -/
theorem exec_powerLower_next (hframe : s.inFrame = false) (h : exec .powerLower s = .next t) :
    s.faulted = none ∧ t = { s with powered := false } := by
  obtain ⟨hfault, rfl⟩ := betweenFrames_next h
  exact ⟨hfault, if_neg (ne_true_of_eq_false hframe)⟩

/-- Settles O37: the writes of either operation leave the block outside a frame and unfaulted, and
made twice are the writes made once. -/
theorem powerOperationsAreIdempotent : Obligations.PowerOperationsAreIdempotent := by
  intro s t hframe
  refine ⟨fun h => ?_, fun h => ?_⟩
  · obtain ⟨hfault, rfl⟩ := exec_powerRaise_next hframe h
    exact betweenFrames_outside (s := powerRaise s) hfault hframe
  · obtain ⟨hfault, rfl⟩ := exec_powerLower_next hframe h
    exact betweenFrames_outside (s := { s with powered := false }) hfault hframe

/-- POWER_RAISE overwrites, or finds empty, all that an admitted construction leaves open (R160). -/
theorem powerRaise_construct {c : Config} (hadmitted : c.admitted = true) (u : State) :
    powerRaise (construct c u) = State.resetOf c := by
  have hfault : (construct c u).faulted = none := by
    rw [construct_faulted, firstBroken_of_admitted hadmitted, Option.map_none]
  rw [powerRaise, hfault]
  rfl

/-- Settles O44: the constructed block is unfaulted and outside a frame, so that POWER_RAISE has its
effect. -/
theorem constructionThenPowerRaiseIsReset : Obligations.ConstructionThenPowerRaiseIsReset := by
  refine ⟨fun c u hadmitted => ?_, rfl⟩
  have hfault : (construct c u).faulted = none := by
    rw [construct_faulted, firstBroken_of_admitted hadmitted, Option.map_none]
  rw [← powerRaise_construct hadmitted u]
  exact betweenFrames_outside hfault rfl

/-! ### The values after reset -/

/-- Settles O45: the fields by definition, memory and framebuffer by what is not listed. -/
theorem resetValues : Obligations.ResetValues :=
  ⟨rfl, rfl, rfl, rfl, rfl, rfl, rfl, rfl, rfl, rfl, rfl, rfl, rfl, rfl, rfl, fun _ => rfl,
    fun _ => romImage_eq_unlisted ref_admitted, fun _ => unlisted_ram ref_admitted⟩

/-- Settles O51: the counters are at rest, and nothing is listed, pressed, published or emitted. -/
theorem invariantHoldsAtReset : Obligations.InvariantHoldsAtReset where
  admitted := ref_admitted
  tickRest := Nat.zero_le _
  budgetLow := by decide
  budgetHigh := le_rfl
  nextLine := Nat.zero_le _
  mem := reset_mem_wf
  fb := rfl
  published := fun _ h => by cases h
  pressed := rfl
  trace := fun _ h => by cases h

/-! ### The row selects and written transactions -/

/-- The standard table holds the eight row selects and no other (R71, R129). -/
theorem keyRow_standard_isSome_iff {c : Config} (h : c.keyRows = Config.keyRowsStandard)
    (row : Byte) : (keyRow c row).isSome = true ↔
      row ∈ [0xFE#8, 0xFD#8, 0xFB#8, 0xF7#8, 0xEF#8, 0xDF#8, 0xBF#8, 0x7F#8] := by
  rw [keyRow, h, List.lookup_isSome_iff]
  simp [Config.keyRowsStandard]

/-- Settles O4: a row select that the standard table does not hold is an unmapped row. -/
theorem onlyEightRowSelectsAreMapped : Obligations.OnlyEightRowSelectsAreMapped := by
  intro s row h
  have hmapped := keyRow_standard_isSome_iff h row
  refine ⟨hmapped, fun hout => keyColumns_of_unmapped ?_, ?_⟩
  · exact Option.not_isSome_iff_eq_none.mp (mt hmapped.mp hout)
  · rw [keyRow, h]
    rfl

/-- Settles O48: the decoder evaluated on the written transactions. -/
theorem writtenTransactionsDecode : Obligations.WrittenTransactionsDecode :=
  ⟨rfl, rfl, rfl, rfl, rfl, rfl, rfl, rfl, rfl, rfl, rfl, rfl, rfl, rfl⟩

end Sys2Proof.Machine

/-! The clock over sequences of calls (R98, R101), PROCEED as an equation of states (R97, R99, R100)
and the ticks of a line (R92), with the five obligations about them. -/

namespace Sys2Proof.Machine

variable {s t : State}

/-! ### TICK calls in sequence -/

/-- A list of TICK calls ticks the sum of its ticks, as one call would (R101). -/
theorem foldl_tick_ticked (ns : List Nat) (s : State) :
    Ticked ns.sum s (ns.foldl (fun u n => tick n u) s) := by
  induction ns generalizing s with
  | nil => exact .refl s
  | cons n ns ih =>
    rw [List.sum_cons, List.foldl_cons]
    exact (tick_ticked n s).trans (ih (tick n s))

/-- The ticks of a stretch from a rest of at most one: the odd tick is kept, the rest is requested
as whole cycles. -/
theorem Ticked.halves {n : Nat} (h : Ticked n s t) (hrest : s.t ≤ 1) :
    t.t = (s.t + n) % 2 ∧ t.frameCycles = s.frameCycles + (s.t + n) / 2 := by
  have hticks := h.ticks
  have hend := h.rest hrest
  omega

/-- Settles O17: the sequence as one stretch of ticks, whose requests are the cycles counted. -/
theorem halvingLaw : Obligations.HalvingLaw := by
  intro s ns hrest
  have hall := foldl_tick_ticked ns s
  obtain ⟨ht, hcycles⟩ := hall.halves hrest
  have hasked := hall.asked
  exact ⟨ht, by omega⟩

/-! ### PROCEED -/

/-- Settles O19: the bound of the premise leaves room for an instruction of one cycle, so that the
engine's contract bounds the excess. -/
theorem budgetStaysInItsBound : Obligations.BudgetStaysInItsBound := by
  intro s t n h hlow hhigh
  obtain ⟨-, rfl⟩ := live_next_eq h
  exact proceed_budget (by omega) hlow

/-- Where the overdraft is not used up PROCEED is its request only (R97). -/
theorem proceed_of_overdraft {n : Nat} (h : s.budget + (n : Int) ≤ 0) :
    proceed n s = requestCycles n s := by
  have hnone : ¬0 < (requestCycles n s).budget := by rw [requestCycles_budget]; omega
  rw [proceed, spendBudget, if_neg hnone]

/-- Where the budget is positive PROCEED is one run that takes the first instructions whose cycles
reach the budget, answers their transactions in order and carries the excess, which the engine's
contract bounds (R97, R99, R100). -/
theorem proceed_of_positive {n b : Nat} (hb : s.budget + (n : Int) = (b : Int)) (hpos : 1 ≤ b)
    (hM : 1 ≤ s.cfg.maxOverrun) : ∃ k e, 1 ≤ k ∧ e = totalCycles s.cfg (upcoming s k) ∧
      totalCycles s.cfg (upcoming s (k - 1)) < b ∧ b ≤ e ∧ e < b + s.cfg.maxOverrun ∧
      proceed n s = endRun b e
        (answerAll (txnsOf (upcoming s k)) (afterTaking k (requestCycles n s))) := by
  obtain ⟨k, hk, hless, hrun⟩ := cpuRun_taken (requestCycles n s) hpos
  obtain ⟨henough, hover⟩ := cpuRun_cycles (s := requestCycles n s) hM hpos
  rw [hrun] at henough hover
  have hpositive : 0 < (requestCycles n s).budget := by rw [requestCycles_budget]; omega
  have hbudget : (requestCycles n s).budget.toNat = b := by rw [requestCycles_budget]; omega
  refine ⟨k, _, hk, rfl, hless, henough, hover, ?_⟩
  simp only [proceed, spendBudget, if_pos hpositive, hbudget, hrun]
  rfl

/-- Settles O18: the overdraft by its equation; a run by its own, with its frame from what a PROCEED
can do and its events from what answers can emit. -/
theorem proceedRunsTheCpuOnItsBudget : Obligations.ProceedRunsTheCpuOnItsBudget := by
  intro s n hfault
  have hexec : exec (.proceed n) s = .next (proceed n s) := live_none hfault
  refine ⟨fun h => ?_, fun hpos hM => ?_⟩
  · rw [hexec, proceed_of_overdraft h]
    rfl
  · obtain ⟨b, hb⟩ := Int.eq_ofNat_of_zero_le hpos.le
    have hnat : (s.budget + (n : Int)).toNat = b := by rw [hb, Int.toNat_natCast]
    obtain ⟨k, e, hk, he, hless, henough, hover, hrun⟩ := proceed_of_positive hb (by omega) hM
    obtain ⟨es, htrace, hevents⟩ :=
      (answerAll_answered (txnsOf (upcoming s k)) (afterTaking k (requestCycles n s))).events
    have hp := proceed_proceeded n s
    rw [hnat]
    refine ⟨proceed n s, e, hexec, by omega, by omega, ?_, hp.frameCycles, hp.t, hp.fb, hp.nextLine,
      hp.toCpuFrame, ⟨es, hevents, ?_⟩, k, _, hk, by omega, he, rfl, ?_⟩
    · rw [hrun, endRun_budget, hb]
    · rw [hrun, endRun_trace, htrace]
      rfl
    · rw [hrun, endRun, ← hb]
      rfl

/-! ### The ticks of a line -/

/-- A line that is not trailing ticks a line-width and the horizontal retrace (R92). -/
theorem lineTicks_eq (c : Config) (y : Nat) : lineTicks c y
    = (if bandOf c y = .trailing then 0 else rasterWidth c) + c.hretraceTicks := by
  rw [lineTicks, bandTicks_eq]
  cases bandOf c y <;> rfl

/-- RENDER_LINE in its order advances NextLine by one (R81). -/
theorem renderLine_nextLine {y : Nat} (hf : s.inFrame = true) (hy : y = s.nextLine)
    (ht : y < s.cfg.totalHeight) : (renderLine y s).nextLine = y + 1 := by
  rw [renderLine_inOrder hf hy ht, setNextLine_nextLine]

/-- Settles O25: the ticks of the line in its order, from a rest of at most one. -/
theorem lineAddsItsTicks : Obligations.LineAddsItsTicks := by
  intro s y hfault hf hy ht hrest
  have hline := renderLine_ticked hf hy ht
  obtain ⟨hticks, hcycles⟩ := hline.halves hrest
  rw [← lineTicks_eq]
  exact ⟨renderLine y s, exec_decodeRenderLine y hfault, renderLine_nextLine hf hy ht, hticks,
    hcycles, hline.toCpuFrame⟩

/-- A RENDER_LINE row that gives a next state is the row of the line's band (R79). -/
theorem renderLineAs_band {b : Band} {y : Nat} (h : renderLineAs b y s = .next t) :
    bandOf s.cfg y = b := by
  obtain ⟨-, hk⟩ := live_next h
  by_contra hb
  rw [if_neg hb] at hk
  cases hk

/-- A line writes no pixel if its band part does not. -/
theorem renderLineAs_fb {b : Band} {y : Nat} (hb : (bandPart b s).fb = s.fb)
    (h : renderLineAs b y s = .next t) : t.fb = s.fb := by
  rw [renderLineAs_next h]
  by_cases hout : s.inFrame = false ∨ y ≠ s.nextLine ∨ s.cfg.totalHeight ≤ y
  · rw [renderLine_outOfOrder hout, raise_fb]
  · rw [renderLine, if_neg hout, renderLineAs_band h, setNextLine_fb, lineTail_fb, hb]

/-- Settles O26: the band part of a retrace line is ticks, and a trailing line has none. -/
theorem retraceAndTrailingLinesDrawNothing : Obligations.RetraceAndTrailingLinesDrawNothing :=
  fun s _ _ => ⟨renderLineAs_fb (tick_fb (rasterWidth s.cfg) s), renderLineAs_fb rfl⟩

end Sys2Proof.Machine

/-! Invariants over a stretch of ticks, and the border colour as one while nothing writes it; with
the two obligations about the rows that border and active lines draw (R85 to R87). -/

namespace Sys2Proof.Machine

variable {s t : State}

/-! ### Invariants of the band part -/

/-- A property of a state and the ticks still to come, kept by ticking and blind to the
framebuffer. -/
structure TickInv (I : Nat → State → Prop) : Prop where
  tick : ∀ {n m : Nat} {s : State}, I (n + m) s → I m (tick n s)
  fbPut : ∀ {n : Nat} {s : State} (i : Nat) (v : Colour), I n s → I n (fbPut i v s)

variable {I : Nat → State → Prop}

theorem TickInv.drawSegment (hI : TickInv I) (src : Source) {n m : Nat} (x0 : Nat)
    (h : I (n + m) s) : I m (drawSegment src x0 n s) := by
  induction n generalizing x0 s with
  | zero => rwa [Nat.zero_add] at h
  | succ n ih =>
    rw [Nat.add_comm n 1, Nat.add_assoc] at h
    exact ih (x0 + 1) (hI.tick (hI.fbPut _ _ h))

theorem TickInv.activeLine (hI : TickInv I) {m : Nat} (h : I (rasterWidth s.cfg + m) s) :
    I m (activeLine s) := by
  simp only [rasterWidth, Nat.add_assoc] at h
  exact hI.drawSegment _ _ (hI.drawSegment _ _ (hI.drawSegment _ _ h))

theorem TickInv.bandPart (hI : TickInv I) (b : Band) {m : Nat} (h : I (ticksOf s.cfg b + m) s) :
    I m (bandPart b s) := by
  cases b with
  | retrace => exact hI.tick h
  | upper | lower => exact hI.drawSegment _ _ h
  | active => exact hI.activeLine h
  | trailing => rwa [ticksOf, Nat.zero_add] at h

/-! ### CPU instructions that write no port -/

theorem noPortWrite_iff (i : CpuInstr) :
    noPortWrite i = true ↔ ∀ x ∈ i.txns, ∀ a d, x ≠ .pw a d := by
  rw [noPortWrite, List.all_eq_true]
  refine forall₂_congr fun x _ => ?_
  cases x <;> simp

/-- Only a port write changes the NMI flag and the border colour (R105, R125). -/
theorem answer_of_not_write {x : CpuTxn} (h : ∀ a d, x ≠ .pw a d) (s : State) :
    (answer s x).nmiEnabled = s.nmiEnabled ∧ (answer s x).borderColor = s.borderColor := by
  cases x with
  | pw a d => exact absurd rfl (h a d)
  | pr a =>
    simp only [answer]
    split
    · exact ⟨rfl, rfl⟩
    · rw [portReadEven_eq]; exact ⟨rfl, rfl⟩
  | mw a d =>
    obtain hd | ⟨off, -, hs⟩ := memStore_cases a d s
    · rw [answer, hd]; exact ⟨rfl, rfl⟩
    · rw [answer, hs]; exact ⟨rfl, rfl⟩
  | id r => simp only [answer, instrDone]; split <;> exact ⟨rfl, rfl⟩
  | mr | ip => exact ⟨rfl, rfl⟩

/-- CPU instructions that write no port leave the border colour. -/
theorem quiet_borderColor (nmi : Bool) :
    Quiet (fun i => noPortWrite i = true) nmi State.borderColor := by
  intro i hi x hx s hnmi
  obtain ⟨hn, hb⟩ := answer_of_not_write ((noPortWrite_iff i).mp hi x hx) s
  exact ⟨hn.trans hnmi, hb⟩

theorem blind_borderColor : Blind State.borderColor :=
  ⟨fun _ _ => rfl, fun _ _ => rfl, fun _ _ _ _ => rfl⟩

/-! ### The border colour over a stretch of ticks -/

/-- For `n` ticks to come nothing writes the border colour `col`: the overdraft lets no CPU run
happen, or the CPU runs listed instructions that are enough and write no port. -/
structure BorderKept (col : Colour) (n : Nat) (s : State) : Prop where
  colour : s.borderColor = col
  quiet : s.budget + ((s.t + n) / 2 : Nat) ≤ 0 ∨ Script (fun i => noPortWrite i = true) n s

/-- An overdraft that outlasts the ticks: TICK runs no CPU. -/
theorem tick_of_overdraft {n m : Nat} (h : s.budget + ((s.t + (n + m)) / 2 : Nat) ≤ 0) :
    (tick n s).borderColor = s.borderColor ∧
      (tick n s).budget + (((tick n s).t + m) / 2 : Nat) ≤ 0 := by
  obtain ⟨-, ht⟩ | ⟨-, ht⟩ := tick_cases n s
  · rw [ht, addTicks_borderColor, addTicks_budget, addTicks_t]
    exact ⟨rfl, by omega⟩
  · rw [ht, proceed_of_overdraft (by rw [addTicks_budget]; omega)]
    simp only [requestCycles_borderColor, requestCycles_budget, addTicks_borderColor,
      addTicks_budget, true_and]
    omega

theorem borderKept_tickInv (col : Colour) : TickInv (BorderKept col) where
  fbPut _ _ h := ⟨h.colour, h.quiet.imp_right fun hs => ⟨hs.listed, hs.enough⟩⟩
  tick {n m s} h := by
    obtain hover | hscript := h.quiet
    · obtain ⟨hcol, hrest⟩ := tick_of_overdraft hover
      exact ⟨hcol.trans h.colour, .inl hrest⟩
    · obtain ⟨hrest, -, hcol⟩ := quiet_tick (quiet_borderColor s.nmiEnabled) blind_borderColor
        hscript rfl
      exact ⟨hcol.trans h.colour, .inr hrest⟩

/-- A border segment takes the border colour in every column, while nothing writes that colour. -/
theorem drawSegment_border_fbCell {col : Colour} {n m x0 x : Nat} (h : BorderKept col (n + m) s)
    (hlow : x0 ≤ x) (hhigh : x < x0 + n) :
    fbCell (drawSegment .border x0 n s) (cellIndex s.cfg s.nextLine x) = col := by
  obtain ⟨i, rfl⟩ := Nat.exists_eq_add_of_le hlow
  obtain ⟨k, rfl⟩ := Nat.exists_eq_add_of_lt (Nat.add_lt_add_iff_left.mp hhigh)
  rw [drawSegment_fbCell .border _ x0 i s (by omega)]
  rw [Nat.add_assoc, Nat.add_assoc] at h
  exact ((borderKept_tickInv col).drawSegment .border x0 h).colour

/-! ### The row of a line -/

@[simp] theorem drawSegment_cfg (src : Source) (x0 n : Nat) (s : State) :
    (drawSegment src x0 n s).cfg = s.cfg := (drawSegment_ticked src n x0 s).cfg

/-- Columns of a line have cells of their own. -/
@[simp] theorem cellIndex_inj (c : Config) (y x x' : Nat) :
    cellIndex c y x = cellIndex c y x' ↔ x = x' := by
  simp [cellIndex]

theorem segmentOf_eq_video_iff (c : Config) (x : Nat) :
    segmentOf c x = .video ↔ c.leftBorderPx ≤ x ∧ x < c.leftBorderPx + c.activePx := by
  unfold segmentOf
  split
  · simp; omega
  split
  · simp; omega
  · simp; omega

/-- A line in its order draws its band part (R81). -/
theorem renderLine_fbCell {y : Nat} (hf : s.inFrame = true) (hy : y = s.nextLine)
    (ht : y < s.cfg.totalHeight) (i : Nat) :
    fbCell (renderLine y s) i = fbCell (bandPart (bandOf s.cfg y) s) i := by
  rw [renderLine_inOrder hf hy ht, fbCell, fbCell, setNextLine_fb, lineTail_fb]

/-- A border line writes no cell outside its row. -/
theorem borderLine_fbCell_outside {i : Nat}
    (h : ∀ x, x < rasterWidth s.cfg → i ≠ cellIndex s.cfg s.nextLine x) :
    fbCell (borderLine s) i = fbCell s i :=
  drawSegment_fbCell_outside _ _ _ _ _ fun x _ hx => h x (by omega)

/-- An active line writes no cell outside its row. -/
theorem activeLine_fbCell_outside {i : Nat}
    (h : ∀ x, x < rasterWidth s.cfg → i ≠ cellIndex s.cfg s.nextLine x) :
    fbCell (activeLine s) i = fbCell s i := by
  simp only [rasterWidth] at h
  simp only [activeLine]
  rw [drawSegment_fbCell_outside, drawSegment_fbCell_outside, drawSegment_fbCell_outside]
  all_goals
    intro x _ hx
    simpa only [drawSegment_cfg, drawSegment_nextLine] using h x (by omega)

/-- An active line takes the fixed fill in the columns of its video segment (R86). -/
theorem activeLine_fbCell_video {x : Nat} (hlow : s.cfg.leftBorderPx ≤ x)
    (hhigh : x < s.cfg.leftBorderPx + s.cfg.activePx) :
    fbCell (activeLine s) (cellIndex s.cfg s.nextLine x) = BitVec.ofNat 3 s.cfg.activeFill := by
  simp only [activeLine]
  rw [drawSegment_fbCell_outside _ _ _ _ _ fun x' hx' _ => by simp; omega]
  simpa using drawSegment_fill_fbCell s.cfg.activePx s.cfg.leftBorderPx
    (drawSegment .border 0 s.cfg.leftBorderPx s) x hlow hhigh

/-- An active line takes the border colour in the columns beside its video segment, while nothing
writes that colour (R86). -/
theorem activeLine_fbCell_border {col : Colour} (h : BorderKept col (rasterWidth s.cfg) s) {x : Nat}
    (hx : x < rasterWidth s.cfg)
    (hbeside : x < s.cfg.leftBorderPx ∨ s.cfg.leftBorderPx + s.cfg.activePx ≤ x) :
    fbCell (activeLine s) (cellIndex s.cfg s.nextLine x) = col := by
  simp only [rasterWidth, Nat.add_assoc] at h hx
  have hI := borderKept_tickInv col
  simp only [activeLine]
  obtain hleft | hright := hbeside
  · rw [drawSegment_fbCell_outside _ _ _ _ _ fun x' hx' _ => by simp; omega,
      drawSegment_fbCell_outside _ _ _ _ _ fun x' hx' _ => by simp; omega]
    exact drawSegment_border_fbCell h (Nat.zero_le x) (by omega)
  · have hvideo := hI.drawSegment .fill s.cfg.leftBorderPx (hI.drawSegment .border 0 h)
    simpa using drawSegment_border_fbCell (n := s.cfg.rightBorderPx) (m := 0) hvideo hright
      (by omega)

/-- Settles O27: both border bands are one border segment, drawn in the line's own row. -/
theorem borderLineFillsItsRow : Obligations.BorderLineFillsItsRow := by
  intro s y hfault hf hy ht hband
  have hpart : bandPart (bandOf s.cfg y) s = borderLine s := by
    obtain hb | hb := hband <;> rw [hb] <;> rfl
  refine ⟨renderLine y s, exec_decodeRenderLine y hfault, fun i hi => ?_, fun hquiet x hx => ?_⟩
  · rw [renderLine_fbCell hf hy ht, hpart]
    exact borderLine_fbCell_outside (hy ▸ hi)
  · have hkept : BorderKept s.borderColor (rasterWidth s.cfg + 0) s :=
      ⟨rfl, hquiet.imp_right fun h => ⟨h.2, h.1⟩⟩
    rw [renderLine_fbCell hf hy ht, hpart, hy]
    exact drawSegment_border_fbCell hkept (Nat.zero_le x) (by omega)

/-- Settles O28: the three segments of the line, drawn in its own row. -/
theorem activeLineFillsItsVideoSegment : Obligations.ActiveLineFillsItsVideoSegment := by
  intro s y hfault hf hy ht hband
  have hcell (i : Nat) : fbCell (renderLine y s) i = fbCell (activeLine s) i := by
    rw [renderLine_fbCell hf hy ht, hband]
    rfl
  refine ⟨renderLine y s, renderLineAs_of_band hfault hband, fun i hi => ?_, fun x _ hvideo => ?_,
    fun hquiet x hx hbeside => ?_⟩
  · rw [hcell, activeLine_fbCell_outside (hy ▸ hi)]
  · obtain ⟨hlow, hhigh⟩ := (segmentOf_eq_video_iff s.cfg x).mp hvideo
    rw [hcell, hy, activeLine_fbCell_video hlow hhigh]
  · rw [ne_eq, segmentOf_eq_video_iff] at hbeside
    have hkept : BorderKept s.borderColor (rasterWidth s.cfg) s :=
      ⟨rfl, hquiet.imp_right fun h => ⟨h.2, h.1⟩⟩
    rw [hcell, hy, activeLine_fbCell_border hkept hx (by omega)]

end Sys2Proof.Machine

/-! A completed frame (R80, R90, R102), and invariants over its lines: the budget's bound (R139),
the line counter (R94) and the pulses (R113); with the five obligations about them. -/

namespace Sys2Proof.Machine

variable {s t : State}

/-! ### A completed frame -/

/-- The state in which all lines of a frame are done. -/
def frameLines (s : State) : State := renderLines s.cfg.totalHeight 0 (beginFrame s)

/-- FRAME of an unfaulted, powered block between frames is its lines, PUBLISH and the end (R80). -/
theorem exec_frame_idle (hfault : s.faulted = none) (hpower : s.powered = true)
    (hframe : s.inFrame = false) : exec .frame s = .next (endFrame (publish (frameLines s))) := by
  rw [exec_frame hfault, if_neg (ne_false_of_eq_true hpower), if_neg (ne_true_of_eq_false hframe),
    frameBody_eq hfault, frameLines]

/-- The lines of a frame of an unfaulted block run to the end (R80, R81). -/
theorem frameLines_done (hfault : s.faulted = none) :
    Ticked (linesTicks s.cfg 0 s.cfg.totalHeight) (beginFrame s) (frameLines s) ∧
      (frameLines s).nextLine = s.cfg.totalHeight := frameLines_run hfault

/-- The end of a frame keeps the ROM bytes. -/
@[simp] theorem romByte_endFrame_publish (s : State) (off : Nat) :
    romByte (endFrame (publish s)) off = romByte s off := rfl

/-- A block that admits every host operation: powered, unfaulted, between frames. -/
structure ReadyBlock (s : State) : Prop where
  admitted : s.cfg.admitted = true
  faulted : s.faulted = none
  powered : s.powered = true
  inFrame : s.inFrame = false

theorem CleanEntry.ready (h : CleanEntry s) : ReadyBlock s :=
  ⟨h.admitted, h.faulted, h.powered, h.inFrame⟩

theorem ReadyBlock.exec_frame (h : ReadyBlock s) :
    exec .frame s = .next (endFrame (publish (frameLines s))) :=
  exec_frame_idle h.faulted h.powered h.inFrame

/-- A frame keeps the block ready. -/
theorem ReadyBlock.frame (h : ReadyBlock s) : ReadyBlock (endFrame (publish (frameLines s))) := by
  obtain ⟨hlines, -⟩ := frameLines_done h.faulted
  constructor <;> simp only [endFrame_cfg, publish_cfg, endFrame_faulted, publish_faulted,
    endFrame_powered, publish_powered, endFrame_inFrame]
  case admitted => rw [hlines.cfg]; exact h.admitted
  case faulted => exact hlines.faulted.trans h.faulted
  case powered => exact hlines.powered.trans h.powered

/-- A frame from a clean entry that gives a next state ends in the state after its lines. -/
theorem CleanEntry.exec_frame_next (h : CleanEntry s) (hexec : exec .frame s = .next t) :
    t = endFrame (publish (frameLines s)) := by
  rw [h.ready.exec_frame] at hexec
  injection hexec with hnext
  exact hnext.symm

/-- What the lines of a frame from a clean entry can do: its ticks are those of R92. -/
theorem CleanEntry.frameLines_ticked (h : CleanEntry s) :
    Ticked (frameTicks s.cfg) (beginFrame s) (frameLines s) := by
  obtain ⟨hbands, -⟩ := admitted_clauses h.admitted
  rw [← linesTicks_frame hbands]
  exact (frameLines_done h.faulted).1

/-- Settles O30: the lines keep what no CPU run can change and end the frame's position; PUBLISH and
the end of the frame give the rest. -/
theorem frameCompletes : Obligations.FrameCompletes := by
  intro s hfault hpower hframe
  obtain ⟨hlines, hnext⟩ := frameLines_done hfault
  obtain ⟨es, hes⟩ := hlines.trace
  refine ⟨_, exec_frame_idle hfault hpower hframe, ?_⟩
  simp only [endFrame_inFrame, endFrame_nextLine, endFrame_faulted, endFrame_powered,
    endFrame_published, endFrame_fb, endFrame_trace, endFrame_cfg, endFrame_flash, endFrame_pressed,
    endFrame_inbox, publish_nextLine, publish_faulted, publish_powered, publish_published,
    publish_fb, publish_trace, publish_cfg, publish_flash, publish_pressed, publish_inbox,
    romByte_endFrame_publish, true_and]
  refine ⟨hnext, hlines.faulted.trans hfault, hlines.powered.trans hpower, ⟨es, ?_⟩, hlines.cfg,
    hlines.flash, hlines.pressed, hlines.inbox, hlines.rom⟩
  rw [← hes, beginFrame_trace]

/-- Settles O31: the ticks of the frame's lines, from a rest of at most one and no cycles counted.
-/
theorem frameRequestsItsCycles : Obligations.FrameRequestsItsCycles := by
  intro s h
  obtain ⟨ht, hcycles⟩ := h.frameLines_ticked.halves h.tickRest
  rw [beginFrame_frameCycles, beginFrame_t, Nat.zero_add] at hcycles
  refine ⟨_, h.ready.exec_frame, ?_, ?_⟩
  · rw [endFrame_frameCycles, publish_frameCycles, hcycles, frameTicks]
  · rw [endFrame_t, publish_t, ht, beginFrame_t, frameTicks]

/-! ### Invariants of the lines -/

/-- A property of a state, the lines done and the ticks still to come, that ticking, pixels and the
sequencer's own writes keep; the count of the tail is what makes a line done. -/
structure LineInv (I : Nat → Nat → State → Prop) : Prop where
  part : ∀ k, TickInv (I k)
  count : ∀ {k n : Nat} {s : State}, I k n s → I (k + 1) n (countLine (pulseIfEnabled s))
  setNextLine : ∀ {k n : Nat} {s : State} (y : Nat), I k n s → I k n (setNextLine y s)

variable {I : Nat → Nat → State → Prop}

theorem LineInv.renderLine (hI : LineInv I) {k m y : Nat} (hf : s.inFrame = true)
    (hy : y = s.nextLine) (ht : y < s.cfg.totalHeight) (h : I k (lineTicks s.cfg y + m) s) :
    I (k + 1) m (renderLine y s) := by
  rw [lineTicks, bandTicks_eq, Nat.add_assoc] at h
  have htail := hI.count ((hI.part k).bandPart _ h)
  rw [renderLine_inOrder hf hy ht, lineTail, bandPart_cfg]
  exact hI.setNextLine _ ((hI.part (k + 1)).tick htail)

theorem LineInv.renderLines (hI : LineInv I) (n : Nat) {k m y : Nat} (hf : s.inFrame = true)
    (hy : s.nextLine = y) (hfault : s.faulted = none) (ht : y + n ≤ s.cfg.totalHeight)
    (h : I k (linesTicks s.cfg y n + m) s) : I (k + n) m (renderLines n y s) := by
  induction n generalizing k y s with
  | zero => rwa [linesTicks, Nat.zero_add] at h
  | succ n ih =>
    rw [linesTicks, Nat.add_assoc] at h
    have hlast : y < s.cfg.totalHeight := by omega
    have hline := renderLine_ticked hf hy.symm hlast
    have hok : (Machine.renderLine y s).faulted = none := hline.faulted.trans hfault
    have hrest := ih (hline.inFrame.trans hf) (renderLine_nextLine hf hy.symm hlast) hok
      (by rw [hline.cfg]; omega) (hline.cfg.symm ▸ hI.renderLine hf hy.symm hlast h)
    rw [Nat.add_right_comm, Nat.add_assoc] at hrest
    simpa [Machine.renderLines, hok] using hrest

/-- An invariant of the lines that holds with a frame's ticks to come holds once its lines are
done. -/
theorem LineInv.frameLines (hI : LineInv I) (h : CleanEntry s)
    (hstart : I 0 (frameTicks s.cfg) (beginFrame s)) :
    I s.cfg.totalHeight 0 (frameLines s) := by
  obtain ⟨hbands, -⟩ := admitted_clauses h.admitted
  rw [← linesTicks_frame hbands] at hstart
  have hlines := hI.renderLines s.cfg.totalHeight (s := beginFrame s) (m := 0) rfl rfl h.faulted
    (by simp) hstart
  rwa [Nat.zero_add] at hlines

/-! ### The budget over a frame -/

/-- The budget's bound at rest (R98). -/
structure BudgetRest (s : State) : Prop where
  low : -(s.cfg.maxOverrun : Int) < s.budget
  high : s.budget ≤ 0

theorem tick_budgetRest (n : Nat) (h : BudgetRest s) : BudgetRest (tick n s) := by
  have hlow := h.low
  have hhigh := h.high
  obtain ⟨hl, hh⟩ := tick_budget (n := n) (by omega) hlow hhigh
  exact ⟨by rw [(tick_ticked n s).cfg]; exact hl, hh⟩

theorem budgetRest_lineInv : LineInv fun _ _ s => BudgetRest s where
  part _ := ⟨fun h => tick_budgetRest _ h, fun _ _ h => ⟨h.low, h.high⟩⟩
  count {_ _ s} h := by
    rw [pulseIfEnabled_eq]
    exact ⟨h.low, h.high⟩
  setNextLine _ h := ⟨h.low, h.high⟩

/-- POWER_RAISE between frames makes a clean entry under an admitted configuration. -/
theorem powerRaise_cleanEntry (hadmitted : s.cfg.admitted = true) (hframe : s.inFrame = false)
    (hfault : s.faulted = none) : CleanEntry (powerRaise s) where
  admitted := hadmitted
  faulted := hfault
  powered := rfl
  inFrame := hframe
  tickRest := Nat.zero_le _
  budgetLow := by
    obtain ⟨-, -, -, -, -, -, -, hM⟩ := admitted_clauses hadmitted
    rw [powerRaise_budget, powerRaise_cfg]
    omega
  budgetHigh := le_rfl

/-- A frame keeps the clean entry (R139). -/
theorem CleanEntry.frame (h : CleanEntry s) : CleanEntry (endFrame (publish (frameLines s))) := by
  have hlines := h.frameLines_ticked
  have hready := h.ready.frame
  have hbudget : BudgetRest (frameLines s) :=
    budgetRest_lineInv.frameLines h ⟨h.budgetLow, h.budgetHigh⟩
  refine ⟨hready.admitted, hready.faulted, hready.powered, hready.inFrame, ?_, ?_, ?_⟩
  · rw [endFrame_t, publish_t]
    exact hlines.rest h.tickRest
  · rw [endFrame_cfg, publish_cfg, endFrame_budget, publish_budget]
    exact hbudget.low
  · rw [endFrame_budget, publish_budget]
    exact hbudget.high

/-- Settles O40: the counters POWER_RAISE clears, and a frame by its lines. -/
theorem framesKeepTheCleanEntry : Obligations.FramesKeepTheCleanEntry := by
  refine ⟨fun s t hadmitted hframe h => ?_, fun s t hclean h => ?_⟩
  · obtain ⟨hfault, rfl⟩ := exec_powerRaise_next hframe h
    exact powerRaise_cleanEntry hadmitted hframe hfault
  · rw [hclean.exec_frame_next h]
    exact hclean.frame

/-! ### The line counter over a frame -/

theorem noPortReset_iff (i : CpuInstr) : noPortReset i = true ↔
    ∀ x ∈ i.txns, (∀ a d, x ≠ .pw a d) ∧ ∀ a, x = .pr a → a.getLsbD 0 = true := by
  rw [noPortReset, List.all_eq_true]
  refine forall₂_congr fun x _ => ?_
  cases x <;> simp

/-- Only a port write, and an even-port read while NMI is disabled, resets the line counter (R124,
R125). -/
theorem answer_lineCounter {x : CpuTxn} (hwrite : ∀ a d, x ≠ .pw a d)
    (hread : ∀ a, x = .pr a → a.getLsbD 0 = true ∨ s.nmiEnabled = true) :
    (answer s x).lineCounter = s.lineCounter := by
  cases x with
  | pw a d => exact absurd rfl (hwrite a d)
  | pr a =>
    simp only [answer]
    split
    next => rfl
    next heven => rw [portReadEven_eq, (hread a rfl).resolve_left heven]; rfl
  | mw a d =>
    obtain hd | ⟨off, -, hs⟩ := memStore_cases a d s
    · rw [answer, hd]
    · rw [answer, hs, ramPut_lineCounter]
  | id r => simp only [answer, instrDone]; split <;> rfl
  | mr | ip => rfl

/-- The CPU instruction resets no line counter while the NMI flag is `nmi`. -/
def KeepsLineCounter (nmi : Bool) (i : CpuInstr) : Prop :=
  noPortReset i = true ∨ (nmi = true ∧ noPortWrite i = true)

theorem quiet_lineCounter (nmi : Bool) :
    Quiet (KeepsLineCounter nmi) nmi State.lineCounter := by
  intro i hi x hx s hnmi
  obtain hreset | ⟨henabled, hwrite⟩ := hi
  · obtain ⟨hw, hr⟩ := (noPortReset_iff i).mp hreset x hx
    exact ⟨(answer_of_not_write hw s).1.trans hnmi,
      answer_lineCounter hw fun a ha => .inl (hr a ha)⟩
  · have hw := (noPortWrite_iff i).mp hwrite x hx
    exact ⟨(answer_of_not_write hw s).1.trans hnmi,
      answer_lineCounter hw fun _ _ => .inr (hnmi.trans henabled)⟩

theorem blind_lineCounter : Blind State.lineCounter :=
  ⟨fun _ _ => rfl, fun _ _ => rfl, fun _ _ _ _ => rfl⟩

/-- After `k` lines the counter stands at `start + k`, and the script for the ticks to come resets
it nowhere. -/
structure LinesCounted (nmi : Bool) (start : BitVec 16) (k n : Nat) (s : State) : Prop where
  flag : s.nmiEnabled = nmi
  script : Script (KeepsLineCounter nmi) n s
  counter : s.lineCounter = start + BitVec.ofNat 16 k

theorem linesCounted_lineInv (nmi : Bool) (start : BitVec 16) :
    LineInv (LinesCounted nmi start) where
  part k :=
    { fbPut := fun _ _ h => ⟨h.flag, ⟨h.script.listed, h.script.enough⟩, h.counter⟩
      tick := fun h => by
        obtain ⟨hscript, hnmi, hcounter⟩ :=
          quiet_tick (quiet_lineCounter nmi) blind_lineCounter h.script h.flag
        exact ⟨hnmi, hscript, hcounter.trans h.counter⟩ }
  count {k _ s} h := by
    rw [pulseIfEnabled_eq]
    refine ⟨h.flag, ⟨h.script.listed, h.script.enough⟩, ?_⟩
    rw [countLine_lineCounter, h.counter, BitVec.ofNat_add, BitVec.add_assoc]
    rfl
  setNextLine _ h := ⟨h.flag, ⟨h.script.listed, h.script.enough⟩, h.counter⟩

/-- Settles O33: no line's CPU run resets the counter, and each tail counts one. -/
theorem lineCounterCountsTheLinesOfAFrame : Obligations.LineCounterCountsTheLinesOfAFrame := by
  intro s t hclean hscripted hquiet h
  have hscript : Script (KeepsLineCounter s.nmiEnabled) (frameTicks s.cfg) s :=
    .ofRest hclean.budgetHigh hquiet hscripted
  have hlines := (linesCounted_lineInv s.nmiEnabled s.lineCounter).frameLines hclean
    ⟨rfl, ⟨hscript.listed, hscript.enough⟩, (BitVec.add_zero _).symm⟩
  rw [hclean.exec_frame_next h, endFrame_lineCounter, publish_lineCounter, hlines.counter]

/-! ### The pulses of a frame -/

/-- After `k` lines there are `k` pulses more than `start` if NMI is enabled, and no port is written
in the ticks to come, so that the flag stays. -/
structure LinesPulsed (nmi : Bool) (start k n : Nat) (s : State) : Prop where
  flag : s.nmiEnabled = nmi
  script : Script (fun i => noPortWrite i = true) n s
  pulsed : pulses s.trace = start + if nmi then k else 0

theorem linesPulsed_lineInv (nmi : Bool) (start : Nat) : LineInv (LinesPulsed nmi start) where
  part k :=
    { fbPut := fun _ _ h => ⟨h.flag, ⟨h.script.listed, h.script.enough⟩, h.pulsed⟩
      tick := fun h => by
        obtain ⟨hscript, hnmi, -⟩ :=
          quiet_tick (quiet_borderColor nmi) blind_borderColor h.script h.flag
        exact ⟨hnmi, hscript, (tick_pulses _ _).trans h.pulsed⟩ }
  count {k _ s} h := by
    have hpulse := pulseIfEnabled_pulses s
    rw [h.pulsed, h.flag] at hpulse
    refine ⟨?_, ?_, ?_⟩
    · rw [pulseIfEnabled_eq]; exact h.flag
    · rw [pulseIfEnabled_eq]; exact ⟨h.script.listed, h.script.enough⟩
    · rw [countLine_trace, hpulse]
      cases nmi with
      | false => rfl
      | true => exact Nat.add_assoc _ _ _
  setNextLine _ h := ⟨h.flag, ⟨h.script.listed, h.script.enough⟩, h.pulsed⟩

/-- Settles O34: the flag stays what it is over every line, and each tail pulses once while it is
set; PUBLISH is no pulse. -/
theorem onePulsePerLineWhileEnabled : Obligations.OnePulsePerLineWhileEnabled := by
  intro s t hclean hscripted hquiet h
  have hscript : Script (fun i => noPortWrite i = true) (frameTicks s.cfg) s :=
    .ofRest hclean.budgetHigh hquiet hscripted
  have hlines := (linesPulsed_lineInv s.nmiEnabled (pulses s.trace)).frameLines hclean
    ⟨rfl, ⟨hscript.listed, hscript.enough⟩, by simp⟩
  rw [hclean.exec_frame_next h, endFrame_trace, publish_trace, pulses_append, hlines.pulsed]
  rfl

end Sys2Proof.Machine

/-! Framebuffer coverage (R93): the cells in which two pictures agree grow with every pixel, and
after the lines of a frame they are all cells; with the obligation about it. -/

namespace Sys2Proof.Machine

variable {P Q : Nat → Prop} {s t u : State}

/-- Agreement in some cells is agreement in fewer. -/
theorem PictureDiffers.mono (h : PictureDiffers P s u) (hPQ : ∀ i, Q i → P i) :
    PictureDiffers Q s u := ⟨h.1, fun i hi => h.2 i (hPQ i hi)⟩

/-- The cells of columns `x0` to `x0 + n - 1` of line `y`. -/
def Columns (c : Config) (y x0 n i : Nat) : Prop := ∃ x, x0 ≤ x ∧ x < x0 + n ∧ i = cellIndex c y x

/-- The cells that lines `y` to `y + n - 1` draw: the rows of the upper, active and lower lines
among them (R84 to R88). -/
def Rows (c : Config) (y n i : Nat) : Prop :=
  ∃ y', y ≤ y' ∧ y' < y + n ∧ c.vretraceLines ≤ y' ∧ y' < bandSum c ∧
    Columns c y' 0 (rasterWidth c) i

/-- A segment makes two states agree in its columns. -/
theorem pictureDiffers_drawSegment (src : Source) (n x0 : Nat) (h : PictureDiffers P s u) :
    PictureDiffers (fun i => P i ∨ Columns s.cfg s.nextLine x0 n i) (drawSegment src x0 n s)
      (drawSegment src x0 n u) := by
  induction n generalizing x0 s u P with
  | zero =>
    refine h.mono fun i hi => hi.resolve_right ?_
    rintro ⟨x, h1, h2, -⟩
    omega
  | succ n ih =>
    rw [drawSegment, drawSegment, (pictureDiffers_congruence P).sourceColour src h]
    refine (ih (x0 + 1) (pictureDiffers_pixel x0 (sourceColour src s) h)).mono fun i hi => ?_
    rw [pixel_cfg, pixel_nextLine]
    obtain hP | ⟨x, h1, h2, rfl⟩ := hi
    · exact .inl (.inl hP)
    · obtain rfl | hx := Nat.eq_or_lt_of_le h1
      · exact .inl (.inr rfl)
      · exact .inr ⟨x, hx, by omega, rfl⟩

/-- A border line makes two states agree in its row. -/
theorem pictureDiffers_borderLine (h : PictureDiffers P s u) :
    PictureDiffers (fun i => P i ∨ Columns s.cfg s.nextLine 0 (rasterWidth s.cfg) i)
      (borderLine s) (borderLine u) := by
  rw [borderLine, borderLine, (pictureDiffers_congruence P).cfg h]
  exact pictureDiffers_drawSegment .border (rasterWidth s.cfg) 0 h

/-- An active line makes two states agree in its row. -/
theorem pictureDiffers_activeLine (h : PictureDiffers P s u) :
    PictureDiffers (fun i => P i ∨ Columns s.cfg s.nextLine 0 (rasterWidth s.cfg) i)
      (activeLine s) (activeLine u) := by
  have hleft := pictureDiffers_drawSegment .border s.cfg.leftBorderPx 0 h
  have hvideo := pictureDiffers_drawSegment .fill s.cfg.activePx s.cfg.leftBorderPx hleft
  have hall := pictureDiffers_drawSegment .border s.cfg.rightBorderPx
    (s.cfg.leftBorderPx + s.cfg.activePx) hvideo
  simp only [drawSegment_cfg, drawSegment_nextLine] at hall
  simp only [activeLine, (pictureDiffers_congruence P).cfg h]
  refine hall.mono fun i hi => ?_
  obtain hP | ⟨x, -, hx, rfl⟩ := hi
  · exact .inl (.inl (.inl hP))
  · simp only [rasterWidth, Nat.zero_add] at hx
    by_cases h1 : x < s.cfg.leftBorderPx
    · exact .inl (.inl (.inr ⟨x, Nat.zero_le x, by omega, rfl⟩))
    by_cases h2 : x < s.cfg.leftBorderPx + s.cfg.activePx
    · exact .inl (.inr ⟨x, by omega, h2, rfl⟩)
    · exact .inr ⟨x, by omega, by omega, rfl⟩

/-- A line between the retrace lines and the trailing lines is drawn (R72). -/
theorem bandOf_drawn {c : Config} {y : Nat} (h1 : c.vretraceLines ≤ y) (h2 : y < bandSum c) :
    bandOf c y = .upper ∨ bandOf c y = .active ∨ bandOf c y = .lower := by
  rw [bandSum] at h2
  unfold bandOf
  split_ifs
  · omega
  · exact .inl rfl
  · exact .inr (.inl rfl)
  · exact .inr (.inr rfl)

/-- A drawn line makes two states agree in its row. -/
theorem pictureDiffers_bandPart (h : PictureDiffers P s u) :
    PictureDiffers (fun i => P i ∨ Rows s.cfg s.nextLine 1 i)
      (bandPart (bandOf s.cfg s.nextLine) s) (bandPart (bandOf s.cfg s.nextLine) u) := by
  have hone {i : Nat} (hi : P i ∨ Rows s.cfg s.nextLine 1 i) :
      P i ∨ (s.cfg.vretraceLines ≤ s.nextLine ∧ s.nextLine < bandSum s.cfg) ∧
        Columns s.cfg s.nextLine 0 (rasterWidth s.cfg) i := by
    refine hi.imp_right fun ⟨y, h1, h2, h3, h4, hcol⟩ => ?_
    obtain rfl : y = s.nextLine := by omega
    exact ⟨⟨h3, h4⟩, hcol⟩
  by_cases hdrawn : s.cfg.vretraceLines ≤ s.nextLine ∧ s.nextLine < bandSum s.cfg
  · have hrow : PictureDiffers
        (fun i => P i ∨ Columns s.cfg s.nextLine 0 (rasterWidth s.cfg) i)
        (bandPart (bandOf s.cfg s.nextLine) s) (bandPart (bandOf s.cfg s.nextLine) u) := by
      obtain hb | hb | hb := bandOf_drawn hdrawn.1 hdrawn.2
      · rw [hb]; exact pictureDiffers_borderLine h
      · rw [hb]; exact pictureDiffers_activeLine h
      · rw [hb]; exact pictureDiffers_borderLine h
    exact hrow.mono fun i hi => (hone hi).imp_right And.right
  · have hkept := (pictureDiffers_congruence P).bandPart (bandOf s.cfg s.nextLine) h
    exact hkept.mono fun i hi => (hone hi).resolve_right fun hc => hdrawn hc.1

/-- RENDER_LINE in its order makes two states agree in the row it draws, if it draws one. -/
theorem pictureDiffers_renderLine (hf : s.inFrame = true) (ht : s.nextLine < s.cfg.totalHeight)
    (h : PictureDiffers P s u) :
    PictureDiffers (fun i => P i ∨ Rows s.cfg s.nextLine 1 i) (renderLine s.nextLine s)
      (renderLine s.nextLine u) := by
  have c := pictureDiffers_congruence P
  have hu := renderLine_inOrder (y := s.nextLine) ((c.inFrame h).trans hf) (c.nextLine h).symm
    (by rw [c.cfg h]; exact ht)
  rw [renderLine_inOrder hf rfl ht, hu, c.cfg h]
  have hrow := pictureDiffers_bandPart h
  have c' := pictureDiffers_congruence fun i => P i ∨ Rows s.cfg s.nextLine 1 i
  exact c'.setNextLine _ (c'.lineTail hrow)

/-- The lines of a frame make two states agree in all the rows they draw. -/
theorem pictureDiffers_renderLines (n y : Nat) (hf : s.inFrame = true) (hy : s.nextLine = y)
    (hfault : s.faulted = none) (ht : y + n ≤ s.cfg.totalHeight) (h : PictureDiffers P s u) :
    PictureDiffers (fun i => P i ∨ Rows s.cfg y n i) (renderLines n y s) (renderLines n y u) := by
  induction n generalizing y s u P with
  | zero =>
    refine h.mono fun i hi => hi.resolve_right ?_
    rintro ⟨y', h1, h2, -⟩
    omega
  | succ n ih =>
    subst hy
    have hlast : s.nextLine < s.cfg.totalHeight := by omega
    have hline := renderLine_ticked hf rfl hlast
    have hpair := pictureDiffers_renderLine hf hlast h
    have hok : (renderLine s.nextLine s).faulted = none := hline.faulted.trans hfault
    have hok' : (renderLine s.nextLine u).faulted = none :=
      ((pictureDiffers_congruence _).faulted hpair).trans hok
    have hrest := ih (s.nextLine + 1) (hline.inFrame.trans hf) (renderLine_nextLine hf rfl hlast)
      hok (by rw [hline.cfg]; omega) hpair
    rw [hline.cfg] at hrest
    simp only [renderLines, hok, hok', Option.isSome_none, Bool.false_eq_true, if_false]
    refine hrest.mono fun i hi => ?_
    obtain hP | ⟨y', h1, h2, hdrawn⟩ := hi
    · exact .inl (.inl hP)
    · obtain rfl | hy' := Nat.eq_or_lt_of_le h1
      · exact .inl (.inr ⟨_, le_rfl, by omega, hdrawn⟩)
      · exact .inr ⟨y', hy', by omega, hdrawn⟩

/-- Every cell of the framebuffer lies in the row of a drawn line of the frame (R21, R93). -/
theorem rows_of_lt_fbSize {c : Config} (hbands : bandSum c ≤ c.totalHeight) {i : Nat}
    (hi : i < fbSize c) : Rows c 0 c.totalHeight i := by
  have hwidth : 0 < rasterWidth c := Nat.pos_of_mul_pos_right (Nat.zero_lt_of_lt hi)
  have hrow : i / rasterWidth c < rasterHeight c := Nat.div_lt_of_lt_mul hi
  have hsum : bandSum c = c.vretraceLines + rasterHeight c := by
    simp only [bandSum, rasterHeight]
    omega
  refine ⟨c.vretraceLines + i / rasterWidth c, Nat.zero_le _, by omega, Nat.le_add_right _ _,
    by omega, i % rasterWidth c, Nat.zero_le _, by simpa using Nat.mod_lt i hwidth, ?_⟩
  rw [cellIndex, Nat.add_sub_cancel_left, Nat.mul_comm, Nat.div_add_mod]

/-- Frames from clean entries with different framebuffers end in pictures that agree in every row
the lines draw. -/
theorem CleanEntry.frame_pictureDiffers (h : CleanEntry s) (fb' : List (Nat × Colour)) :
    PictureDiffers (fun i => Rows s.cfg 0 s.cfg.totalHeight i)
      (endFrame (publish (frameLines s)))
      (endFrame (publish (frameLines { s with fb := fb' }))) := by
  have hstart : PictureDiffers (fun _ => False) (beginFrame s) (beginFrame { s with fb := fb' }) :=
    ⟨⟨fb', s.published, rfl⟩, fun _ hi => hi.elim⟩
  have hlines := pictureDiffers_renderLines (s := beginFrame s) s.cfg.totalHeight 0 rfl rfl
    h.faulted (by simp) hstart
  have c := pictureDiffers_congruence fun i => Rows s.cfg 0 s.cfg.totalHeight i
  exact c.endFrame (c.publish (hlines.mono fun _ => .inr))

/-- Settles O32: the framebuffer before the frame is one that the other need agree with nowhere, and
every cell lies in a row that the lines draw. -/
theorem frameOverwritesTheFramebuffer : Obligations.FrameOverwritesTheFramebuffer := by
  intro s t t' fb' hclean h h'
  have hclean' : CleanEntry { s with fb := fb' } := { hclean with }
  have hbands := (admitted_clauses hclean.admitted).1
  have hpair : PictureDiffers (fun i => Rows s.cfg 0 s.cfg.totalHeight i) t t' := by
    rw [hclean.exec_frame_next h, hclean'.exec_frame_next h']
    exact hclean.frame_pictureDiffers fb'
  obtain ⟨⟨f, p, rfl⟩, hcells⟩ := hpair
  exact ⟨rfl, fun i hi => hcells i (rows_of_lt_fbSize hbands hi)⟩

end Sys2Proof.Machine

/-! Runs of host operations (R138, R136, log 3): one step each, what they leave behind, and which of
them end well; with the obligation about them. -/

namespace Sys2Proof.Machine

variable {s t u : State}

/-! ### Steps -/

/-- A run of steps that goes on with its first step. -/
theorem steps_succ_of_step (n : Nat) (h : step s = .next u) : steps (n + 1) s = steps n u := by
  rw [steps, h]

/-- A run of steps that gives a next state has gone on with its first step. -/
theorem steps_succ_next {n : Nat} (h : steps (n + 1) s = .next t) :
    ∃ u, step s = .next u ∧ steps n u = .next t := by
  rw [steps] at h
  split at h
  next u hu => exact ⟨u, hu, h⟩
  next hstop => exact absurd h (hstop t)

/-- A step with a host operation waiting performs it (R79). -/
theorem step_host {o : HostOp} {rest : List Transaction} (hfault : s.faulted = none)
    (hbox : s.inbox = .host o :: rest) :
    step s = exec (decodeHost o) { s with inbox := rest } := step_ready hfault hbox rfl

/-! ### What a run leaves behind -/

/-- A frame ends outside a frame, or was refused and has not begun (R80). -/
theorem exec_frame_inFrame (hframe : s.inFrame = false) (h : exec .frame s = .next t) :
    t.inFrame = false := by
  have hfault := exec_next_unfaulted h
  cases hpower : s.powered with
  | true =>
    rw [exec_frame_idle hfault hpower hframe] at h
    injection h with hnext
    rw [← hnext, endFrame_inFrame]
  | false =>
    rw [exec_frame hfault, if_pos hpower] at h
    injection h with hnext
    rw [← hnext, raise_inFrame, hframe]

/-- A host operation takes nothing from the inbox and begins no frame that it does not end. -/
theorem exec_host_inbox_inFrame {o : HostOp} (hframe : s.inFrame = false)
    (h : exec (decodeHost o) s = .next t) : t.inbox = s.inbox ∧ t.inFrame = false := by
  cases o with
  | frame => exact ⟨(exec_kept rfl h).inbox, exec_frame_inFrame hframe h⟩
  | powerRaise | powerLower | keyDown | keyUp | setEar | snapshotWrite =>
    have hk := exec_inputKept rfl h
    exact ⟨hk.inbox, hk.inFrame.trans hframe⟩

/-- Host operations that all went on leave none waiting and no frame in flight. -/
theorem steps_host_done {ops : List HostOp} (hbox : s.inbox = ops.map .host)
    (hframe : s.inFrame = false) (h : steps ops.length s = .next t) :
    t.inbox = [] ∧ t.inFrame = false := by
  induction ops generalizing s with
  | nil =>
    cases h
    exact ⟨hbox, hframe⟩
  | cons o ops ih =>
    obtain ⟨u, hstep, hrest⟩ := steps_succ_next h
    rw [step_host (step_next_unfaulted hstep) hbox] at hstep
    obtain ⟨hinbox, hin⟩ :=
      exec_host_inbox_inFrame (s := { s with inbox := ops.map .host }) hframe hstep
    exact ih hinbox hin hrest

/-! ### Runs that end well -/

/-- The host operation neither powers down nor loads outside its region. -/
structure KeepsReady (o : HostOp) : Prop where
  power : o ≠ .powerLower
  rom : ∀ off v, o = .snapshotWrite .rom off v → off < 0x2000
  ram : ∀ off v, o = .snapshotWrite .ram off v → off < 0x4000

/-- A load inside its region changes memory only. -/
theorem loadByte_in_range (hadmitted : s.cfg.admitted = true) {region : LoadRegion} {off : Nat}
    {v : Byte} (ho : KeepsReady (.snapshotWrite region off v)) :
    ∃ m, loadByte region off v s = { s with mem := m } := by
  cases region with
  | rom =>
    have hoff := ho.rom off v rfl
    exact ⟨_, (loadByte_rom hadmitted off v).trans (if_neg (by omega))⟩
  | ram =>
    have hoff := ho.ram off v rfl
    exact ⟨_, (loadByte_ram hadmitted off v).trans (if_neg (by omega))⟩

/-- A ready block completes every host operation but POWER_LOWER and a load out of range, and is
ready again. -/
theorem ReadyBlock.exec (h : ReadyBlock s) {o : HostOp} (ho : KeepsReady o) :
    ∃ t, exec (decodeHost o) s = .next t ∧ ReadyBlock t := by
  have hdone {code : FaultCode} {k : State} (hk : ReadyBlock k) :
      ∃ t, betweenFrames s code k = .next t ∧ ReadyBlock t :=
    ⟨k, betweenFrames_outside h.faulted h.inFrame, hk⟩
  cases o with
  | frame => exact ⟨_, h.exec_frame, h.frame⟩
  | powerRaise => exact hdone ⟨h.admitted, h.faulted, rfl, h.inFrame⟩
  | powerLower => exact absurd rfl ho.power
  | keyDown | keyUp | setEar => exact hdone ⟨h.admitted, h.faulted, h.powered, h.inFrame⟩
  | snapshotWrite region off v =>
    obtain ⟨m, hm⟩ := loadByte_in_range h.admitted ho
    exact hdone (hm ▸ ⟨h.admitted, h.faulted, h.powered, h.inFrame⟩)

/-- A ready block completes a list of such operations, one step each. -/
theorem ReadyBlock.steps (h : ReadyBlock s) {ops : List HostOp} (hops : ∀ o ∈ ops, KeepsReady o)
    (hbox : s.inbox = ops.map .host) :
    ∃ t, steps ops.length s = .next t ∧ ReadyBlock t := by
  induction ops generalizing s with
  | nil => exact ⟨s, rfl, h⟩
  | cons o ops ih =>
    have hrest : ReadyBlock { s with inbox := ops.map .host } := { h with }
    obtain ⟨u, hexec, hu⟩ := hrest.exec (hops o List.mem_cons_self)
    obtain ⟨hinbox, -⟩ := exec_host_inbox_inFrame hrest.inFrame hexec
    obtain ⟨t, hsteps, ht⟩ := ih hu (fun o' ho' => hops o' (List.mem_cons_of_mem o ho')) hinbox
    refine ⟨t, ?_, ht⟩
    rw [List.length_cons, steps_succ_of_step _ ((step_host h.faulted hbox).trans hexec), hsteps]

/-! ### Runs from construction -/

/-- Under an admitted configuration a run starts unfaulted (R11). -/
theorem runStart_faulted {c : Config} (hadmitted : c.admitted = true) (u : State)
    (cpu : List CpuInstr) (ops : List HostOp) : (runStart c u cpu ops).faulted = none := by
  have hfault : (runStart c u cpu ops).faulted = (construct c u).faulted := rfl
  rw [hfault, construct_faulted, firstBroken_of_admitted hadmitted, Option.map_none]

/-- The first operation of a run, on the block as it starts with the others waiting. -/
theorem step_runStart {c : Config} (hadmitted : c.admitted = true) (u : State)
    (cpu : List CpuInstr) (o : HostOp) (ops : List HostOp) :
    step (runStart c u cpu (o :: ops)) = exec (decodeHost o) (runStart c u cpu ops) :=
  step_host (runStart_faulted hadmitted u cpu (o :: ops)) rfl

/-- A run that has given a next state leaves no operation waiting and no frame in flight. -/
theorem hostRun_done {c : Config} {u : State} {cpu : List CpuInstr} {ops : List HostOp}
    (h : hostRun c u cpu ops = .next t) : t.inbox = [] ∧ t.inFrame = false :=
  steps_host_done (s := runStart c u cpu ops) rfl rfl h

/-- A run that powers up first, stays powered and loads inside the regions ends well. -/
theorem hostRun_powerRaise_endedWell {c : Config} (hadmitted : c.admitted = true) (u : State)
    (cpu : List CpuInstr) {ops : List HostOp} (hops : ∀ o ∈ ops, KeepsReady o) :
    ∃ t, hostRun c u cpu (.powerRaise :: ops) = .next t ∧ endedWell t = true := by
  have hfault := runStart_faulted hadmitted u cpu ops
  have hready : ReadyBlock (powerRaise (runStart c u cpu ops)) := ⟨hadmitted, hfault, rfl, rfl⟩
  have hfirst : step (runStart c u cpu (.powerRaise :: ops))
      = .next (powerRaise (runStart c u cpu ops)) :=
    (step_runStart hadmitted u cpu .powerRaise ops).trans (betweenFrames_outside hfault rfl)
  obtain ⟨t, hsteps, ht⟩ := hready.steps hops rfl
  have hrun : hostRun c u cpu (.powerRaise :: ops) = .next t := by
    rw [hostRun, List.length_cons, steps_succ_of_step _ hfirst, hsteps]
  exact ⟨t, hrun, (endedWell_iff t).mpr ⟨(hostRun_done hrun).1, ht.inFrame, ht.faulted⟩⟩

/-- A frame before any POWER_RAISE faults NOT_POWERED (R80, R136). -/
theorem hostRun_frame_notPowered {c : Config} (hadmitted : c.admitted = true) (u : State)
    (cpu : List CpuInstr) :
    hostRun c u cpu [.frame] = .next (raise (.notPowered .frame) (runStart c u cpu [])) := by
  have hfirst : step (runStart c u cpu [.frame])
      = .next (raise (.notPowered .frame) (runStart c u cpu [])) :=
    (step_runStart hadmitted u cpu .frame []).trans
      ((exec_frame (runStart_faulted hadmitted u cpu [])).trans (congrArg _ (if_pos rfl)))
  rw [hostRun, List.length_singleton, steps_succ_of_step _ hfirst, steps]

/-- Settles O57: a run goes operation by operation; after POWER_RAISE the block stays ready, and
before it a frame is refused. -/
theorem runsEndWellAfterPowerRaise : Obligations.RunsEndWellAfterPowerRaise := by
  refine ⟨fun c u cpu ops t h => ?_, endedWell_iff,
    fun c u cpu ops hadmitted hpower hrom hram => ?_, fun c u cpu hadmitted => ?_⟩
  · obtain ⟨hinbox, hframe⟩ := hostRun_done h
    exact ⟨hinbox, hframe, by simp [endedWell_iff, hinbox, hframe]⟩
  · exact hostRun_powerRaise_endedWell hadmitted u cpu fun o ho =>
      { power := fun he => hpower (he ▸ ho)
        rom := fun off v he => hrom off v (he ▸ ho)
        ram := fun off v he => hram off v (he ▸ ho) }
  · exact ⟨_, hostRun_frame_notPowered hadmitted u cpu, rfl, endedWell_of_faulted rfl⟩

end Sys2Proof.Machine
